-- ==== Sys2Proof/Word.lean ====
section
/-! DEFINITION. The value types of the picopico CORE and the plainest arithmetic on them (00_scope.md R14, R15). -/

namespace Sys2Proof

/-- A stream byte, a sequence byte or an 8-bit register (30_encoding.md R110). -/
abbrev Byte := BitVec 8

/-- A 16-bit register, offset or counter (10_state.md R30). -/
abbrev Word := BitVec 16

/-- `clamp(x, lo, hi)` of 00_scope.md R15: `min(max(x, lo), hi)`. -/
def clamp (x lo hi : Int) : Int := min (max x lo) hi

end Sys2Proof
end

