-- ==== Sys2Proof/Config.lean ====
section
/-! DEFINITION. What a deployment fixes (00_scope.md R11) and the fixed parameters: byte order, Init values, marker bytes,
and the test configuration of 95_test_vectors.md, which `State.reset` takes (log 7). Every OPEN parameter is an argument
of `State.powerOn` and stands in the state, so a statement over all states is a statement over all deployments. -/

namespace Sys2Proof

/-- `WIDE_ORDER`: the byte order of two-byte operands (20_memory.md R82). -/
inductive WideOrder where
  /-- The less significant byte stands at the lower offset. -/
  | le
  /-- The more significant byte stands at the lower offset. -/
  | be
  deriving DecidableEq, Repr

/-- The parameters that nothing changes while the block runs (20_memory.md R83, 00_scope.md R11). -/
structure Deployment where
  wideOrder     : WideOrder
  resetOctave   : BitVec 3
  resetVolume   : BitVec 4
  resetNoteLen  : Word
  resetQuantLen : Word
  deriving DecidableEq, Repr

namespace Config

/-- `LOOP_DEPTH` (00_scope.md R11). -/
abbrev loopDepth : Nat := 4

/-- `SEQ_END`, the end marker of a sequence (30_encoding.md R122). -/
def seqEnd : Byte := 0x80

/-- `SEQ_LOOP`, the loop marker (30_encoding.md R122). -/
def seqLoop : Byte := 0x81

/-- `SEQ_REL`, the release marker (30_encoding.md R122). -/
def seqRel : Byte := 0x82

/-- The deployment with the default Init values of 00_scope.md R11 and a given byte order. -/
def deployment (order : WideOrder) : Deployment :=
  { wideOrder := order, resetOctave := 4, resetVolume := 15, resetNoteLen := 1, resetQuantLen := 0 }

/-- `FREQ_TABLE` of the test configuration (95_test_vectors.md section 0). DESIGN CHOICE, unsafe (log 7). -/
def testFreqTable : Vector Word 12 :=
  #v[6858, 7266, 7698, 8156, 8641, 9155, 9699, 10276, 10887, 11534, 12220, 12947]

/-- `AMP_TABLE` of the test configuration, `17 · i` (95_test_vectors.md section 0). DESIGN CHOICE, unsafe (log 7). -/
def testAmpTable : Vector Byte 16 :=
  #v[0, 17, 34, 51, 68, 85, 102, 119, 136, 153, 170, 187, 204, 221, 238, 255]

end Config

end Sys2Proof
end

