-- ==== Sys2Proof/Syntax.lean ====
section
/-! DEFINITION. The instructions of profile P13: one constructor per row of spec/opcode_table.json
(30_encoding.md R110 to R115). Operands are held as assembled values; a signed operand is held as its byte. -/

namespace Sys2Proof

/-- The operands a note byte announces (30_encoding.md R111, R115): the W flag, and the duration and the
quantization where the D and Q flags are set. -/
structure NoteArgs where
  wide  : Bool
  dur   : Option Word
  quant : Option Word
  deriving DecidableEq, Repr

/-- The instructions of 30_encoding.md R113 and R114. -/
inductive Instr where
  /-- END, 0x00 -/
  | endStream
  /-- NOTE with pitch class C, note value 1 -/
  | noteC (a : NoteArgs)
  /-- NOTE with pitch class C sharp, note value 2 -/
  | noteCS (a : NoteArgs)
  /-- NOTE with pitch class D, note value 3 -/
  | noteD (a : NoteArgs)
  /-- NOTE with pitch class D sharp, note value 4 -/
  | noteDS (a : NoteArgs)
  /-- NOTE with pitch class E, note value 5 -/
  | noteE (a : NoteArgs)
  /-- NOTE with pitch class F, note value 6 -/
  | noteF (a : NoteArgs)
  /-- NOTE with pitch class F sharp, note value 7 -/
  | noteFS (a : NoteArgs)
  /-- NOTE with pitch class G, note value 8 -/
  | noteG (a : NoteArgs)
  /-- NOTE with pitch class G sharp, note value 9 -/
  | noteGS (a : NoteArgs)
  /-- NOTE with pitch class A, note value 10 -/
  | noteA (a : NoteArgs)
  /-- NOTE with pitch class A sharp, note value 11 -/
  | noteAS (a : NoteArgs)
  /-- NOTE with pitch class B, note value 12 -/
  | noteB (a : NoteArgs)
  /-- REST, note value 13 -/
  | rest (a : NoteArgs)
  /-- TRACK_LOOP, 0x80 -/
  | trackLoop
  /-- LOOP_START, 0x81, repeat count -/
  | loopStart (u : Byte)
  /-- LOOP_END, 0x82 -/
  | loopEnd
  /-- NOTE_LEN, 0x83, ticks -/
  | noteLen (u : Byte)
  /-- NOTE_LEN_W, 0x84, ticks -/
  | noteLenW (w : Word)
  /-- QUANT_LEN, 0x85, ticks -/
  | quantLen (u : Byte)
  /-- QUANT_LEN_W, 0x86, ticks -/
  | quantLenW (w : Word)
  /-- OCTAVE, 0x87 -/
  | octave (u : Byte)
  /-- OCTAVE_UP, 0x88 -/
  | octaveUp
  /-- OCTAVE_DOWN, 0x89 -/
  | octaveDown
  /-- TRANSPOSE, 0x8a, semitones in two's complement -/
  | transpose (s : Byte)
  /-- DETUNE, 0x8b, phase-step units in two's complement -/
  | detune (s : Byte)
  /-- TIMBRE, 0x8c, two's complement -/
  | timbre (s : Byte)
  /-- VOLUME, 0x8d -/
  | volume (u : Byte)
  /-- VOLUME_UP, 0x8e -/
  | volumeUp
  /-- VOLUME_DOWN, 0x8f -/
  | volumeDown
  /-- PITCH_SWEEP, 0x90, ticks and phase-step units per tick in two's complement -/
  | pitchSweep (len step : Byte)
  /-- ENV_VOLUME, 0x91, sequence number -/
  | envVolume (k : Byte)
  /-- ENV_NOTE, 0x92, sequence number -/
  | envNote (k : Byte)
  /-- ENV_TIMBRE, 0x93, sequence number -/
  | envTimbre (k : Byte)
  /-- ENV_PITCH, 0x94, sequence number -/
  | envPitch (k : Byte)
  deriving DecidableEq, Repr

end Sys2Proof
end

