-- ==== Sys2Proof/Machine/State.lean ====
section
/-! DEFINITION. The state of the block as plain data (10_state.md R30), the reasons a step can stop, and power-on. -/

namespace Sys2Proof.Machine

/-- A byte-addressed read-only space: address and byte pairs, addresses strictly rising, no byte equal to what an
unlisted address reads as (`Memory.wf`). -/
abbrev Memory := List Host.Cell

/-- The six error kinds (60_exceptions.md R320). An error is a next state of its voice, not a stop of the model. -/
inductive ErrKind where
  | loopStackOverflow
  | loopStackUnderflow
  | invalidEnvelopeIndex
  | unknownOpcode
  | streamBoundsExceeded
  | emptyTrackLoop
  deriving DecidableEq, Repr

/-- The stops of the model. Each stands for a situation that no run from power-on reaches (`State.inv`). -/
inductive Fault where
  /-- Raised by the meaning of every instruction when no decode pass is in progress; safe: an instruction is executed
  by a decode pass only (40_interpreter_tick.md R155). -/
  | noDecodePass
  /-- Raised by the fetch of a voice with no stream bound; safe: such a voice is finished (70_reset_and_hazards.md R362). -/
  | streamAbsent
  /-- Raised by the stepper at an index outside the sequence memory, which 00_scope.md R17 forbids to read; safe: a
  selected sequence was validated (45_sequence_stepper.md R278). -/
  | sequenceBounds
  /-- Raised by the stepper when a scan yields nothing within its bound; safe: validation excludes it
  (45_sequence_stepper.md R278). -/
  | stepperEndless
  deriving DecidableEq, Repr

/-- The refusals of the model: host actions that the spec puts outside it (93_implementation_defined.md section 4). -/
inductive Refusal where
  /-- Raised by `exec` alone, for an instruction without a meaning; safe. No arm raises it. -/
  | notModelled (mnemonic : String)
  /-- Raised by an Init or a SampleEvent of a voice number that is not below NV (70_reset_and_hazards.md R373); safe. -/
  | hostVoiceNumber (v : Nat)
  /-- Raised by an Init whose buffer is shorter than its declared length (70_reset_and_hazards.md R373); safe. -/
  | hostShortBuffer (v : Nat)
  /-- Raised by a load of the tables while some voice is not finished (20_memory.md R93); safe. -/
  | hostRomInUse
  /-- Raised by a load outside the parameter ranges of 00_scope.md R11; safe. -/
  | hostRomRange
  deriving DecidableEq, Repr

/-- The four envelope classes (10_state.md R47). -/
inductive EnvClass where
  | vol
  | note
  | timb
  | pitch
  deriving DecidableEq, Repr

/-- One envelope instance (10_state.md R30, R47). -/
structure Env where
  sel : Bool
  idx : Byte
  pos : Byte
  rel : Bool
  val : Byte
  deriving DecidableEq, Repr

/-- The four envelope instances of a voice, `env[VOL]`, `env[NOTE]`, `env[TIMB]`, `env[PITCH]`. -/
structure Envs where
  vol   : Env
  note  : Env
  timb  : Env
  pitch : Env
  deriving DecidableEq, Repr

/-- A loop frame (10_state.md R45). -/
structure Frame where
  start : Word
  rem   : Byte
  deriving DecidableEq, Repr

/-- The oscillator-facing registers the tick domain writes (10_state.md R49). -/
inductive OscField where
  | gate
  | freq
  | amp
  | pw
  deriving DecidableEq, Repr

/-- One write of the tick domain to an oscillator-facing register (70_reset_and_hazards.md R370). -/
inductive OscWrite where
  | gate (b : Bool)
  | freq (x : Word)
  | amp (x : Byte)
  | pw (x : Word)
  deriving DecidableEq, Repr

/-- The four registers as the sample domain reads them (70_reset_and_hazards.md R370; log 3). -/
structure Shown where
  gate : Bool
  freq : Word
  amp  : Byte
  pw   : Word
  deriving DecidableEq, Repr

/-- The tick result of a voice (60_exceptions.md R330). -/
structure TickResult where
  active : Bool
  error  : Option ErrKind
  deriving DecidableEq, Repr

/-- A voice record: the fields of 10_state.md R30 in its order, then the outputs of R44 and the tick's register
writes that are not applied yet (70_reset_and_hazards.md R370). `gate`, `freq`, `amp` and `pw` hold what the tick
domain last wrote. -/
structure Voice where
  stream    : Option Memory
  cursor    : Word
  len       : Word
  finished  : Bool
  playing   : Bool
  nlenC     : Word
  qlenC     : Word
  noteLen   : Word
  quantLen  : Word
  semi      : Fin 12
  octave    : BitVec 3
  volume    : BitVec 4
  transpose : Byte
  detune    : Byte
  timbre    : Byte
  sweepLen  : Byte
  sweepStep : Byte
  sweepRem  : Byte
  sweepAcc  : Word
  tlpSet    : Bool
  tlp       : Word
  lsp       : Fin 5
  ls        : Vector Frame Config.loopDepth
  env       : Envs
  err       : Option ErrKind
  gate      : Bool
  freq      : Word
  amp       : Byte
  pw        : Word
  phase     : Word
  result    : TickResult
  sample    : Word
  shown     : Shown
  pending   : List OscWrite
  deriving DecidableEq, Repr

/-- The host-provided read-only memories (20_memory.md R80): the tables, and the sequence memory with `NUM_SEQ` the
length of `seqLen` and `SEQ_LEN[k]` its entry `k`; byte (k, i) stands at address `256 · k + i` (log 12). -/
structure Rom where
  freqTable : Vector Word 12
  ampTable  : Vector Byte 16
  seqLen    : List Byte
  seqMem    : Memory
  deriving DecidableEq, Repr

/-- An event from outside (60_exceptions.md R334), or the choice to apply one pending register write now
(70_reset_and_hazards.md R370; log 3, 5). -/
inductive Input where
  /-- `Init(v, stream, len)` (70_reset_and_hazards.md R360) -/
  | init (v : Nat) (stream : List Byte) (len : Word)
  /-- `TickEvent` (40_interpreter_tick.md R158) -/
  | tick
  /-- `SampleEvent(v)` (46_oscillator.md R300) -/
  | sample (v : Nat)
  /-- the oldest pending write of voice `v` to register `f` becomes visible -/
  | settle (v : Nat) (f : OscField)
  /-- the host makes the tables and the sequences hold these values (70_reset_and_hazards.md R365 step 1) -/
  | load (freqTable : Vector Word 12) (ampTable : Vector Byte 16) (seqs : List (List Byte))
  deriving DecidableEq, Repr

/-- A decode pass in progress: its voice, the pass-local flag `restarted` (10_state.md R52), and the voices whose tick
of the same TickEvent is still to come. -/
structure Pass where
  voice     : Nat
  restarted : Bool
  todo      : List Nat
  deriving DecidableEq, Repr

/-- Where the tick domain stands (40_interpreter_tick.md R155, R158). -/
inductive Engine where
  /-- no tick is running; the ticks of `todo` are still to come in this TickEvent -/
  | between (todo : List Nat)
  /-- a decode pass is running -/
  | pass (p : Pass)
  deriving DecidableEq, Repr

/-- The block: NV voice records (10_state.md R30), the read-only memories, the deployment's parameters, the place in
the current TickEvent, and the events still to come. -/
structure State where
  deploy : Deployment
  rom    : Rom
  voices : List Voice
  engine : Engine
  inputs : List Input
  deriving DecidableEq, Repr

/-- An envelope instance after Init (70_reset_and_hazards.md R360). -/
def Env.unset : Env := { sel := false, idx := 0, pos := 0, rel := false, val := 0 }

/-- The four envelope instances after Init (70_reset_and_hazards.md R360). -/
def Envs.unset : Envs := { vol := .unset, note := .unset, timb := .unset, pitch := .unset }

/-- A voice at power-on (70_reset_and_hazards.md R362): finished, gate off, no error, no stream. Every field the spec
leaves unspecified has the value Init writes: DESIGN CHOICE, unsafe (log 6, log 16). -/
def Voice.powerOn (d : Deployment) : Voice :=
  { stream := none, cursor := 0, len := 0, finished := true, playing := false, nlenC := 0, qlenC := 0,
    noteLen := d.resetNoteLen, quantLen := d.resetQuantLen, semi := 0, octave := d.resetOctave,
    volume := d.resetVolume, transpose := 0, detune := 0, timbre := 0, sweepLen := 0, sweepStep := 0,
    sweepRem := 0, sweepAcc := 0, tlpSet := false, tlp := 0, lsp := 0,
    ls := Vector.replicate _ { start := 0, rem := 0 }, env := .unset, err := none, gate := false, freq := 0,
    amp := 0, pw := 0, phase := 0, result := { active := false, error := none }, sample := 0,
    shown := { gate := false, freq := 0, amp := 0, pw := 0 }, pending := [] }

/-- The block at power-on for a deployment, its read-only memories and its number of voices
(70_reset_and_hazards.md R362, R364; 00_scope.md R11). -/
def State.powerOn (d : Deployment) (r : Rom) (nv : Nat) : State :=
  { deploy := d, rom := r, voices := List.replicate nv (Voice.powerOn d), engine := .between [], inputs := [] }

/-- The read-only memories of the test configuration with no sequence. DESIGN CHOICE, unsafe (log 7). -/
def Rom.test : Rom :=
  { freqTable := Config.testFreqTable, ampTable := Config.testAmpTable, seqLen := [], seqMem := [] }

/-- Power-on in the test configuration of 95_test_vectors.md: one voice, LE, the test tables, no sequence.
DESIGN CHOICE, unsafe (log 7): the spec leaves these parameters OPEN. -/
def State.reset : State := State.powerOn (Config.deployment .le) Rom.test 1

end Sys2Proof.Machine
end

