-- ==== Sys2Proof/Machine/Flags.lean ====
section
/-! DEFINITION. The one-bit flags of a voice and the writes of the oscillator-facing registers. The block has no
condition codes (10_state.md R43): these are all the flags an instruction can write, with `tlpSet` (Flow.lean) and
`env[c].sel`, `env[c].rel` (Stepper.lean). -/

namespace Sys2Proof.Machine

/-- `v.gate <- b`, a register write that becomes visible later (10_state.md R40, 70_reset_and_hazards.md R370). -/
def Voice.writeGate (vc : Voice) (b : Bool) : Voice :=
  { vc with gate := b, pending := vc.pending ++ [.gate b] }

/-- `v.freq <- x` (10_state.md R49). -/
def Voice.writeFreq (vc : Voice) (x : Word) : Voice :=
  { vc with freq := x, pending := vc.pending ++ [.freq x] }

/-- `v.amp <- x` (10_state.md R49). -/
def Voice.writeAmp (vc : Voice) (x : Byte) : Voice :=
  { vc with amp := x, pending := vc.pending ++ [.amp x] }

/-- `v.pw <- x` (10_state.md R49). -/
def Voice.writePw (vc : Voice) (x : Word) : Voice :=
  { vc with pw := x, pending := vc.pending ++ [.pw x] }

/-- `Finish(v)`: finished and silent, nothing else changes (41_note_and_end.md R181). -/
def Voice.finish (vc : Voice) : Voice :=
  { vc.writeGate false with finished := true, playing := false }

end Sys2Proof.Machine
end

