-- ==== Sys2Proof/WellFormed.lean ====
section
/-! DEFINITION. Which instruction terms an encoding can carry: an operand of a NOTE or REST whose W flag is clear is
one byte (30_encoding.md R111, R115). Every other operand's type already has the operand's width. -/

namespace Sys2Proof

/-- An operand fits the width the W flag gives it (30_encoding.md R115). -/
def operandFits (wide : Bool) : Option Word → Bool
  | none => true
  | some x => wide || decide (x.toNat < 256)

/-- Both operands fit the width the W flag gives them. -/
def NoteArgs.wf (a : NoteArgs) : Bool :=
  operandFits a.wide a.dur && operandFits a.wide a.quant

/-- The instruction is one that some encoding of 30_encoding.md R110 carries. -/
def Instr.wf : Instr → Bool
  | .endStream => true
  | .noteC a => a.wf
  | .noteCS a => a.wf
  | .noteD a => a.wf
  | .noteDS a => a.wf
  | .noteE a => a.wf
  | .noteF a => a.wf
  | .noteFS a => a.wf
  | .noteG a => a.wf
  | .noteGS a => a.wf
  | .noteA a => a.wf
  | .noteAS a => a.wf
  | .noteB a => a.wf
  | .rest a => a.wf
  | .trackLoop => true
  | .loopStart _ => true
  | .loopEnd => true
  | .noteLen _ => true
  | .noteLenW _ => true
  | .quantLen _ => true
  | .quantLenW _ => true
  | .octave _ => true
  | .octaveUp => true
  | .octaveDown => true
  | .transpose _ => true
  | .detune _ => true
  | .timbre _ => true
  | .volume _ => true
  | .volumeUp => true
  | .volumeDown => true
  | .pitchSweep _ _ => true
  | .envVolume _ => true
  | .envNote _ => true
  | .envTimbre _ => true
  | .envPitch _ => true

end Sys2Proof
end

