-- ==== Sys2Proof/Decode.lean ====
section
/-! DEFINITION. The decoder, total on every list of bytes, and the encoder (30_encoding.md R110 to R120). -/

namespace Sys2Proof

/-- Why a list of bytes is no instruction. -/
inductive DecodeError where
  /-- There is no byte at all. -/
  | empty
  /-- The first byte is one of the 130 illegal values (30_encoding.md R119). -/
  | unknownOpcode (b : Byte)
  /-- The operand bytes the first byte asks for are not all there (30_encoding.md R118). -/
  | truncated (b : Byte)
  deriving DecidableEq, Repr

/-- The bytes an announced operand takes: none, one, or two under W (30_encoding.md R112). -/
def operandLength (wide : Bool) : Option Word → Nat
  | none => 0
  | some _ => if wide then 2 else 1

/-- The length in bytes of a NOTE or REST with these operands (30_encoding.md R112). -/
def NoteArgs.length (a : NoteArgs) : Nat :=
  1 + operandLength a.wide a.dur + operandLength a.wide a.quant

/-- The length in bytes of an instruction (30_encoding.md R110, R112). -/
def Instr.length : Instr → Nat
  | .endStream => 1
  | .noteC a => a.length
  | .noteCS a => a.length
  | .noteD a => a.length
  | .noteDS a => a.length
  | .noteE a => a.length
  | .noteF a => a.length
  | .noteFS a => a.length
  | .noteG a => a.length
  | .noteGS a => a.length
  | .noteA a => a.length
  | .noteAS a => a.length
  | .noteB a => a.length
  | .rest a => a.length
  | .trackLoop => 1
  | .loopStart _ => 2
  | .loopEnd => 1
  | .noteLen _ => 2
  | .noteLenW _ => 3
  | .quantLen _ => 2
  | .quantLenW _ => 3
  | .octave _ => 2
  | .octaveUp => 1
  | .octaveDown => 1
  | .transpose _ => 2
  | .detune _ => 2
  | .timbre _ => 2
  | .volume _ => 2
  | .volumeUp => 1
  | .volumeDown => 1
  | .pitchSweep _ _ => 3
  | .envVolume _ => 2
  | .envNote _ => 2
  | .envTimbre _ => 2
  | .envPitch _ => 2

/-- `RdOp` for two bytes, the first from the lower offset (30_encoding.md R117). -/
def assemble (o : WideOrder) (b0 b1 : Byte) : Word :=
  match o with
  | .le => b1 ++ b0
  | .be => b0 ++ b1

/-- The pitch-class field `n` of a note byte (30_encoding.md R111). -/
def noteField (b : Byte) : Nat := b.toNat % 16

/-- The W flag of a note byte, bit 6 (30_encoding.md R111). -/
def flagW (b : Byte) : Bool := b.getLsbD 6

/-- The Q flag of a note byte, bit 5 (30_encoding.md R111). -/
def flagQ (b : Byte) : Bool := b.getLsbD 5

/-- The D flag of a note byte, bit 4 (30_encoding.md R111). -/
def flagD (b : Byte) : Bool := b.getLsbD 4

/-- The instruction of a pitch-class field: 1 to 12 are NOTE, 13 is REST (30_encoding.md R113). -/
def noteOf (n : Nat) (a : NoteArgs) : Option Instr :=
  match n with
  | 1 => some (.noteC a)
  | 2 => some (.noteCS a)
  | 3 => some (.noteD a)
  | 4 => some (.noteDS a)
  | 5 => some (.noteE a)
  | 6 => some (.noteF a)
  | 7 => some (.noteFS a)
  | 8 => some (.noteG a)
  | 9 => some (.noteGS a)
  | 10 => some (.noteA a)
  | 11 => some (.noteAS a)
  | 12 => some (.noteB a)
  | 13 => some (.rest a)
  | _ => none

/-- The bytes of one announced operand (30_encoding.md R112). -/
def flagLength (wide present : Bool) : Nat :=
  if present then (if wide then 2 else 1) else 0

/-- The length of the instruction that starts with byte `b`, fixed by that byte alone; none for the 130 illegal
values (30_encoding.md R112, R113, R119). -/
def instrLength (b : Byte) : Option Nat :=
  if b = 0 then some 1
  else if b.toNat < 0x80 then
    if 1 ≤ noteField b ∧ noteField b ≤ 13 then
      some (1 + flagLength (flagW b) (flagD b) + flagLength (flagW b) (flagQ b))
    else none
  else
    match b.toNat with
    | 0x80 => some 1
    | 0x81 => some 2
    | 0x82 => some 1
    | 0x83 => some 2
    | 0x84 => some 3
    | 0x85 => some 2
    | 0x86 => some 3
    | 0x87 => some 2
    | 0x88 => some 1
    | 0x89 => some 1
    | 0x8a => some 2
    | 0x8b => some 2
    | 0x8c => some 2
    | 0x8d => some 2
    | 0x8e => some 1
    | 0x8f => some 1
    | 0x90 => some 3
    | 0x91 => some 2
    | 0x92 => some 2
    | 0x93 => some 2
    | 0x94 => some 2
    | _ => none

/-- Reads one announced operand of a NOTE or REST; the outer none says that its bytes are not all there
(30_encoding.md R115, R117). -/
def takeOperand (o : WideOrder) (wide present : Bool) (bs : List Byte) : Option (Option Word × List Byte) :=
  if present then
    if wide then
      match bs with
      | b0 :: b1 :: rest => some (some (assemble o b0 b1), rest)
      | _ => none
    else
      match bs with
      | b0 :: rest => some (some (b0.setWidth 16), rest)
      | _ => none
  else some (none, bs)

/-- Both operands of a NOTE or REST, the duration first (30_encoding.md R111). -/
def takeNoteArgs (o : WideOrder) (b : Byte) (bs : List Byte) : Option (NoteArgs × List Byte) :=
  match takeOperand o (flagW b) (flagD b) bs with
  | none => none
  | some (d, bs1) =>
    match takeOperand o (flagW b) (flagQ b) bs1 with
    | none => none
    | some (q, bs2) => some ({ wide := flagW b, dur := d, quant := q }, bs2)

/-- Format F0: no operand (30_encoding.md R110). -/
def take0 (i : Instr) (bs : List Byte) : Except DecodeError (Instr × List Byte) := .ok (i, bs)

/-- Formats FU8 and FS8: one operand byte (30_encoding.md R110). -/
def take1 (b : Byte) (f : Byte → Instr) (bs : List Byte) : Except DecodeError (Instr × List Byte) :=
  match bs with
  | u :: rest => .ok (f u, rest)
  | [] => .error (.truncated b)

/-- Formats FU16 and FSW: two operand bytes (30_encoding.md R110). -/
def take2 (b : Byte) (f : Byte → Byte → Instr) (bs : List Byte) : Except DecodeError (Instr × List Byte) :=
  match bs with
  | x :: y :: rest => .ok (f x y, rest)
  | _ => .error (.truncated b)

/-- A note byte: bit 7 clear and not 0x00 (30_encoding.md R113). -/
def decodeNote (o : WideOrder) (b : Byte) (bs : List Byte) : Except DecodeError (Instr × List Byte) :=
  if 1 ≤ noteField b ∧ noteField b ≤ 13 then
    match takeNoteArgs o b bs with
    | none => .error (.truncated b)
    | some (a, rest) =>
      match noteOf (noteField b) a with
      | none => .error (.unknownOpcode b)
      | some i => .ok (i, rest)
  else .error (.unknownOpcode b)

/-- A byte with bit 7 set: the control opcodes 0x80 to 0x94, the rest illegal (30_encoding.md R114, R119). -/
def decodeControl (o : WideOrder) (b : Byte) (bs : List Byte) : Except DecodeError (Instr × List Byte) :=
  match b.toNat with
  | 0x80 => take0 .trackLoop bs
  | 0x81 => take1 b .loopStart bs
  | 0x82 => take0 .loopEnd bs
  | 0x83 => take1 b .noteLen bs
  | 0x84 => take2 b (fun x y => .noteLenW (assemble o x y)) bs
  | 0x85 => take1 b .quantLen bs
  | 0x86 => take2 b (fun x y => .quantLenW (assemble o x y)) bs
  | 0x87 => take1 b .octave bs
  | 0x88 => take0 .octaveUp bs
  | 0x89 => take0 .octaveDown bs
  | 0x8a => take1 b .transpose bs
  | 0x8b => take1 b .detune bs
  | 0x8c => take1 b .timbre bs
  | 0x8d => take1 b .volume bs
  | 0x8e => take0 .volumeUp bs
  | 0x8f => take0 .volumeDown bs
  | 0x90 => take2 b .pitchSweep bs
  | 0x91 => take1 b .envVolume bs
  | 0x92 => take1 b .envNote bs
  | 0x93 => take1 b .envTimbre bs
  | 0x94 => take1 b .envPitch bs
  | _ => .error (.unknownOpcode b)

/-- `Decode` of 30_encoding.md R113 with the operand assembly of R115: the first instruction of a list of bytes and
the bytes after it, or the reason there is none. -/
def decode (o : WideOrder) : List Byte → Except DecodeError (Instr × List Byte)
  | [] => .error .empty
  | b :: bs =>
    if b = 0 then take0 .endStream bs
    else if b.toNat < 0x80 then decodeNote o b bs
    else decodeControl o b bs

/-- The two bytes of a wide operand, the one for the lower offset first (20_memory.md R82). -/
def wideBytes (o : WideOrder) (x : Word) : List Byte :=
  match o with
  | .le => [x.setWidth 8, (x >>> 8).setWidth 8]
  | .be => [(x >>> 8).setWidth 8, x.setWidth 8]

/-- The bytes of an announced operand (30_encoding.md R110). -/
def operandBytes (o : WideOrder) (wide : Bool) : Option Word → List Byte
  | none => []
  | some x => if wide then wideBytes o x else [x.setWidth 8]

/-- The note byte `0 W Q D n n n n` (30_encoding.md R111). -/
def noteByte (n : Nat) (a : NoteArgs) : Byte :=
  BitVec.ofNat 8 (n + (if a.dur.isSome then 0x10 else 0) + (if a.quant.isSome then 0x20 else 0)
    + (if a.wide then 0x40 else 0))

/-- Format FN: the note byte, the duration, the quantization (30_encoding.md R110). -/
def noteBytes (o : WideOrder) (n : Nat) (a : NoteArgs) : List Byte :=
  noteByte n a :: (operandBytes o a.wide a.dur ++ operandBytes o a.wide a.quant)

/-- The bytes of an instruction, lowest offset first (30_encoding.md R110, R111, R114). -/
def encode (o : WideOrder) : Instr → List Byte
  | .endStream => [0x00]
  | .noteC a => noteBytes o 1 a
  | .noteCS a => noteBytes o 2 a
  | .noteD a => noteBytes o 3 a
  | .noteDS a => noteBytes o 4 a
  | .noteE a => noteBytes o 5 a
  | .noteF a => noteBytes o 6 a
  | .noteFS a => noteBytes o 7 a
  | .noteG a => noteBytes o 8 a
  | .noteGS a => noteBytes o 9 a
  | .noteA a => noteBytes o 10 a
  | .noteAS a => noteBytes o 11 a
  | .noteB a => noteBytes o 12 a
  | .rest a => noteBytes o 13 a
  | .trackLoop => [0x80]
  | .loopStart u => [0x81, u]
  | .loopEnd => [0x82]
  | .noteLen u => [0x83, u]
  | .noteLenW w => 0x84 :: wideBytes o w
  | .quantLen u => [0x85, u]
  | .quantLenW w => 0x86 :: wideBytes o w
  | .octave u => [0x87, u]
  | .octaveUp => [0x88]
  | .octaveDown => [0x89]
  | .transpose s => [0x8a, s]
  | .detune s => [0x8b, s]
  | .timbre s => [0x8c, s]
  | .volume u => [0x8d, u]
  | .volumeUp => [0x8e]
  | .volumeDown => [0x8f]
  | .pitchSweep len step => [0x90, len, step]
  | .envVolume k => [0x91, k]
  | .envNote k => [0x92, k]
  | .envTimbre k => [0x93, k]
  | .envPitch k => [0x94, k]

/-- The longest instruction, in bytes (30_encoding.md R112). -/
def maxLength : Nat := 5

/-- The low `n` bytes of `w`, least significant first: the table's numbering of an instruction's bits. -/
def bytesOfNat : Nat → Nat → List Byte
  | 0, _ => []
  | n + 1, w => BitVec.ofNat 8 w :: bytesOfNat n (w / 256)

/-- The bytes of an instruction of which the opcode table numbers `nbits` bits: the first word's byte at the lowest
offset, every bit above `nbits` zero. -/
def tableBytes (nbits w : Nat) : List Byte := bytesOfNat maxLength (w % 2 ^ nbits)

/-- The instruction the decoder reads from a word of the opcode table. The table gives a row one byte, so every operand
byte is 0 and the byte order does not matter; LE is taken (DESIGN CHOICE, safe, log 11). -/
def decodeTableWord (nbits w : Nat) : Option Instr :=
  match decode .le (tableBytes nbits w) with
  | .ok (i, _) => some i
  | .error _ => none

end Sys2Proof
end

