-- ==== Sys2Proof/Machine/Operands.lean ====
section
/-! DEFINITION. How an instruction's operands and the registers are read as numbers (00_scope.md R15,
30_encoding.md R115, 41_note_and_end.md R182). -/

namespace Sys2Proof.Machine

/-- `min(u, 7)` into the octave register (43_register_set.md R224). -/
def satOctave (n : Nat) : BitVec 3 := BitVec.ofNat 3 (min n 7)

/-- `min(u, 15)` into the volume register (43_register_set.md R230). -/
def satVolume (n : Nat) : BitVec 4 := BitVec.ofNat 4 (min n 15)

/-- An 8-bit tick count into a 16-bit length register (43_register_set.md R220). -/
def zext16 (u : Byte) : Word := u.setWidth 16

/-- The duration a NOTE or REST uses: its D operand, else `note_len` (41_note_and_end.md R182). -/
def Voice.noteDuration (vc : Voice) (a : NoteArgs) : Word := a.dur.getD vc.noteLen

/-- The quantization a NOTE or REST uses: its Q operand, else `quant_len` (41_note_and_end.md R182). -/
def Voice.noteQuant (vc : Voice) (a : NoteArgs) : Word := a.quant.getD vc.quantLen

/-- The offset `n` bytes after the opcode byte (10_state.md R36). The decode pass has checked that it is at most `L`. -/
def Voice.after (vc : Voice) (n : Nat) : Word := vc.cursor + BitVec.ofNat 16 n

end Sys2Proof.Machine
end

