-- ==== Sys2Proof/Machine/Ops.lean ====
section
/-! DEFINITION. The named operations over memory and voices: reads of the byte spaces, the voice whose decode pass is
running, raising an error (the only exception the block has) and Init (the only way out of it). -/

namespace Sys2Proof.Machine

/-! ### The byte spaces (20_memory.md) -/

/-- What an unlisted address reads as. DESIGN CHOICE, unsafe (log 9); no run reads a byte the host did not supply. -/
def unlistedByte : Byte := 0

/-- The byte at an address (`StreamRead`, `SeqRead`: 00_scope.md R17). -/
def Memory.read : Memory → Nat → Byte
  | [], _ => unlistedByte
  | (k, b) :: m, a => if k = a then b else Memory.read m a

/-- `n` bytes from address `a` up (20_memory.md R86). -/
def Memory.readMany (m : Memory) (a : Nat) : Nat → List Byte
  | 0 => []
  | n + 1 => m.read a :: Memory.readMany m (a + 1) n

/-- Places one byte, keeping the canonical form. Only the host's side uses it: the block writes no memory
(20_memory.md R81). -/
def Memory.write : Memory → Nat → Byte → Memory
  | [], a, b => if b = unlistedByte then [] else [(a, b)]
  | (k, c) :: m, a, b =>
    if a < k then (if b = unlistedByte then (k, c) :: m else (a, b) :: (k, c) :: m)
    else if a = k then (if b = unlistedByte then m else (a, b) :: m)
    else (k, c) :: Memory.write m a b

/-- Places bytes from address `a` up. -/
def Memory.writeMany (m : Memory) (a : Nat) : List Byte → Memory
  | [] => m
  | b :: bs => Memory.writeMany (m.write a b) (a + 1) bs

/-- The memory that holds `bs` from address `a` up and nothing else. -/
def Memory.ofBytes : Nat → List Byte → Memory
  | _, [] => []
  | a, b :: bs => if b = unlistedByte then Memory.ofBytes (a + 1) bs else (a, b) :: Memory.ofBytes (a + 1) bs

/-- The canonical form from address `lo` up: addresses strictly rising, no listed byte an unlisted one could be. -/
def Memory.wfFrom : Nat → Memory → Bool
  | _, [] => true
  | lo, (a, b) :: m => decide (lo ≤ a) && decide (b ≠ unlistedByte) && Memory.wfFrom (a + 1) m

/-- The canonical form. -/
def Memory.wf (m : Memory) : Bool := Memory.wfFrom 0 m

/-! ### Voices -/

/-- Replaces voice `v`'s record. -/
def State.setVoice (s : State) (v : Nat) (vc : Voice) : State := { s with voices := s.voices.set v vc }

/-- Runs a meaning on the voice whose decode pass is in progress (40_interpreter_tick.md R155). -/
def onPass (s : State) (f : Pass → Voice → Host.Outcome State Fault Refusal) : Host.Outcome State Fault Refusal :=
  match s.engine with
  | .between _ => .fault .noDecodePass
  | .pass p =>
    match s.voices[p.voice]? with
    | none => .fault .noDecodePass
    | some vc => f p vc

/-- Ends the tick of the pass's voice with the given record and result (40_interpreter_tick.md R150). -/
def State.endTick (s : State) (p : Pass) (vc : Voice) (error : Option ErrKind) : State :=
  { s.setVoice p.voice { vc with result := { active := !vc.finished, error := error } } with
    engine := .between p.todo }

/-- A control opcode: it changes the voice's record and decoding goes on in the same pass (40_interpreter_tick.md R156). -/
def controlOp (s : State) (f : Voice → Voice) : Host.Outcome State Fault Refusal :=
  onPass s fun p vc => .next (s.setVoice p.voice (f vc))

/-! ### Raising an error, and Init -/

/-- The record part of `raise Error(kind)`: `err` takes the kind and the voice finishes; `cursor` stays at the
instruction's first byte and nothing else is written (60_exceptions.md R322, R323). -/
def Voice.raise (vc : Voice) (k : ErrKind) : Voice := { vc.finish with err := some k }

/-- `raise Error(kind)` (60_exceptions.md R322): the record is written and the voice's tick ends with the error as its
result. No handler runs and nothing is saved elsewhere. -/
def State.raise (s : State) (p : Pass) (vc : Voice) (k : ErrKind) : State := s.endTick p (vc.raise k) (some k)

/-- The voice record `Init(v, stream, len)` writes (70_reset_and_hazards.md R360), the only return from an error
(60_exceptions.md R332). The buffer is bound whole; `len` bounds what is read of it. The outputs `result` and `sample`
are not among the fields Init writes (log 16). -/
def Voice.init (d : Deployment) (vc : Voice) (stream : List Byte) (len : Word) : Voice :=
  { stream := some (Memory.ofBytes 0 stream), cursor := 0, len := len, finished := false, playing := false,
    nlenC := 0, qlenC := 0, noteLen := d.resetNoteLen, quantLen := d.resetQuantLen, semi := 0,
    octave := d.resetOctave, volume := d.resetVolume, transpose := 0, detune := 0, timbre := 0, sweepLen := 0,
    sweepStep := 0, sweepRem := 0, sweepAcc := 0, tlpSet := false, tlp := 0, lsp := 0,
    ls := Vector.replicate _ { start := 0, rem := 0 }, env := .unset, err := none, gate := false, freq := 0,
    amp := 0, pw := 0, phase := 0, result := vc.result, sample := vc.sample,
    shown := { gate := false, freq := 0, amp := 0, pw := 0 }, pending := [] }

/-! ### What the host reads (10_state.md R44) -/

/-- The 3-bit code of an error kind (60_exceptions.md R320). -/
def ErrKind.code : ErrKind → BitVec 3
  | .loopStackOverflow => 0
  | .loopStackUnderflow => 1
  | .invalidEnvelopeIndex => 2
  | .unknownOpcode => 3
  | .streamBoundsExceeded => 4
  | .emptyTrackLoop => 5

/-- `err_valid[v]` (60_exceptions.md R331). -/
def Voice.errValid (vc : Voice) : Bool := vc.result.error.isSome

/-- `err_code[v]`, there while `err_valid[v]` is true (60_exceptions.md R331). -/
def Voice.errCode (vc : Voice) : Option (BitVec 3) := vc.result.error.map ErrKind.code

/-- `finished[v]`: the finished query (60_exceptions.md R330). -/
def State.finishedQuery (s : State) (v : Nat) : Option Bool := s.voices[v]?.map Voice.finished

end Sys2Proof.Machine
end

