-- ==== Sys2Proof/Machine/Flow.lean ====
section
/-! DEFINITION. TRACK_LOOP, LOOP_START and LOOP_END (42_flow_control.md). -/

namespace Sys2Proof.Machine

/-- TRACK_LOOP (42_flow_control.md R200): the offset of the next instruction becomes the track loop point. -/
def execTrackLoop (s : State) : Host.Outcome State Fault Refusal :=
  controlOp s fun vc => { vc with tlp := vc.after 1, tlpSet := true, cursor := vc.after 1 }

/-- LOOP_START (42_flow_control.md R201): pushes a frame, or raises LoopStackOverflow with four frames open. -/
def execLoopStart (u : Byte) (s : State) : Host.Outcome State Fault Refusal :=
  onPass s fun p vc =>
    if h : vc.lsp.val < Config.loopDepth then
      .next (s.setVoice p.voice
        { vc with
          ls := vc.ls.set vc.lsp.val { start := vc.after 2, rem := u }
          lsp := ⟨vc.lsp.val + 1, by simp only [Config.loopDepth] at h; omega⟩
          cursor := vc.after 2 })
    else .next (s.raise p vc .loopStackOverflow)

/-- LOOP_END (42_flow_control.md R202): branches back while executions remain, else pops the frame and falls through;
raises LoopStackUnderflow with no frame open. -/
def execLoopEnd (s : State) : Host.Outcome State Fault Refusal :=
  onPass s fun p vc =>
    if h : 0 < vc.lsp.val then
      let t := vc.lsp.val - 1
      have ht : t < Config.loopDepth := by
        have := vc.lsp.isLt
        simp only [t, Config.loopDepth]; omega
      let fr := vc.ls[t]
      if fr.rem.toNat ≤ 1 then
        .next (s.setVoice p.voice { vc with lsp := ⟨t, Nat.lt_succ_of_lt ht⟩, cursor := vc.after 1 })
      else
        .next (s.setVoice p.voice { vc with ls := vc.ls.set t { fr with rem := fr.rem - 1 }, cursor := fr.start })
    else .next (s.raise p vc .loopStackUnderflow)

end Sys2Proof.Machine
end

