-- ==== Sys2Proof/Machine/Stepper.lean ====
section
/-! DEFINITION. The sequence stepper (45_sequence_stepper.md): validation, restart, step and release of an envelope
instance, and their use on all selected instances of a voice. -/

namespace Sys2Proof.Machine

/-! ### The sequence memory -/

/-- The address of byte 0 of sequence `k` (log 12). -/
def seqBase (k : Byte) : Nat := 256 * k.toNat

/-- The bytes of sequence `k`, all `SEQ_LEN[k]` of them; none at all for `k ≥ NUM_SEQ` (45_sequence_stepper.md R273). -/
def Rom.seqBytes (r : Rom) (k : Byte) : List Byte :=
  match r.seqLen[k.toNat]? with
  | none => []
  | some n => r.seqMem.readMany (seqBase k) n.toNat

/-- `SeqRead(k, i)`, where 00_scope.md R17 allows it: `k < NUM_SEQ` and `i < SEQ_LEN[k]`. -/
def Rom.seqRead (r : Rom) (k : Byte) (i : Nat) : Option Byte := (r.seqBytes k)[i]?

/-- The bytes of sequence `k` before its first end marker (45_sequence_stepper.md R273). -/
def Rom.seqBody (r : Rom) (k : Byte) : List Byte := (r.seqBytes k).takeWhile (· != Config.seqEnd)

/-- `EndIdx(k)` (45_sequence_stepper.md R273). -/
def Rom.endIdx (r : Rom) (k : Byte) : Nat := (r.seqBody k).length

/-- `HasLoop(k)` (45_sequence_stepper.md R273). -/
def Rom.hasLoop (r : Rom) (k : Byte) : Bool := (r.seqBody k).contains Config.seqLoop

/-- `RelIdx(k)` where `HasRel(k)`, none elsewhere (45_sequence_stepper.md R273). -/
def Rom.relIdx (r : Rom) (k : Byte) : Option Nat := (r.seqBody k).findIdx? (· == Config.seqRel)

/-- `LoopEnd(k)` (45_sequence_stepper.md R273). -/
def Rom.loopEnd (r : Rom) (k : Byte) : Nat := (r.relIdx k).getD (r.endIdx k)

/-- A data byte: none of the three markers (30_encoding.md R122). -/
def isData (x : Byte) : Bool := x != Config.seqEnd && x != Config.seqLoop && x != Config.seqRel

/-- `SeqValid(k)` (45_sequence_stepper.md R274). -/
def Rom.seqValid (r : Rom) (k : Byte) : Bool :=
  decide (k.toNat < r.seqLen.length)
    && (r.seqBytes k).contains Config.seqEnd
    && decide ((r.seqBody k).count Config.seqLoop ≤ 1)
    && decide ((r.seqBody k).count Config.seqRel ≤ 1)
    && (!r.hasLoop k || ((r.seqBody k).take (r.loopEnd k)).any isData)

/-- The sequence memory that holds the given sequences from number `k` up (20_memory.md R91). -/
def seqMemOf : Nat → List (List Byte) → Memory
  | _, [] => []
  | k, s :: ss => Memory.ofBytes (256 * k) s ++ seqMemOf (k + 1) ss

/-- The read-only memories with the given tables and sequences (20_memory.md R80). -/
def Rom.ofSeqs (freqTable : Vector Word 12) (ampTable : Vector Byte 16) (seqs : List (List Byte)) : Rom :=
  { freqTable := freqTable, ampTable := ampTable, seqLen := seqs.map fun s => BitVec.ofNat 8 s.length,
    seqMem := seqMemOf 0 seqs }

/-! ### One instance -/

/-- `EnvRestart` (45_sequence_stepper.md R276). -/
def Env.restart (e : Env) : Env := { e with pos := 0, rel := false, val := 0 }

/-- What an ENV_* opcode writes: selected, sequence `k`, restarted (44_sweep_envelope_select.md R252). -/
def Env.select (e : Env) (k : Byte) : Env := Env.restart { e with sel := true, idx := k }

/-- What one turn of `EnvStep`'s loop does. -/
inductive Scan where
  /-- the turn returns, with the instance as it then is -/
  | yields (e : Env)
  /-- the loop goes on -/
  | goesOn (e : Env)
  /-- the byte to read is outside the sequence memory -/
  | outside
  deriving DecidableEq, Repr

/-- One turn of `EnvStep`'s loop (45_sequence_stepper.md R277). -/
def Rom.envScan (r : Rom) (e : Env) : Scan :=
  match r.seqRead e.idx e.pos.toNat with
  | none => .outside
  | some x =>
    if x = Config.seqLoop then .goesOn { e with pos := e.pos + 1 }
    else if x = Config.seqRel then
      if !e.rel && r.hasLoop e.idx then .goesOn { e with pos := 0 }
      else .goesOn { e with rel := true, pos := e.pos + 1 }
    else if x = Config.seqEnd then
      if !e.rel && r.hasLoop e.idx then .goesOn { e with pos := 0 }
      else .yields e
    else .yields { e with val := x, pos := e.pos + 1 }

/-- `EnvStep`'s loop, for at most the given number of turns. -/
def Rom.envTurns (r : Rom) : Nat → Env → Except Fault Env
  | 0, _ => .error .stepperEndless
  | n + 1, e =>
    match r.envScan e with
    | .yields e' => .ok e'
    | .goesOn e' => Rom.envTurns r n e'
    | .outside => .error .sequenceBounds

/-- More turns than any validated sequence needs: at most `2 · SEQ_LEN[k]` (45_sequence_stepper.md R278). -/
def envFuel : Nat := 512

/-- `EnvStep` (45_sequence_stepper.md R277); the value yielded is the new instance's `val`. -/
def Rom.envStep (r : Rom) (e : Env) : Except Fault Env := r.envTurns envFuel e

/-- `EnvRelease` (45_sequence_stepper.md R280). -/
def Rom.envRelease (r : Rom) (e : Env) : Env :=
  if e.rel then e
  else
    match r.relIdx e.idx with
    | none => { e with rel := true }
    | some i => if e.pos.toNat ≤ i then { e with rel := true, pos := BitVec.ofNat 8 (i + 1) } else { e with rel := true }

/-! ### The instances of a voice -/

/-- `env[c]` (10_state.md R47). -/
def Envs.get (es : Envs) : EnvClass → Env
  | .vol => es.vol
  | .note => es.note
  | .timb => es.timb
  | .pitch => es.pitch

/-- `env[c] <- e` (10_state.md R47). -/
def Envs.put (es : Envs) (c : EnvClass) (e : Env) : Envs :=
  match c with
  | .vol => { es with vol := e }
  | .note => { es with note := e }
  | .timb => { es with timb := e }
  | .pitch => { es with pitch := e }

/-- A selected instance is stepped; an unset one is left alone (10_state.md R47). -/
def Rom.stepSelected (r : Rom) (e : Env) : Except Fault Env := if e.sel then r.envStep e else .ok e

/-- A selected instance is restarted and stepped (41_note_and_end.md R183). -/
def Rom.startSelected (r : Rom) (e : Env) : Except Fault Env := if e.sel then r.envStep e.restart else .ok e

/-- A selected instance is released (40_interpreter_tick.md R152). -/
def Rom.releaseSelected (r : Rom) (e : Env) : Env := if e.sel then r.envRelease e else e

/-- An operation on each instance in class order VOL, NOTE, TIMB, PITCH (40_interpreter_tick.md R150). -/
def Envs.each (f : Env → Except Fault Env) (es : Envs) : Except Fault Envs :=
  match f es.vol with
  | .error x => .error x
  | .ok v =>
    match f es.note with
    | .error x => .error x
    | .ok n =>
      match f es.timb with
      | .error x => .error x
      | .ok t =>
        match f es.pitch with
        | .error x => .error x
        | .ok p => .ok { vol := v, note := n, timb := t, pitch := p }

/-- The release event on every selected instance (40_interpreter_tick.md R152). -/
def Rom.releaseAll (r : Rom) (es : Envs) : Envs :=
  { vol := r.releaseSelected es.vol, note := r.releaseSelected es.note, timb := r.releaseSelected es.timb,
    pitch := r.releaseSelected es.pitch }

/-- What an instance contributes to Publish: 0 when unset (40_interpreter_tick.md R160). -/
def Env.offset (e : Env) : Int := if e.sel then e.val.toInt else 0

end Sys2Proof.Machine
end

