-- ==== Sys2Proof/Machine/Publish.lean ====
section
/-! DEFINITION. From interpreter state to oscillator registers: NoteFreq and Publish (40_interpreter_tick.md R160, R162). -/

namespace Sys2Proof.Machine

/-- `NoteFreq(n)` (40_interpreter_tick.md R162): the octave-7 table shifted to the effective octave, saturating. -/
def Rom.noteFreq (r : Rom) (n : Int) : Nat :=
  let t := (r.freqTable[(n % 12).toNat]'(by omega)).toNat
  if n / 12 ≤ 7 then t >>> (7 - n / 12).toNat else min (t <<< (n / 12 - 7).toNat) 65535

/-- The note number Publish looks up (40_interpreter_tick.md R160). -/
def Voice.noteNumber (vc : Voice) : Int :=
  12 * (vc.octave.toNat : Int) + (vc.semi.val : Int) + vc.transpose.toInt + vc.env.note.offset

/-- The phase step Publish writes (40_interpreter_tick.md R160, R161). -/
def Rom.pubFreq (r : Rom) (vc : Voice) : Word :=
  BitVec.ofInt 16
    (clamp ((r.noteFreq vc.noteNumber : Int) + vc.detune.toInt + vc.env.pitch.offset + vc.sweepAcc.toInt) 0 65535)

/-- The effective volume, the index into `AMP_TABLE` (40_interpreter_tick.md R160). -/
def Voice.effVolume (vc : Voice) : Int := clamp ((vc.volume.toNat : Int) + vc.env.vol.offset) 0 15

/-- The amplitude Publish writes (40_interpreter_tick.md R160). -/
def Rom.pubAmp (r : Rom) (vc : Voice) : Byte :=
  r.ampTable[vc.effVolume.toNat]'(by simp only [Voice.effVolume, clamp]; omega)

/-- The pulse width Publish writes (40_interpreter_tick.md R160). -/
def Voice.pubPw (vc : Voice) : Word :=
  BitVec.ofInt 16 (256 * clamp (vc.timbre.toInt + vc.env.timb.offset) (-128) 127)

/-- `Publish(v)`: three separate register writes (40_interpreter_tick.md R160). -/
def Rom.publish (r : Rom) (vc : Voice) : Voice :=
  ((vc.writeFreq (r.pubFreq vc)).writeAmp (r.pubAmp vc)).writePw vc.pubPw

end Sys2Proof.Machine
end

