-- ==== Sys2Proof/Machine/Note.lean ====
section
/-! DEFINITION. END, the twelve NOTE opcodes and REST (41_note_and_end.md). Each ends the tick, END unless it restarts. -/

namespace Sys2Proof.Machine

/-- END (41_note_and_end.md R180): the voice finishes, or the stream restarts at the track loop point, once per pass. -/
def execEnd (s : State) : Host.Outcome State Fault Refusal :=
  onPass s fun p vc =>
    if vc.tlpSet then
      if p.restarted then .next (s.raise p vc .emptyTrackLoop)
      else
        .next { s.setVoice p.voice { vc with cursor := vc.tlp } with engine := .pass { p with restarted := true } }
    else .next (s.endTick p vc.finish none)

/-- The registers NOTE writes before the envelopes are restarted (41_note_and_end.md R183). -/
def Voice.startNote (vc : Voice) (semi : Fin 12) (a : NoteArgs) : Voice :=
  Voice.writeGate
    { vc with
      cursor := vc.after a.length
      nlenC := vc.noteDuration a
      qlenC := vc.noteQuant a
      semi := semi
      playing := true } true

/-- NOTE of a pitch class (41_note_and_end.md R183): the counters are loaded, the gate opens, the selected envelopes
restart and step once, the sweep restarts, the registers are published and the tick is consumed. -/
def playNote (semi : Fin 12) (a : NoteArgs) (s : State) : Host.Outcome State Fault Refusal :=
  onPass s fun p vc =>
    match vc.env.each s.rom.startSelected with
    | .error f => .fault f
    | .ok es =>
      .next (s.endTick p
        (s.rom.publish { vc.startNote semi a with env := es, sweepRem := vc.sweepLen, sweepAcc := 0 }) none)

/-- NOTE_C (41_note_and_end.md R183) -/
def execNoteC (a : NoteArgs) (s : State) : Host.Outcome State Fault Refusal := playNote 0 a s

/-- NOTE_CS (41_note_and_end.md R183) -/
def execNoteCS (a : NoteArgs) (s : State) : Host.Outcome State Fault Refusal := playNote 1 a s

/-- NOTE_D (41_note_and_end.md R183) -/
def execNoteD (a : NoteArgs) (s : State) : Host.Outcome State Fault Refusal := playNote 2 a s

/-- NOTE_DS (41_note_and_end.md R183) -/
def execNoteDS (a : NoteArgs) (s : State) : Host.Outcome State Fault Refusal := playNote 3 a s

/-- NOTE_E (41_note_and_end.md R183) -/
def execNoteE (a : NoteArgs) (s : State) : Host.Outcome State Fault Refusal := playNote 4 a s

/-- NOTE_F (41_note_and_end.md R183) -/
def execNoteF (a : NoteArgs) (s : State) : Host.Outcome State Fault Refusal := playNote 5 a s

/-- NOTE_FS (41_note_and_end.md R183) -/
def execNoteFS (a : NoteArgs) (s : State) : Host.Outcome State Fault Refusal := playNote 6 a s

/-- NOTE_G (41_note_and_end.md R183) -/
def execNoteG (a : NoteArgs) (s : State) : Host.Outcome State Fault Refusal := playNote 7 a s

/-- NOTE_GS (41_note_and_end.md R183) -/
def execNoteGS (a : NoteArgs) (s : State) : Host.Outcome State Fault Refusal := playNote 8 a s

/-- NOTE_A (41_note_and_end.md R183) -/
def execNoteA (a : NoteArgs) (s : State) : Host.Outcome State Fault Refusal := playNote 9 a s

/-- NOTE_AS (41_note_and_end.md R183) -/
def execNoteAS (a : NoteArgs) (s : State) : Host.Outcome State Fault Refusal := playNote 10 a s

/-- NOTE_B (41_note_and_end.md R183) -/
def execNoteB (a : NoteArgs) (s : State) : Host.Outcome State Fault Refusal := playNote 11 a s

/-- REST (41_note_and_end.md R184): the quantization operand is consumed and discarded. -/
def execRest (a : NoteArgs) (s : State) : Host.Outcome State Fault Refusal :=
  onPass s fun p vc =>
    .next (s.endTick p
      (Voice.writeGate
        { vc with cursor := vc.after a.length, nlenC := vc.noteDuration a, qlenC := 0, playing := false } false) none)

end Sys2Proof.Machine
end

