-- ==== Sys2Proof/Machine/Registers.lean ====
section
/-! DEFINITION. The register-setting opcodes 0x83 to 0x8f (43_register_set.md): each writes one register and advances
the cursor; none consumes a tick, writes an oscillator-facing register or raises an error of its own. -/

namespace Sys2Proof.Machine

/-- NOTE_LEN (43_register_set.md R220) -/
def execNoteLen (u : Byte) (s : State) : Host.Outcome State Fault Refusal :=
  controlOp s fun vc => { vc with noteLen := zext16 u, cursor := vc.after 2 }

/-- NOTE_LEN_W (43_register_set.md R221) -/
def execNoteLenW (w : Word) (s : State) : Host.Outcome State Fault Refusal :=
  controlOp s fun vc => { vc with noteLen := w, cursor := vc.after 3 }

/-- QUANT_LEN (43_register_set.md R222) -/
def execQuantLen (u : Byte) (s : State) : Host.Outcome State Fault Refusal :=
  controlOp s fun vc => { vc with quantLen := zext16 u, cursor := vc.after 2 }

/-- QUANT_LEN_W (43_register_set.md R223) -/
def execQuantLenW (w : Word) (s : State) : Host.Outcome State Fault Refusal :=
  controlOp s fun vc => { vc with quantLen := w, cursor := vc.after 3 }

/-- OCTAVE (43_register_set.md R224) -/
def execOctave (u : Byte) (s : State) : Host.Outcome State Fault Refusal :=
  controlOp s fun vc => { vc with octave := satOctave u.toNat, cursor := vc.after 2 }

/-- OCTAVE_UP (43_register_set.md R225) -/
def execOctaveUp (s : State) : Host.Outcome State Fault Refusal :=
  controlOp s fun vc => { vc with octave := satOctave (vc.octave.toNat + 1), cursor := vc.after 1 }

/-- OCTAVE_DOWN (43_register_set.md R226) -/
def execOctaveDown (s : State) : Host.Outcome State Fault Refusal :=
  controlOp s fun vc => { vc with octave := satOctave (vc.octave.toNat - 1), cursor := vc.after 1 }

/-- TRANSPOSE (43_register_set.md R227) -/
def execTranspose (x : Byte) (s : State) : Host.Outcome State Fault Refusal :=
  controlOp s fun vc => { vc with transpose := x, cursor := vc.after 2 }

/-- DETUNE (43_register_set.md R228) -/
def execDetune (x : Byte) (s : State) : Host.Outcome State Fault Refusal :=
  controlOp s fun vc => { vc with detune := x, cursor := vc.after 2 }

/-- TIMBRE (43_register_set.md R229) -/
def execTimbre (x : Byte) (s : State) : Host.Outcome State Fault Refusal :=
  controlOp s fun vc => { vc with timbre := x, cursor := vc.after 2 }

/-- VOLUME (43_register_set.md R230) -/
def execVolume (u : Byte) (s : State) : Host.Outcome State Fault Refusal :=
  controlOp s fun vc => { vc with volume := satVolume u.toNat, cursor := vc.after 2 }

/-- VOLUME_UP (43_register_set.md R231) -/
def execVolumeUp (s : State) : Host.Outcome State Fault Refusal :=
  controlOp s fun vc => { vc with volume := satVolume (vc.volume.toNat + 1), cursor := vc.after 1 }

/-- VOLUME_DOWN (43_register_set.md R232) -/
def execVolumeDown (s : State) : Host.Outcome State Fault Refusal :=
  controlOp s fun vc => { vc with volume := satVolume (vc.volume.toNat - 1), cursor := vc.after 1 }

end Sys2Proof.Machine
end

