-- ==== Sys2Proof/Machine/SweepEnv.lean ====
section
/-! DEFINITION. PITCH_SWEEP, the sweep's step, and the four envelope selections (44_sweep_envelope_select.md). -/

namespace Sys2Proof.Machine

/-- PITCH_SWEEP (44_sweep_envelope_select.md R250) -/
def execPitchSweep (len step : Byte) (s : State) : Host.Outcome State Fault Refusal :=
  controlOp s fun vc => { vc with sweepLen := len, sweepStep := step, cursor := vc.after 3 }

/-- `SweepStep(v)` (44_sweep_envelope_select.md R251) -/
def Voice.sweepTick (vc : Voice) : Voice :=
  if 0 < vc.sweepRem.toNat then
    { vc with sweepAcc := vc.sweepAcc + vc.sweepStep.signExtend 16, sweepRem := vc.sweepRem - 1 }
  else vc

/-- Selecting sequence `k` for class `c` (44_sweep_envelope_select.md R252 to R255): InvalidEnvelopeIndex when the
sequence fails validation, else the instance is selected and restarted. -/
def selectEnv (c : EnvClass) (k : Byte) (s : State) : Host.Outcome State Fault Refusal :=
  onPass s fun p vc =>
    if s.rom.seqValid k then
      .next (s.setVoice p.voice { vc with env := vc.env.put c ((vc.env.get c).select k), cursor := vc.after 2 })
    else .next (s.raise p vc .invalidEnvelopeIndex)

/-- ENV_VOLUME (44_sweep_envelope_select.md R252) -/
def execEnvVolume (k : Byte) (s : State) : Host.Outcome State Fault Refusal := selectEnv .vol k s

/-- ENV_NOTE (44_sweep_envelope_select.md R253) -/
def execEnvNote (k : Byte) (s : State) : Host.Outcome State Fault Refusal := selectEnv .note k s

/-- ENV_TIMBRE (44_sweep_envelope_select.md R254) -/
def execEnvTimbre (k : Byte) (s : State) : Host.Outcome State Fault Refusal := selectEnv .timb k s

/-- ENV_PITCH (44_sweep_envelope_select.md R255) -/
def execEnvPitch (k : Byte) (s : State) : Host.Outcome State Fault Refusal := selectEnv .pitch k s

end Sys2Proof.Machine
end

