-- ==== Sys2Proof/Machine/Dispatch.lean ====
section
/-! DEFINITION. The meaning of each instruction, one arm per constructor. -/

namespace Sys2Proof.Machine

/-- Executes one instruction on the voice whose decode pass is in progress (40_interpreter_tick.md R155). -/
def exec (i : Instr) (s : State) : Host.Outcome State Fault Refusal :=
  match i with
  | .endStream => Sys2Proof.Machine.execEnd s
  | .noteC a => Sys2Proof.Machine.execNoteC a s
  | .noteCS a => Sys2Proof.Machine.execNoteCS a s
  | .noteD a => Sys2Proof.Machine.execNoteD a s
  | .noteDS a => Sys2Proof.Machine.execNoteDS a s
  | .noteE a => Sys2Proof.Machine.execNoteE a s
  | .noteF a => Sys2Proof.Machine.execNoteF a s
  | .noteFS a => Sys2Proof.Machine.execNoteFS a s
  | .noteG a => Sys2Proof.Machine.execNoteG a s
  | .noteGS a => Sys2Proof.Machine.execNoteGS a s
  | .noteA a => Sys2Proof.Machine.execNoteA a s
  | .noteAS a => Sys2Proof.Machine.execNoteAS a s
  | .noteB a => Sys2Proof.Machine.execNoteB a s
  | .rest a => Sys2Proof.Machine.execRest a s
  | .trackLoop => Sys2Proof.Machine.execTrackLoop s
  | .loopStart u => Sys2Proof.Machine.execLoopStart u s
  | .loopEnd => Sys2Proof.Machine.execLoopEnd s
  | .noteLen u => Sys2Proof.Machine.execNoteLen u s
  | .noteLenW w => Sys2Proof.Machine.execNoteLenW w s
  | .quantLen u => Sys2Proof.Machine.execQuantLen u s
  | .quantLenW w => Sys2Proof.Machine.execQuantLenW w s
  | .octave u => Sys2Proof.Machine.execOctave u s
  | .octaveUp => Sys2Proof.Machine.execOctaveUp s
  | .octaveDown => Sys2Proof.Machine.execOctaveDown s
  | .transpose x => Sys2Proof.Machine.execTranspose x s
  | .detune x => Sys2Proof.Machine.execDetune x s
  | .timbre x => Sys2Proof.Machine.execTimbre x s
  | .volume u => Sys2Proof.Machine.execVolume u s
  | .volumeUp => Sys2Proof.Machine.execVolumeUp s
  | .volumeDown => Sys2Proof.Machine.execVolumeDown s
  | .pitchSweep len step => Sys2Proof.Machine.execPitchSweep len step s
  | .envVolume k => Sys2Proof.Machine.execEnvVolume k s
  | .envNote k => Sys2Proof.Machine.execEnvNote k s
  | .envTimbre k => Sys2Proof.Machine.execEnvTimbre k s
  | .envPitch k => Sys2Proof.Machine.execEnvPitch k s

end Sys2Proof.Machine
end

