-- ==== Sys2Proof/Machine/Fetch.lean ====
section
/-! DEFINITION. Fetching an instruction in a decode pass, with the checks in their order (40_interpreter_tick.md R155,
60_exceptions.md R324), and placing one where the next step fetches it. -/

namespace Sys2Proof.Machine

/-- What a fetch gives. -/
inductive Fetched where
  /-- an instruction to execute -/
  | instr (i : Instr)
  /-- one of the decode pass's own errors -/
  | raises (k : ErrKind)
  /-- no stream is bound -/
  | absent
  deriving DecidableEq, Repr

/-- Fetches at the cursor (40_interpreter_tick.md R155): check 1, the opcode byte, check 2, check 3, the operands. -/
def Voice.fetch (o : WideOrder) (vc : Voice) : Fetched :=
  match vc.stream with
  | none => .absent
  | some m =>
    if vc.len.toNat ≤ vc.cursor.toNat then .raises .streamBoundsExceeded
    else
      match instrLength (m.read vc.cursor.toNat) with
      | none => .raises .unknownOpcode
      | some n =>
        if vc.len.toNat < vc.cursor.toNat + n then .raises .streamBoundsExceeded
        else
          match decode o (m.readMany vc.cursor.toNat n) with
          | .ok (i, _) => .instr i
          | .error (.unknownOpcode _) => .raises .unknownOpcode
          | .error _ => .raises .streamBoundsExceeded

/-- The offset at which a voice's next instruction is placed: its cursor, or 0 where the longest instruction would not
fit below 65535. -/
def Voice.placeAt (vc : Voice) : Nat := if vc.cursor.toNat + maxLength ≤ 65535 then vc.cursor.toNat else 0

/-- The voice with `bs` placed where its decode pass fetches next: the bytes, a length that covers them, and a voice
that is not finished. -/
def Voice.place (vc : Voice) (bs : List Byte) : Voice :=
  { vc with
    stream := some ((vc.stream.getD []).writeMany vc.placeAt bs)
    cursor := BitVec.ofNat 16 vc.placeAt
    len := BitVec.ofNat 16 (max vc.len.toNat (vc.placeAt + bs.length))
    finished := false }

/-- The decode pass in progress, or one that starts on voice 0 (log 10). -/
def Engine.passOrFirst : Engine → Pass
  | .pass p => p
  | .between todo => { voice := 0, restarted := false, todo := todo }

/-- Places bytes where the next step fetches, in a decode pass of that voice. -/
def State.place (s : State) (bs : List Byte) : State :=
  match s.voices[s.engine.passOrFirst.voice]? with
  | none => s
  | some vc => { s.setVoice s.engine.passOrFirst.voice (vc.place bs) with engine := .pass s.engine.passOrFirst }

end Sys2Proof.Machine
end

