-- ==== Sys2Proof/Machine/DecodePass.lean ====
section
/-! DEFINITION. The decode pass: fetch one instruction and execute it, or raise the fetch's error
(40_interpreter_tick.md R155). -/

namespace Sys2Proof.Machine

/-- One turn of the decode pass's loop (40_interpreter_tick.md R155). -/
def passStep (s : State) : Host.Outcome State Fault Refusal :=
  onPass s fun p vc =>
    match vc.fetch s.deploy.wideOrder with
    | .absent => .fault .streamAbsent
    | .raises k => .next (s.raise p vc k)
    | .instr i => exec i s

end Sys2Proof.Machine
end

