-- ==== Sys2Proof/Machine/Oscillator.lean ====
section
/-! DEFINITION. The sample domain: RenderSample, and how the tick's register writes become visible to it
(46_oscillator.md R300, 70_reset_and_hazards.md R370). -/

namespace Sys2Proof.Machine

/-- The sample of a phase under the visible registers (46_oscillator.md R300). -/
def Shown.level (o : Shown) (phase : Word) : Word :=
  if o.gate then
    if o.pw.toInt ≤ phase.toInt then o.amp.setWidth 16 else -(o.amp.setWidth 16)
  else 0

/-- `RenderSample(v)` (46_oscillator.md R300): the phase advances, gated or not, and the sample is selected. -/
def Voice.renderSample (vc : Voice) : Voice :=
  { vc with phase := vc.phase + vc.shown.freq, sample := vc.shown.level (vc.phase + vc.shown.freq) }

/-- The register a write writes. -/
def OscWrite.field : OscWrite → OscField
  | .gate _ => .gate
  | .freq _ => .freq
  | .amp _ => .amp
  | .pw _ => .pw

/-- A write becomes visible, whole (20_memory.md R88). -/
def Shown.apply (o : Shown) : OscWrite → Shown
  | .gate b => { o with gate := b }
  | .freq x => { o with freq := x }
  | .amp x => { o with amp := x }
  | .pw x => { o with pw := x }

/-- The oldest write to register `f` and the writes that remain; none if there is no such write. -/
def takeFirst (f : OscField) : List OscWrite → Option (OscWrite × List OscWrite)
  | [] => none
  | w :: ws =>
    if w.field = f then some (w, ws)
    else
      match takeFirst f ws with
      | none => none
      | some (x, rest) => some (x, w :: rest)

/-- The oldest pending write to register `f` becomes visible: any order over the registers, each register's own writes
in their order (70_reset_and_hazards.md R370). -/
def Voice.settle (vc : Voice) (f : OscField) : Voice :=
  match takeFirst f vc.pending with
  | none => vc
  | some (w, rest) => { vc with shown := vc.shown.apply w, pending := rest }

/-- The oldest pending write of all becomes visible (log 4). -/
def Voice.settleOldest (vc : Voice) : Voice :=
  match vc.pending with
  | [] => vc
  | w :: rest => { vc with shown := vc.shown.apply w, pending := rest }

end Sys2Proof.Machine
end

