-- ==== Sys2Proof/Machine/HostOps.lean ====
section
/-! DEFINITION. Serving the events from outside: Init, TickEvent, SampleEvent, the application of a register write, and
the host's loading of the tables (60_exceptions.md R334, 70_reset_and_hazards.md R360 to R370). -/

namespace Sys2Proof.Machine

/-- The first voice with a pending write lets its oldest one become visible; none when no write is pending. -/
def settleSome : List Voice → Option (List Voice)
  | [] => none
  | vc :: vs =>
    match vc.pending with
    | [] => (settleSome vs).map (vc :: ·)
    | _ :: _ => some (vc.settleOldest :: vs)

/-- A TickEvent begins once every write of the previous one is applied, and runs every voice
(70_reset_and_hazards.md R366, R370; 40_interpreter_tick.md R158). Until then it waits while a write is applied. -/
def serveTick (s : State) (rest : List Input) : State :=
  match settleSome s.voices with
  | some vs => { s with voices := vs }
  | none => { s with inputs := rest, engine := .between (List.range s.voices.length) }

/-- Init of voice `v` (70_reset_and_hazards.md R360). That it waits while a write of the voice is pending is a DESIGN
CHOICE (log 4): R361 gives an Init during its voice's tick no move. A voice
number that is not below NV, or a buffer shorter than `len`, is outside the model (R373). -/
def serveInit (s : State) (rest : List Input) (v : Nat) (stream : List Byte) (len : Word) :
    Host.Outcome State Fault Refusal :=
  match s.voices[v]? with
  | none => .refused (.hostVoiceNumber v)
  | some vc =>
    if stream.length < len.toNat then .refused (.hostShortBuffer v)
    else if vc.pending.isEmpty then
      .next { s.setVoice v (vc.init s.deploy stream len) with inputs := rest }
    else .next (s.setVoice v vc.settleOldest)

/-- SampleEvent of voice `v` (46_oscillator.md R300). -/
def serveSample (s : State) (rest : List Input) (v : Nat) : Host.Outcome State Fault Refusal :=
  match s.voices[v]? with
  | none => .refused (.hostVoiceNumber v)
  | some vc => .next { s.setVoice v vc.renderSample with inputs := rest }

/-- The oldest pending write of voice `v` to register `f` becomes visible; nothing happens where there is none
(70_reset_and_hazards.md R370). -/
def serveSettle (s : State) (rest : List Input) (v : Nat) (f : OscField) : State :=
  match s.voices[v]? with
  | none => { s with inputs := rest }
  | some vc => { s.setVoice v (vc.settle f) with inputs := rest }

/-- The parameter ranges of the sequence memory (00_scope.md R11): at most 256 sequences of 1 to 255 bytes. -/
def seqsInRange (seqs : List (List Byte)) : Bool :=
  decide (seqs.length ≤ 256) && seqs.all fun s => decide (1 ≤ s.length) && decide (s.length ≤ 255)

/-- The host fills the tables and the sequence memory, which it may do only while every voice is finished
(70_reset_and_hazards.md R365 step 1, 20_memory.md R93). -/
def serveLoad (s : State) (rest : List Input) (freqTable : Vector Word 12) (ampTable : Vector Byte 16)
    (seqs : List (List Byte)) : Host.Outcome State Fault Refusal :=
  if !(s.voices.all Voice.finished) then .refused .hostRomInUse
  else if !(seqsInRange seqs) then .refused .hostRomRange
  else .next { s with rom := Rom.ofSeqs freqTable ampTable seqs, inputs := rest }

/-- No event is due: a write that is still pending is applied, and otherwise the block waits (log 4, log 5). -/
def idle (s : State) : State :=
  match settleSome s.voices with
  | some vs => { s with voices := vs }
  | none => s

/-- The next event, or none. -/
def serve (s : State) : Host.Outcome State Fault Refusal :=
  match s.inputs with
  | [] => .next (idle s)
  | .tick :: rest => .next (serveTick s rest)
  | .init v stream len :: rest => serveInit s rest v stream len
  | .sample v :: rest => serveSample s rest v
  | .settle v f :: rest => .next (serveSettle s rest v f)
  | .load ft at' seqs :: rest => serveLoad s rest ft at' seqs

end Sys2Proof.Machine
end

