-- ==== Sys2Proof/Machine/Tick.lean ====
section
/-! DEFINITION. Steps 1 to 3 of `Tick(v)`, which run before a decode pass or in its place (40_interpreter_tick.md R150). -/

namespace Sys2Proof.Machine

/-- Step 2, quantization: the countdown, and at 0 the gate closes and the selected envelopes of a playing voice are
released (40_interpreter_tick.md R152). -/
def Rom.quantize (r : Rom) (vc : Voice) : Voice :=
  if vc.qlenC.toNat = 0 then vc
  else if vc.qlenC.toNat = 1 then
    let v1 := Voice.writeGate { vc with qlenC := 0 } false
    if v1.playing then { v1 with env := r.releaseAll v1.env } else v1
  else { vc with qlenC := vc.qlenC - 1 }

/-- What a sustain tick does to the voice: nothing to one that is not playing; else the selected envelopes and the sweep
are stepped, and the registers are published while the gate is on (40_interpreter_tick.md R153). -/
def Rom.sustain (r : Rom) (vc : Voice) : Except Fault Voice :=
  if vc.playing then
    match vc.env.each r.stepSelected with
    | .error f => .error f
    | .ok es =>
      let v1 := Voice.sweepTick { vc with env := es }
      .ok (if v1.gate then r.publish v1 else v1)
  else .ok vc

/-- How steps 1 to 3 of a tick leave a voice. -/
inductive Front where
  /-- the tick is over, with the voice's record as given -/
  | over (vc : Voice)
  /-- step 4 follows: a decode pass starts from this record -/
  | fetches (vc : Voice)
  deriving DecidableEq, Repr

/-- The tick is over with the voice active and no error, or idle (40_interpreter_tick.md R150). -/
def Voice.tickOver (vc : Voice) : Voice := { vc with result := { active := !vc.finished, error := none } }

/-- Steps 1 to 3 of `Tick(v)` (40_interpreter_tick.md R150 to R153). -/
def Rom.tickFront (r : Rom) (vc : Voice) : Except Fault Front :=
  if vc.finished then .ok (.over vc.tickOver)
  else
    let v1 := r.quantize vc
    if v1.nlenC.toNat = 0 then .ok (.fetches v1)
    else
      let v2 := { v1 with nlenC := v1.nlenC - 1 }
      if v2.nlenC.toNat = 0 then .ok (.fetches v2)
      else
        match r.sustain v2 with
        | .error f => .error f
        | .ok v3 => .ok (.over v3.tickOver)

/-- Starts the tick of voice `v`, with the voices of `todo` after it in the same TickEvent (40_interpreter_tick.md
R158). -/
def startTick (s : State) (v : Nat) (todo : List Nat) : Host.Outcome State Fault Refusal :=
  match s.voices[v]? with
  | none => .next { s with engine := .between todo }
  | some vc =>
    match s.rom.tickFront vc with
    | .error f => .fault f
    | .ok (.over vc') => .next { s.setVoice v vc' with engine := .between todo }
    | .ok (.fetches vc') =>
      .next { s.setVoice v vc' with engine := .pass { voice := v, restarted := false, todo := todo } }

end Sys2Proof.Machine
end

