-- ==== Sys2Proof/Machine/Step.lean ====
section
/-! DEFINITION. One step of the block (log 1): one instruction of the decode pass in progress; or the start of the next
voice's tick of the current TickEvent; or, between TickEvents, the next event. -/

namespace Sys2Proof.Machine

/-- One step. -/
def step (s : State) : Host.Outcome State Fault Refusal :=
  match s.engine with
  | .pass _ => passStep s
  | .between (v :: todo) => startTick s v todo
  | .between [] => serve s

/-- The state with a word of the opcode table placed where `step` fetches its next instruction, in a decode pass
(log 10). -/
def State.withFetchWord (s : State) (nbits w : Nat) : State := s.place (tableBytes nbits w)

end Sys2Proof.Machine
end

