-- ==== Sys2Proof/Safety.lean ====
section
/-! DEFINITION. What a sound state of the block is: the ranges, the flag laws and the visibility laws the spec states,
and the invariant that collects them. A run is safe when no step of it faults. After it, the words the statements use:
a pass in progress, its continuation and its end, and repeated steps of a part of the machine. -/

namespace Sys2Proof.Machine

/-- The offsets a voice holds lie in 0 .. `L` (10_state.md R30, R35). -/
def Voice.offsetsOk (vc : Voice) : Prop :=
  vc.cursor.toNat ≤ vc.len.toNat ∧ vc.tlp.toNat ≤ vc.len.toNat ∧ ∀ f ∈ vc.ls.toList, f.start.toNat ≤ vc.len.toNat

/-- A selected instance names a validated sequence and stands at or before its first end marker (10_state.md R48);
its value is a data value (10_state.md R30). -/
def Rom.envOk (r : Rom) (e : Env) : Prop :=
  (e.sel = true → r.seqValid e.idx = true ∧ e.pos.toNat ≤ r.endIdx e.idx) ∧ isData e.val = true

/-- All four instances of a voice are sound. -/
def Rom.envsOk (r : Rom) (es : Envs) : Prop := r.envOk es.vol ∧ r.envOk es.note ∧ r.envOk es.timb ∧ r.envOk es.pitch

/-- The accumulated ramp is what the steps taken so far can sum to, so that it does not wrap
(44_sweep_envelope_select.md R251). -/
def Voice.sweepOk (vc : Voice) : Prop :=
  -128 * (255 - (vc.sweepRem.toNat : Int)) ≤ vc.sweepAcc.toInt ∧
    vc.sweepAcc.toInt ≤ 127 * (255 - (vc.sweepRem.toNat : Int))

/-- The flag laws: a finished voice is silent, a voice with an error is finished, and the gate is on only while a note
is playing (10_state.md R38 to R40, 41_note_and_end.md R181). -/
def Voice.flagsOk (vc : Voice) : Prop :=
  (vc.finished = true → vc.gate = false) ∧ (vc.err ≠ none → vc.finished = true) ∧ (vc.gate = true → vc.playing = true)

/-- The registers the tick domain last wrote. -/
def Voice.registers (vc : Voice) : Shown := { gate := vc.gate, freq := vc.freq, amp := vc.amp, pw := vc.pw }

/-- Applying the pending writes to the visible registers gives what the tick domain wrote (20_memory.md R94). -/
def Voice.oscOk (vc : Voice) : Prop := vc.pending.foldl Shown.apply vc.shown = vc.registers

/-- The pulse width is a multiple of 256 (10_state.md R30). -/
def Voice.pwOk (vc : Voice) : Prop := vc.pw.toNat % 256 = 0

/-- The writes of one tick: `freq`, `amp` and `pw` at most once each, `gate` at most twice
(70_reset_and_hazards.md R370). -/
def writesOk (ws : List OscWrite) : Prop :=
  (ws.map OscWrite.field).count .freq ≤ 1 ∧ (ws.map OscWrite.field).count .amp ≤ 1 ∧
    (ws.map OscWrite.field).count .pw ≤ 1 ∧ (ws.map OscWrite.field).count .gate ≤ 2

/-- A voice that is not finished has a stream, and a bound stream is in canonical form (70_reset_and_hazards.md R362). -/
def Voice.streamOk (vc : Voice) : Prop :=
  (vc.finished = false → vc.stream ≠ none) ∧ ∀ m, vc.stream = some m → m.wf = true

/-- The sequence memory lies in the ranges of 00_scope.md R11 and is in canonical form. -/
def Rom.ok (r : Rom) : Prop :=
  r.seqMem.wf = true ∧ r.seqLen.length ≤ 256 ∧ ∀ n ∈ r.seqLen, 1 ≤ n.toNat

/-- The voices whose tick of the current TickEvent is still to come. -/
def Engine.todo : Engine → List Nat
  | .between todo => todo
  | .pass p => p.todo

/-- The voices of the current TickEvent, the running one first, are distinct voices of the block
(40_interpreter_tick.md R158); the running one is not finished and its note counter is 0 (R154). -/
def State.engineOk (s : State) : Prop :=
  match s.engine with
  | .between todo => todo.Nodup ∧ ∀ v ∈ todo, v < s.voices.length
  | .pass p =>
    (p.voice :: p.todo).Nodup ∧ (∀ v ∈ p.todo, v < s.voices.length) ∧
      ∃ vc, s.voices[p.voice]? = some vc ∧ vc.finished = false ∧ vc.nlenC = 0

/-- The pending writes are those of the current or the last tick: none for a voice whose tick is still to come, at most
the closing of the gate in a decode pass (70_reset_and_hazards.md R370). -/
def State.pendingOk (s : State) : Prop :=
  ∀ v vc, s.voices[v]? = some vc →
    writesOk vc.pending ∧ (v ∈ s.engine.todo → vc.pending = []) ∧
      ∀ p, s.engine = .pass p → p.voice = v → vc.pending = [] ∨ vc.pending = [.gate false]

/-- Every voice of the block has the property. -/
def State.all (s : State) (P : Voice → Prop) : Prop := ∀ vc ∈ s.voices, P vc

/-- The invariant of every run from power-on. -/
def State.inv (s : State) : Prop :=
  s.rom.ok ∧ s.all Voice.offsetsOk ∧ s.all Voice.sweepOk ∧ s.all Voice.flagsOk ∧ s.all Voice.oscOk ∧
    s.all Voice.pwOk ∧ s.all Voice.streamOk ∧ (s.all fun vc => vc.finished = false → s.rom.envsOk vc.env) ∧
    s.engineOk ∧ s.pendingOk

/-! ### Words for statements -/

/-- Voice `p.voice`, with the record `vc`, is in its decode pass `p`. -/
def InPass (s : State) (p : Pass) (vc : Voice) : Prop := s.engine = .pass p ∧ s.voices[p.voice]? = some vc

/-- The decode pass goes on with the voice's record changed to `vc`; nothing else changes. -/
def State.continues (s : State) (p : Pass) (vc : Voice) : State := { s with voices := s.voices.set p.voice vc }

/-- The voice's tick is over with its record changed to `vc`; nothing else changes. -/
def State.ticked (s : State) (p : Pass) (vc : Voice) : State :=
  { s with voices := s.voices.set p.voice vc, engine := .between p.todo }

/-- The record an error leaves (60_exceptions.md R322, R323): `err`, the three flags and the tick result are written;
the write of `gate` is pending. -/
def Voice.stopped (vc : Voice) (k : ErrKind) : Voice :=
  { vc with
    err := some k, finished := true, playing := false, gate := false,
    pending := vc.pending ++ [.gate false], result := { active := false, error := some k } }

/-- The byte `StreamRead(v, a)` gives: none for a voice that is not there or has no stream (00_scope.md R17). -/
def State.streamByte (s : State) (v a : Nat) : Option Byte :=
  match s.voices[v]? with
  | none => none
  | some vc => vc.stream.map fun m => m.read a

/-- The control opcodes 0x80 to 0x94 (30_encoding.md R114). -/
def isControl (i : Instr) : Bool :=
  match encode .le i with
  | [] => false
  | b :: _ => decide (0x80 ≤ b.toNat)

/-- The opcode that selects sequence `k` for envelope class `c` (44_sweep_envelope_select.md R252 to R255). -/
def selectOp : EnvClass → Byte → Instr
  | .vol, k => .envVolume k
  | .note, k => .envNote k
  | .timb, k => .envTimbre k
  | .pitch, k => .envPitch k

/-- `n` sustain ticks of a voice in a row: none when one of them is not a sustain tick (40_interpreter_tick.md R153). -/
def Rom.sustainTicks (r : Rom) : Nat → Voice → Option Voice
  | 0, vc => some vc
  | n + 1, vc =>
    match r.tickFront vc with
    | .ok (.over vc') => Rom.sustainTicks r n vc'
    | _ => none

/-- `n` calls of `EnvStep` in a row (45_sequence_stepper.md R277). -/
def Rom.envSteps (r : Rom) : Nat → Env → Except Fault Env
  | 0, e => .ok e
  | n + 1, e =>
    match r.envStep e with
    | .ok e' => Rom.envSteps r n e'
    | .error f => .error f

/-- `n` steps of the block. -/
def run (n : Nat) (s : State) : Host.Outcome State Fault Refusal := Sys2Proof.core.run n s

/-- A TickEvent of voice `v` alone begins. -/
def State.tickOf (s : State) (v : Nat) : State := { s with engine := .between [v] }

/-- The whole tick of voice `v` leads from `s` to `t`: the steps from the start of that tick, in a TickEvent of that
voice alone, up to the first state in which no tick runs (40_interpreter_tick.md R150). -/
def State.runsTick (s : State) (v : Nat) (t : State) : Prop :=
  ∃ n, run n (s.tickOf v) = .next t ∧ t.engine = .between [] ∧
    ∀ m, m < n → ∀ u, run m (s.tickOf v) = .next u → u.engine ≠ .between []

end Sys2Proof.Machine
end

