-- ==== Sys2Proof/Certificates/Slice0/Obligations.lean ====
section
/-! DEFINITION. The statements for the provers. A statement about an instruction gives the whole next state as an update
of the old one: what the update does not name is unchanged, every byte of every stream and of the sequence memory
included (`MemoryIsNeverWritten` says that of every instruction through the reads themselves). -/

open Sys2Proof Sys2Proof.Machine

/-! ### Encoding -/

/-- 30_encoding.md R110 to R115: decoding the bytes of a well-formed instruction, in either byte order and whatever
follows, gives it back and leaves what follows. -/
def Obligations.DecodeInvertsEncode : Prop :=
  ∀ (o : WideOrder) (i : Instr) (rest : List Byte), i.wf = true → decode o (encode o i ++ rest) = .ok (i, rest)

/-- 30_encoding.md R113, R120, R124: what decodes is well-formed, and its bytes are its one encoding. -/
def Obligations.EncodeInvertsDecode : Prop :=
  ∀ (o : WideOrder) (bs : List Byte) (i : Instr) (rest : List Byte),
    decode o bs = .ok (i, rest) → i.wf = true ∧ bs = encode o i ++ rest

/-- 30_encoding.md R112: the first byte alone fixes how many bytes an instruction has, and a W flag with neither D nor Q
has no other effect. -/
def Obligations.FirstByteFixesLength : Prop :=
  (∀ (o : WideOrder) (b : Byte) (bs : List Byte) (i : Instr) (rest : List Byte),
    decode o (b :: bs) = .ok (i, rest) →
      ∃ n : Nat, (b :: bs).length = n + rest.length ∧ instrLength b = some n ∧
        (b.toNat ∈ [0x00, 0x80, 0x82, 0x88, 0x89, 0x8e, 0x8f] → n = 1) ∧
        (b.toNat ∈ [0x81, 0x83, 0x85, 0x87, 0x8a, 0x8b, 0x8c, 0x8d, 0x91, 0x92, 0x93, 0x94] → n = 2) ∧
        (b.toNat ∈ [0x84, 0x86, 0x90] → n = 3) ∧
        (b.toNat < 0x80 → b ≠ 0 →
          n = 1 + (if b.getLsbD 4 then (if b.getLsbD 6 then 2 else 1) else 0)
                + (if b.getLsbD 5 then (if b.getLsbD 6 then 2 else 1) else 0))) ∧
  (∀ (n : Nat) (i j : Instr) (s : State),
    noteOf n { wide := true, dur := none, quant := none } = some i →
    noteOf n { wide := false, dur := none, quant := none } = some j → exec i s = exec j s)

/-- 30_encoding.md R113, R119: exactly the 130 listed first bytes are illegal. -/
def Obligations.IllegalFirstBytes : Prop :=
  (∀ (o : WideOrder) (b : Byte) (bs : List Byte),
    (decode o (b :: bs) = .error (.unknownOpcode b) ↔
      (b.toNat < 0x80 ∧ b ≠ 0 ∧ b.toNat % 16 ∈ [0, 14, 15]) ∨ 0x95 ≤ b.toNat) ∧
    (instrLength b = none ↔ (b.toNat < 0x80 ∧ b ≠ 0 ∧ b.toNat % 16 ∈ [0, 14, 15]) ∨ 0x95 ≤ b.toNat)) ∧
  ((List.range 256).filter fun n => (instrLength (BitVec.ofNat 8 n)).isNone).length = 130

/-- Words written out from 30_encoding.md R110, R111, R114 and R117 decode to the instructions they stand for: END, the six
control opcodes of format F0, a NOTE of each of the eight flag settings (those with a two-byte operand in both byte
orders), REST, and an opcode of each of the formats FU8, FU16 (in both byte orders), FS8 and FSW. -/
def Obligations.WrittenOutWordsDecode : Prop :=
  (decode .le [0x00] = .ok (.endStream, []) ∧
    decode .le [0x80] = .ok (.trackLoop, []) ∧
    decode .le [0x82] = .ok (.loopEnd, []) ∧
    decode .le [0x88] = .ok (.octaveUp, []) ∧
    decode .le [0x89] = .ok (.octaveDown, []) ∧
    decode .le [0x8e] = .ok (.volumeUp, []) ∧
    decode .le [0x8f] = .ok (.volumeDown, [])) ∧
  (decode .le [0x0c] = .ok (.noteB { wide := false, dur := none, quant := none }, []) ∧
    decode .le [0x4c] = .ok (.noteB { wide := true, dur := none, quant := none }, []) ∧
    decode .le [0x1a, 0x08] = .ok (.noteA { wide := false, dur := some 8, quant := none }, []) ∧
    decode .le [0x2a, 0x03] = .ok (.noteA { wide := false, dur := none, quant := some 3 }, []) ∧
    decode .le [0x31, 0x08, 0x03] = .ok (.noteC { wide := false, dur := some 8, quant := some 3 }, [])) ∧
  (decode .le [0x52, 0x04, 0x01] = .ok (.noteCS { wide := true, dur := some 260, quant := none }, []) ∧
    decode .be [0x52, 0x04, 0x01] = .ok (.noteCS { wide := true, dur := some 1025, quant := none }, []) ∧
    decode .le [0x63, 0x04, 0x01] = .ok (.noteD { wide := true, dur := none, quant := some 260 }, []) ∧
    decode .be [0x63, 0x04, 0x01] = .ok (.noteD { wide := true, dur := none, quant := some 1025 }, []) ∧
    decode .le [0x71, 0x04, 0x00, 0x02, 0x00] = .ok (.noteC { wide := true, dur := some 4, quant := some 2 }, []) ∧
    decode .be [0x71, 0x04, 0x00, 0x02, 0x00] = .ok (.noteC { wide := true, dur := some 1024, quant := some 512 }, [])) ∧
  (decode .le [0x1d, 0x02] = .ok (.rest { wide := false, dur := some 2, quant := none }, []) ∧
    decode .le [0x81, 0x03] = .ok (.loopStart 3, []) ∧
    decode .le [0x84, 0x2c, 0x01] = .ok (.noteLenW 300, []) ∧
    decode .be [0x84, 0x2c, 0x01] = .ok (.noteLenW 11265, []) ∧
    decode .le [0x8a, 0xfe] = .ok (.transpose (-2), []) ∧
    decode .le [0x90, 0x04, 0xf6] = .ok (.pitchSweep 4 (-10), []) ∧
    decode .le [0x94, 0x03] = .ok (.envPitch 3, []))

/-! ### The decode pass -/

/-- 40_interpreter_tick.md R155: when the bytes at the cursor are those of a well-formed instruction and lie within the
stream, a step of the decode pass is that instruction's execution, and nothing more. -/
def Obligations.StepRunsDecodedInstruction : Prop :=
  ∀ (s : State) (p : Pass) (vc : Voice) (m : Memory) (i : Instr),
    InPass s p vc → vc.stream = some m → i.wf = true →
    vc.cursor.toNat + (encode s.deploy.wideOrder i).length ≤ vc.len.toNat →
    (∀ (j : Nat) (b : Byte), (encode s.deploy.wideOrder i)[j]? = some b → m.read (vc.cursor.toNat + j) = b) →
      step s = exec i s

/-- 40_interpreter_tick.md R155 and 60_exceptions.md R324, checks 1 to 3 in their order: no byte left, an illegal first
byte, an instruction that runs past the declared length. -/
def Obligations.FetchChecksInOrder : Prop :=
  ∀ (s : State) (p : Pass) (vc : Voice) (m : Memory), InPass s p vc → vc.stream = some m →
    (vc.len.toNat ≤ vc.cursor.toNat → step s = .next (s.ticked p (vc.stopped .streamBoundsExceeded))) ∧
    (vc.cursor.toNat < vc.len.toNat → instrLength (m.read vc.cursor.toNat) = none →
      step s = .next (s.ticked p (vc.stopped .unknownOpcode))) ∧
    (vc.cursor.toNat < vc.len.toNat → ∀ n, instrLength (m.read vc.cursor.toNat) = some n →
      vc.len.toNat < vc.cursor.toNat + n → step s = .next (s.ticked p (vc.stopped .streamBoundsExceeded)))

/-- 60_exceptions.md R322, R323: whether the fetch or an instruction ends the tick with an error, it writes `err`, the
three flags and the tick result, and nothing else: the cursor, the frames, the registers, the envelopes and the other
voices are as before it. -/
def Obligations.ErrorsArePrecise : Prop :=
  ∀ (i : Instr) (s t : State) (p : Pass) (vc vc' : Voice) (k : ErrKind), InPass s p vc →
    (exec i s = .next t ∨ step s = .next t) →
    t.engine = .between p.todo → t.voices[p.voice]? = some vc' → vc'.result.error = some k →
      t = s.ticked p (vc.stopped k)

/-- 40_interpreter_tick.md R157: every decode pass ends. -/
def Obligations.EveryDecodePassEnds : Prop :=
  ∀ (s : State) (p : Pass), s.inv → s.engine = .pass p →
    ∃ (n : Nat) (t : State), run n s = .next t ∧ t.engine = .between p.todo

/-! ### END, NOTE and REST -/

/-- 41_note_and_end.md R180, R181: END finishes the voice, or restarts at the track loop point once per pass, or raises
EmptyTrackLoop. -/
def Obligations.EndFinishesOrRestarts : Prop :=
  ∀ (s : State) (p : Pass) (vc : Voice) (o : WideOrder) (rest : List Byte), InPass s p vc →
    decode o (0x00 :: rest) = .ok (.endStream, rest) ∧
    (vc.tlpSet = false →
      exec .endStream s = .next (s.ticked p
        { vc with
          finished := true, playing := false, gate := false,
          pending := vc.pending ++ [.gate false], result := { active := false, error := none } })) ∧
    (vc.tlpSet = true → p.restarted = false →
      exec .endStream s =
        .next { s.continues p { vc with cursor := vc.tlp } with engine := .pass { p with restarted := true } }) ∧
    (vc.tlpSet = true → p.restarted = true →
      exec .endStream s = .next (s.ticked p (vc.stopped .emptyTrackLoop)))

/-- 41_note_and_end.md R183, for the twelve NOTE opcodes: every selected envelope is restarted and stepped, the counters,
flags and sweep are loaded, and `freq`, `amp` and `pw` are computed from the new values. The premise on the envelopes is
10_state.md R48, which `InvariantIsKept` covers. -/
def Obligations.NoteStartsTheNote : Prop :=
  ∀ (s : State) (p : Pass) (vc : Voice) (semi : Fin 12) (a : NoteArgs) (i : Instr),
    InPass s p vc → noteOf (semi.val + 1) a = some i → s.rom.envsOk vc.env →
    (∀ o : WideOrder, ∃ b : Byte, (encode o i)[0]? = some b ∧
      b.toNat = semi.val + 1 + (if a.dur.isSome then 16 else 0) + (if a.quant.isSome then 32 else 0)
        + (if a.wide then 64 else 0)) ∧
    ∃ (es : Envs) (f g w : Int) (freq pw : Word) (amp : Byte),
      (∀ c : EnvClass,
        if (vc.env.get c).sel then
          s.rom.envStep { vc.env.get c with pos := 0, rel := false, val := 0 } = .ok (es.get c)
        else es.get c = vc.env.get c) ∧
      f = (s.rom.noteFreq (12 * (vc.octave.toNat : Int) + (semi.val : Int) + vc.transpose.toInt
              + (if es.note.sel then es.note.val.toInt else 0)) : Int)
            + vc.detune.toInt + (if es.pitch.sel then es.pitch.val.toInt else 0) ∧
      g = (vc.volume.toNat : Int) + (if es.vol.sel then es.vol.val.toInt else 0) ∧
      w = vc.timbre.toInt + (if es.timb.sel then es.timb.val.toInt else 0) ∧
      (freq.toNat : Int) = clamp f 0 65535 ∧
      s.rom.ampTable[(clamp g 0 15).toNat]? = some amp ∧
      pw.toInt = 256 * clamp w (-128) 127 ∧
      exec i s = .next (s.ticked p
        { vc with
          cursor := vc.cursor + BitVec.ofNat 16 a.length
          nlenC := a.dur.getD vc.noteLen
          qlenC := a.quant.getD vc.quantLen
          semi := semi
          playing := true
          gate := true
          env := es
          sweepRem := vc.sweepLen
          sweepAcc := 0
          freq := freq
          amp := amp
          pw := pw
          pending := vc.pending ++ [.gate true, .freq freq, .amp amp, .pw pw]
          result := { active := !vc.finished, error := none } })

/-- 41_note_and_end.md R184: REST loads the note counter, clears the quantization counter and the two flags, discards a
quantization operand and touches nothing else. -/
def Obligations.RestSilences : Prop :=
  ∀ (s : State) (p : Pass) (vc : Voice) (a : NoteArgs), InPass s p vc →
    (∀ o : WideOrder, ∃ b : Byte, (encode o (.rest a))[0]? = some b ∧
      b.toNat = 13 + (if a.dur.isSome then 16 else 0) + (if a.quant.isSome then 32 else 0)
        + (if a.wide then 64 else 0)) ∧
    exec (.rest a) s = .next (s.ticked p
      { vc with
        cursor := vc.cursor + BitVec.ofNat 16 a.length
        nlenC := a.dur.getD vc.noteLen
        qlenC := 0
        playing := false
        gate := false
        pending := vc.pending ++ [.gate false]
        result := { active := !vc.finished, error := none } })

/-! ### Flow control -/

/-- 42_flow_control.md R200. -/
def Obligations.TrackLoopMarksNextInstruction : Prop :=
  ∀ (s : State) (p : Pass) (vc : Voice) (o : WideOrder) (rest : List Byte), InPass s p vc →
    decode o (0x80 :: rest) = .ok (.trackLoop, rest) ∧
    exec .trackLoop s = .next (s.continues p
      { vc with tlp := vc.cursor + 1, tlpSet := true, cursor := vc.cursor + 1 })

/-- 42_flow_control.md R201: a frame is pushed, or with four frames open LoopStackOverflow is raised. -/
def Obligations.LoopStartPushesFrame : Prop :=
  ∀ (s : State) (p : Pass) (vc : Voice) (u : Byte) (o : WideOrder) (rest : List Byte), InPass s p vc →
    decode o (0x81 :: u :: rest) = .ok (.loopStart u, rest) ∧
    (vc.lsp.val < 4 →
      ∃ vc' : Voice, exec (.loopStart u) s = .next (s.continues p vc') ∧
        vc' = { vc with ls := vc'.ls, lsp := vc'.lsp, cursor := vc.cursor + 2 } ∧
        vc'.lsp.val = vc.lsp.val + 1 ∧
        ∀ j : Fin 4, vc'.ls[j] = if j.val = vc.lsp.val then { start := vc.cursor + 2, rem := u } else vc.ls[j]) ∧
    (vc.lsp.val = 4 → exec (.loopStart u) s = .next (s.ticked p (vc.stopped .loopStackOverflow)))

/-- 42_flow_control.md R202: with `rem` at most 1 the frame is discarded, else the body runs again; with no frame open
LoopStackUnderflow is raised. -/
def Obligations.LoopEndBranchesOrPops : Prop :=
  ∀ (s : State) (p : Pass) (vc : Voice) (o : WideOrder) (rest : List Byte), InPass s p vc →
    decode o (0x82 :: rest) = .ok (.loopEnd, rest) ∧
    (∀ t : Fin 4, vc.lsp.val = t.val + 1 →
      (vc.ls[t].rem.toNat ≤ 1 →
        ∃ vc' : Voice, exec .loopEnd s = .next (s.continues p vc') ∧
          vc' = { vc with lsp := vc'.lsp, cursor := vc.cursor + 1 } ∧ vc'.lsp.val = t.val) ∧
      (2 ≤ vc.ls[t].rem.toNat →
        ∃ vc' : Voice, exec .loopEnd s = .next (s.continues p vc') ∧
          vc' = { vc with ls := vc'.ls, cursor := vc.ls[t].start } ∧
          vc'.ls[t].start = vc.ls[t].start ∧ vc'.ls[t].rem.toNat = vc.ls[t].rem.toNat - 1 ∧
          ∀ j : Fin 4, j ≠ t → vc'.ls[j] = vc.ls[j])) ∧
    (vc.lsp.val = 0 → exec .loopEnd s = .next (s.ticked p (vc.stopped .loopStackUnderflow)))

/-! ### The register-setting opcodes -/

/-- 43_register_set.md R220, R222. -/
def Obligations.LengthsSetTheirRegister : Prop :=
  ∀ (s : State) (p : Pass) (vc : Voice) (u : Byte) (o : WideOrder) (rest : List Byte), InPass s p vc →
    ∃ x : Word, x.toNat = u.toNat ∧
      decode o (0x83 :: u :: rest) = .ok (.noteLen u, rest) ∧
      decode o (0x85 :: u :: rest) = .ok (.quantLen u, rest) ∧
      exec (.noteLen u) s = .next (s.continues p { vc with noteLen := x, cursor := vc.cursor + 2 }) ∧
      exec (.quantLen u) s = .next (s.continues p { vc with quantLen := x, cursor := vc.cursor + 2 })

/-- 43_register_set.md R221, R223, with the byte order of 30_encoding.md R117. -/
def Obligations.WideLengthsFollowByteOrder : Prop :=
  ∀ (s : State) (p : Pass) (vc : Voice) (o : WideOrder) (b0 b1 : Byte) (rest : List Byte), InPass s p vc →
    ∃ w : Word,
      w.toNat = (match o with
        | .le => b0.toNat + 256 * b1.toNat
        | .be => 256 * b0.toNat + b1.toNat) ∧
      decode o (0x84 :: b0 :: b1 :: rest) = .ok (.noteLenW w, rest) ∧
      decode o (0x86 :: b0 :: b1 :: rest) = .ok (.quantLenW w, rest) ∧
      exec (.noteLenW w) s = .next (s.continues p { vc with noteLen := w, cursor := vc.cursor + 3 }) ∧
      exec (.quantLenW w) s = .next (s.continues p { vc with quantLen := w, cursor := vc.cursor + 3 })

/-- 43_register_set.md R224 to R226: the octave saturates at 7 and at 0. -/
def Obligations.OctaveSaturates : Prop :=
  ∀ (s : State) (p : Pass) (vc : Voice) (u : Byte) (o : WideOrder) (rest : List Byte), InPass s p vc →
    decode o (0x87 :: u :: rest) = .ok (.octave u, rest) ∧ decode o (0x88 :: rest) = .ok (.octaveUp, rest) ∧
    decode o (0x89 :: rest) = .ok (.octaveDown, rest) ∧
    (∃ x : BitVec 3, x.toNat = min u.toNat 7 ∧
      exec (.octave u) s = .next (s.continues p { vc with octave := x, cursor := vc.cursor + 2 })) ∧
    (∃ x : BitVec 3, x.toNat = min (vc.octave.toNat + 1) 7 ∧
      exec .octaveUp s = .next (s.continues p { vc with octave := x, cursor := vc.cursor + 1 })) ∧
    (∃ x : BitVec 3, (x.toNat : Int) = max ((vc.octave.toNat : Int) - 1) 0 ∧
      exec .octaveDown s = .next (s.continues p { vc with octave := x, cursor := vc.cursor + 1 }))

/-- 43_register_set.md R227 to R229: the operand byte, in two's complement, replaces the register. -/
def Obligations.ModifiersAreReplaced : Prop :=
  ∀ (s : State) (p : Pass) (vc : Voice) (b : Byte) (o : WideOrder) (rest : List Byte), InPass s p vc →
    ∃ x : Byte, x.toInt = b.toInt ∧
      decode o (0x8a :: b :: rest) = .ok (.transpose x, rest) ∧
      decode o (0x8b :: b :: rest) = .ok (.detune x, rest) ∧
      decode o (0x8c :: b :: rest) = .ok (.timbre x, rest) ∧
      exec (.transpose x) s = .next (s.continues p { vc with transpose := x, cursor := vc.cursor + 2 }) ∧
      exec (.detune x) s = .next (s.continues p { vc with detune := x, cursor := vc.cursor + 2 }) ∧
      exec (.timbre x) s = .next (s.continues p { vc with timbre := x, cursor := vc.cursor + 2 })

/-- 43_register_set.md R230 to R232: the volume saturates at 15 and at 0. -/
def Obligations.VolumeSaturates : Prop :=
  ∀ (s : State) (p : Pass) (vc : Voice) (u : Byte) (o : WideOrder) (rest : List Byte), InPass s p vc →
    decode o (0x8d :: u :: rest) = .ok (.volume u, rest) ∧ decode o (0x8e :: rest) = .ok (.volumeUp, rest) ∧
    decode o (0x8f :: rest) = .ok (.volumeDown, rest) ∧
    (∃ x : BitVec 4, x.toNat = min u.toNat 15 ∧
      exec (.volume u) s = .next (s.continues p { vc with volume := x, cursor := vc.cursor + 2 })) ∧
    (∃ x : BitVec 4, x.toNat = min (vc.volume.toNat + 1) 15 ∧
      exec .volumeUp s = .next (s.continues p { vc with volume := x, cursor := vc.cursor + 1 })) ∧
    (∃ x : BitVec 4, (x.toNat : Int) = max ((vc.volume.toNat : Int) - 1) 0 ∧
      exec .volumeDown s = .next (s.continues p { vc with volume := x, cursor := vc.cursor + 1 }))

/-- 10_state.md R33, R34, R41, R42, R45: which instructions can change each register, the track loop point, the loop
frames, and each envelope's selection and release flag. What other than an instruction changes a release flag
(`QuantizationCountdown`, `TickSustainsOrDecodes`) is not spoken of here. -/
def Obligations.RegistersHaveTheirWriters : Prop :=
  ∀ (i : Instr) (s t : State) (p : Pass) (vc vc' : Voice), InPass s p vc → exec i s = .next t →
    t.voices[p.voice]? = some vc' →
      (vc'.noteLen ≠ vc.noteLen → (∃ u, i = .noteLen u) ∨ ∃ w, i = .noteLenW w) ∧
      (vc'.quantLen ≠ vc.quantLen → (∃ u, i = .quantLen u) ∨ ∃ w, i = .quantLenW w) ∧
      (vc'.octave ≠ vc.octave → (∃ u, i = .octave u) ∨ i = .octaveUp ∨ i = .octaveDown) ∧
      (vc'.volume ≠ vc.volume → (∃ u, i = .volume u) ∨ i = .volumeUp ∨ i = .volumeDown) ∧
      (vc'.transpose ≠ vc.transpose → ∃ x, i = .transpose x) ∧
      (vc'.detune ≠ vc.detune → ∃ x, i = .detune x) ∧
      (vc'.timbre ≠ vc.timbre → ∃ x, i = .timbre x) ∧
      (vc'.sweepLen ≠ vc.sweepLen ∨ vc'.sweepStep ≠ vc.sweepStep → ∃ len step, i = .pitchSweep len step) ∧
      (vc'.tlpSet ≠ vc.tlpSet ∨ vc'.tlp ≠ vc.tlp → i = .trackLoop) ∧
      (vc'.lsp ≠ vc.lsp ∨ vc'.ls ≠ vc.ls → (∃ u, i = .loopStart u) ∨ i = .loopEnd) ∧
      (vc'.semi ≠ vc.semi → ∃ n a, n < 13 ∧ noteOf n a = some i) ∧
      ∀ c : EnvClass,
        ((vc'.env.get c).sel ≠ (vc.env.get c).sel ∨ (vc'.env.get c).idx ≠ (vc.env.get c).idx → ∃ k, i = selectOp c k) ∧
        ((vc'.env.get c).rel ≠ (vc.env.get c).rel →
          (∃ k, i = selectOp c k) ∨ ∃ n a, n < 13 ∧ noteOf n a = some i)

/-- 40_interpreter_tick.md R159: a control opcode that does not raise an error writes none of `gate`, `freq`, `amp` and
`pw`, neither in the tick domain nor where the sample domain reads them. -/
def Obligations.ControlOpcodesAreSilent : Prop :=
  ∀ (i : Instr) (s t : State) (p q : Pass) (vc vc' : Voice), isControl i = true → InPass s p vc →
    exec i s = .next t → t.engine = .pass q → t.voices[p.voice]? = some vc' →
      vc'.registers = vc.registers ∧ vc'.shown = vc.shown ∧ vc'.pending = vc.pending

/-! ### Pitch sweep and envelope selection -/

/-- 44_sweep_envelope_select.md R250: the settings are stored; the sounding note's ramp is not changed. -/
def Obligations.PitchSweepSetsTheSweep : Prop :=
  ∀ (s : State) (p : Pass) (vc : Voice) (len stp : Byte) (o : WideOrder) (rest : List Byte), InPass s p vc →
    decode o (0x90 :: len :: stp :: rest) = .ok (.pitchSweep len stp, rest) ∧
    exec (.pitchSweep len stp) s =
      .next (s.continues p { vc with sweepLen := len, sweepStep := stp, cursor := vc.cursor + 3 })

/-- 44_sweep_envelope_select.md R251: `k` calls of SweepStep from the start of a note move the accumulated ramp by
`step` for each of the first `sweep_len` of them, without wrapping. -/
def Obligations.SweepRampIsLinear : Prop :=
  ∀ (vc : Voice) (k : Nat), vc.sweepRem = vc.sweepLen → vc.sweepAcc = 0 →
    ∃ (acc : Word) (rem : Byte),
      Voice.sweepTick^[k] vc = { vc with sweepAcc := acc, sweepRem := rem } ∧
      acc.toInt = (min k vc.sweepLen.toNat : Nat) * vc.sweepStep.toInt ∧ rem.toNat = vc.sweepLen.toNat - k

/-- 44_sweep_envelope_select.md R252 to R255: a valid sequence is selected and the instance restarted; an invalid one
raises InvalidEnvelopeIndex. -/
def Obligations.EnvelopeSelection : Prop :=
  ∀ (s : State) (p : Pass) (vc : Voice) (k : Byte) (o : WideOrder) (rest : List Byte), InPass s p vc →
    decode o (0x91 :: k :: rest) = .ok (.envVolume k, rest) ∧ decode o (0x92 :: k :: rest) = .ok (.envNote k, rest) ∧
    decode o (0x93 :: k :: rest) = .ok (.envTimbre k, rest) ∧ decode o (0x94 :: k :: rest) = .ok (.envPitch k, rest) ∧
    (s.rom.seqValid k = true →
      exec (.envVolume k) s = .next (s.continues p
        { vc with
          env := { vc.env with vol := { sel := true, idx := k, pos := 0, rel := false, val := 0 } }
          cursor := vc.cursor + 2 }) ∧
      exec (.envNote k) s = .next (s.continues p
        { vc with
          env := { vc.env with note := { sel := true, idx := k, pos := 0, rel := false, val := 0 } }
          cursor := vc.cursor + 2 }) ∧
      exec (.envTimbre k) s = .next (s.continues p
        { vc with
          env := { vc.env with timb := { sel := true, idx := k, pos := 0, rel := false, val := 0 } }
          cursor := vc.cursor + 2 }) ∧
      exec (.envPitch k) s = .next (s.continues p
        { vc with
          env := { vc.env with pitch := { sel := true, idx := k, pos := 0, rel := false, val := 0 } }
          cursor := vc.cursor + 2 })) ∧
    (s.rom.seqValid k = false →
      ∀ i ∈ [Instr.envVolume k, .envNote k, .envTimbre k, .envPitch k],
        exec i s = .next (s.ticked p (vc.stopped .invalidEnvelopeIndex)))

/-! ### The sequence stepper -/

/-- 45_sequence_stepper.md R273, R274: `SeqValid(k)` in the spec's own words, by index. -/
def Obligations.SequenceValidation : Prop :=
  ∀ (r : Rom) (k : Byte),
    r.seqValid k = true ↔
      k.toNat < r.seqLen.length ∧
      ∃ e : Nat, r.seqRead k e = some 0x80 ∧ (∀ i, i < e → r.seqRead k i ≠ some 0x80) ∧
        (∀ i j, i < e → j < e → r.seqRead k i = some 0x81 → r.seqRead k j = some 0x81 → i = j) ∧
        (∀ i j, i < e → j < e → r.seqRead k i = some 0x82 → r.seqRead k j = some 0x82 → i = j) ∧
        ((∃ i, i < e ∧ r.seqRead k i = some 0x81) →
          ∃ i x, i < e ∧ r.seqRead k i = some x ∧ x ≠ 0x80 ∧ x ≠ 0x81 ∧ x ≠ 0x82 ∧
            ∀ j, j < e → r.seqRead k j = some 0x82 → i < j)

/-- 45_sequence_stepper.md R277: EnvStep by the byte it stands at: a loop marker is skipped, a release marker loops back
or is passed, the end marker loops back or holds, a data byte is yielded. -/
def Obligations.EnvStepByMarker : Prop :=
  ∀ (r : Rom) (e : Env) (x : Byte), r.envOk e → e.sel = true → r.seqRead e.idx e.pos.toNat = some x →
    (x = 0x81 → r.envStep e = r.envStep { e with pos := e.pos + 1 }) ∧
    (x = 0x82 → e.rel = false → r.hasLoop e.idx = true → r.envStep e = r.envStep { e with pos := 0 }) ∧
    (x = 0x82 → (e.rel = true ∨ r.hasLoop e.idx = false) →
      r.envStep e = r.envStep { e with rel := true, pos := e.pos + 1 }) ∧
    (x = 0x80 → e.rel = false → r.hasLoop e.idx = true → r.envStep e = r.envStep { e with pos := 0 }) ∧
    (x = 0x80 → (e.rel = true ∨ r.hasLoop e.idx = false) → r.envStep e = .ok e) ∧
    (x ≠ 0x80 → x ≠ 0x81 → x ≠ 0x82 → r.envStep e = .ok { e with val := x, pos := e.pos + 1 })

/-- 45_sequence_stepper.md R278: on a validated sequence EnvStep ends within `2 · SEQ_LEN[k]` reads, without a fault, and
leaves the instance on that sequence at or before its end marker. -/
def Obligations.EnvStepEnds : Prop :=
  ∀ (r : Rom) (e : Env) (n : Byte), r.envOk e → e.sel = true → r.seqLen[e.idx.toNat]? = some n →
    ∃ e' : Env, r.envTurns (2 * n.toNat) e = .ok e' ∧ r.envStep e = .ok e' ∧ e'.sel = true ∧ e'.idx = e.idx ∧
      r.envOk e'

/-- 45_sequence_stepper.md R279: at the end marker, released or without a loop marker, EnvStep holds for ever. -/
def Obligations.EnvStepHoldsAtEnd : Prop :=
  ∀ (r : Rom) (e : Env) (n : Nat), r.seqRead e.idx e.pos.toNat = some 0x80 →
    (e.rel = true ∨ r.hasLoop e.idx = false) → r.envSteps n e = .ok e

/-- 45_sequence_stepper.md R280: release, and the jump to the tail. -/
def Obligations.ReleaseJumpsToTail : Prop :=
  ∀ (r : Rom) (e : Env), r.seqValid e.idx = true →
    (e.rel = true → r.envRelease e = e) ∧
    (e.rel = false → ∀ i, i < r.endIdx e.idx → r.seqRead e.idx i = some 0x82 → e.pos.toNat ≤ i →
      ∃ q : Byte, q.toNat = i + 1 ∧ r.envRelease e = { e with rel := true, pos := q }) ∧
    (e.rel = false →
      (∀ i, i < r.endIdx e.idx → r.seqRead e.idx i = some 0x82 → i < e.pos.toNat) →
      r.envRelease e = { e with rel := true })

/-- 45_sequence_stepper.md R281: the release law of `[2, 4, LOOP, 6, 8, REL, 10, END]`. -/
def Obligations.ReleaseLaw : Prop :=
  ∀ (r : Rom) (e : Env), r.seqBytes e.idx = [0x02, 0x04, 0x81, 0x06, 0x08, 0x82, 0x0a, 0x80] →
    ∀ n : Nat, ∃ en : Env, r.envSteps n e.restart = .ok en ∧
      (∀ m : Nat, n = m + 1 → en.val = (if m % 4 = 0 then 2 else if m % 4 = 1 then 4 else if m % 4 = 2 then 6 else 8)) ∧
      ∀ k : Nat, ∃ ek : Env, r.envSteps (k + 1) (r.envRelease en) = .ok ek ∧ ek.val = 10

/-! ### The tick -/

/-- 40_interpreter_tick.md R151: a finished voice's tick changes nothing; its result is inactive, without an error. -/
def Obligations.FinishedVoiceIdles : Prop :=
  ∀ (s : State) (v : Nat) (todo : List Nat) (vc : Voice), s.engine = .between (v :: todo) →
    s.voices[v]? = some vc → vc.finished = true →
      step s = .next
        { s with
          voices := s.voices.set v { vc with result := { active := false, error := none } }, engine := .between todo }

/-- 40_interpreter_tick.md R152: the quantization countdown. -/
def Obligations.QuantizationCountdown : Prop :=
  ∀ (r : Rom) (vc : Voice),
    (vc.qlenC.toNat = 0 → r.quantize vc = vc) ∧
    (2 ≤ vc.qlenC.toNat → ∃ q : Word, q.toNat = vc.qlenC.toNat - 1 ∧ r.quantize vc = { vc with qlenC := q }) ∧
    (vc.qlenC.toNat = 1 → ∃ es : Envs,
      (∀ c : EnvClass, es.get c =
        if vc.playing = true ∧ (vc.env.get c).sel = true then r.envRelease (vc.env.get c) else vc.env.get c) ∧
      r.quantize vc = { vc with qlenC := 0, gate := false, pending := vc.pending ++ [.gate false], env := es })

/-- 40_interpreter_tick.md R153, R154: after quantization, a counter of at most 1 starts a decode pass; above it the tick
is a sustain tick, which steps the selected envelopes and the sweep of a playing voice and publishes while the gate is
on. The premise on the envelopes is 10_state.md R48. -/
def Obligations.TickSustainsOrDecodes : Prop :=
  ∀ (s : State) (v : Nat) (todo : List Nat) (vc q : Voice), s.engine = .between (v :: todo) →
    s.voices[v]? = some vc → vc.finished = false → q = s.rom.quantize vc →
    (q.nlenC.toNat ≤ 1 →
      step s = .next
        { s with
          voices := s.voices.set v { q with nlenC := 0 }
          engine := .pass { voice := v, restarted := false, todo := todo } }) ∧
    (2 ≤ q.nlenC.toNat → q.playing = false →
      ∃ n : Word, n.toNat = q.nlenC.toNat - 1 ∧
        step s = .next
          { s with
            voices := s.voices.set v { q with nlenC := n, result := { active := true, error := none } }
            engine := .between todo }) ∧
    (2 ≤ q.nlenC.toNat → q.playing = true → s.rom.envsOk q.env →
      ∃ (n : Word) (es : Envs) (w : Voice), n.toNat = q.nlenC.toNat - 1 ∧
        (∀ c : EnvClass,
          if (q.env.get c).sel then s.rom.envStep (q.env.get c) = .ok (es.get c) else es.get c = q.env.get c) ∧
        w = Voice.sweepTick { q with nlenC := n, env := es } ∧
        step s = .next
          { s with
            voices := s.voices.set v
              { (if q.gate then s.rom.publish w else w) with result := { active := true, error := none } }
            engine := .between todo })

/-- 41_note_and_end.md R185, with 40_interpreter_tick.md R154: from the NOTE on, the gate is on for exactly `Q` ticks,
then off for the other `N − Q`, and the tick after them decodes again. -/
def Obligations.QuantizationLaw : Prop :=
  ∀ (s : State) (p : Pass) (vc : Voice) (n : Nat) (a : NoteArgs) (i : Instr) (N Q : Nat),
    InPass s p vc → 1 ≤ n → n ≤ 12 → noteOf n a = some i → s.rom.envsOk vc.env → vc.finished = false →
    (a.dur.getD vc.noteLen).toNat = N → (a.quant.getD vc.quantLen).toNat = Q → 0 < Q → Q < N →
    ∃ v0 : Voice, exec i s = .next (s.ticked p v0) ∧
      (∀ k, k < N → ∃ vk : Voice, s.rom.sustainTicks k v0 = some vk ∧ vk.gate = decide (k < Q)) ∧
      ∃ vl vf : Voice, s.rom.sustainTicks (N - 1) v0 = some vl ∧ s.rom.tickFront vl = .ok (.fetches vf)

/-- 40_interpreter_tick.md R158 and 70_reset_and_hazards.md R366, R370: a TickEvent waits, one applied write a step,
until no write of the previous tick is pending, and then runs every voice once. That the voices are taken in the order of
their numbers, and the writes in the order of the voices, is the model's choice (log 2, log 4). -/
def Obligations.TickEventWaitsThenRunsEveryVoice : Prop :=
  ∀ (s : State) (rest : List Input), s.engine = .between [] → s.inputs = .tick :: rest →
    ((∀ vc ∈ s.voices, vc.pending = []) →
      step s = .next { s with inputs := rest, engine := .between (List.range s.voices.length) }) ∧
    ((∃ vc ∈ s.voices, vc.pending ≠ []) →
      ∃ (v : Nat) (vc : Voice) (w : OscWrite) (ws : List OscWrite), s.voices[v]? = some vc ∧ vc.pending = w :: ws ∧
        step s = .next { s with voices := s.voices.set v { vc with shown := vc.shown.apply w, pending := ws } })

/-- 60_exceptions.md R330: when a voice's tick is over, its result is active exactly if it is not finished. -/
def Obligations.TickResultIsNotFinished : Prop :=
  ∀ (s t : State) (v : Nat) (todo : List Nat) (vc' : Voice),
    (s.engine = .between (v :: todo) ∨ ∃ p : Pass, s.engine = .pass p ∧ p.voice = v ∧ p.todo = todo) →
    step s = .next t → t.engine = .between todo → t.voices[v]? = some vc' →
      vc'.result.active = !vc'.finished

/-- 60_exceptions.md R320, R331: the codes of the six kinds; when a tick of a voice without an error is over, `err_valid`
is true exactly if the tick raised one, `err_code` is its code and `err` its kind; a later tick reports none and leaves
`err` as it is. -/
def Obligations.ErrorChannelReportsTheTick : Prop :=
  [ErrKind.loopStackOverflow, .loopStackUnderflow, .invalidEnvelopeIndex, .unknownOpcode, .streamBoundsExceeded,
      .emptyTrackLoop].map ErrKind.code = [0, 1, 2, 3, 4, 5] ∧
  ∀ (s t : State) (v : Nat) (todo : List Nat) (vc vc' : Voice), s.voices[v]? = some vc → step s = .next t →
    t.engine = .between todo → t.voices[v]? = some vc' →
    ((s.engine = .between (v :: todo) ∨ ∃ p : Pass, s.engine = .pass p ∧ p.voice = v ∧ p.todo = todo) →
      vc.err = none → (vc'.errValid = true ↔ vc'.err ≠ none) ∧ vc'.errCode = vc'.err.map ErrKind.code) ∧
    (s.engine = .between (v :: todo) → vc'.errValid = false ∧ vc'.errCode = none ∧ vc'.err = vc.err)

/-- 10_state.md R32: a step of a voice's decode pass reads of the voices its own record only, and writes no other. -/
def Obligations.VoicesShareNoState : Prop :=
  ∀ (s s' : State) (p : Pass) (vc : Voice), InPass s p vc → InPass s' p vc → s.deploy = s'.deploy → s.rom = s'.rom →
    (∀ f, step s = .fault f ↔ step s' = .fault f) ∧
    ∀ t, step s = .next t → ∃ (t' : State) (new : Voice), step s' = .next t' ∧ t'.engine = t.engine ∧
      t = { s with voices := s.voices.set p.voice new, engine := t.engine } ∧
      t' = { s' with voices := s'.voices.set p.voice new, engine := t.engine }

/-- 40_interpreter_tick.md R158: the ticks of two voices commute: whatever the order, the state after both is the same. -/
def Obligations.VoiceOrderIsIrrelevant : Prop :=
  ∀ (s t u : State) (v w : Nat), s.engine = .between [] → v ≠ w → s.runsTick v t → t.runsTick w u →
    ∃ t' : State, s.runsTick w t' ∧ t'.runsTick v u

/-! ### Publishing -/

/-- 40_interpreter_tick.md R162: the octave-7 table halved per octave below 7, doubled per octave above it, saturating. -/
def Obligations.NoteFreqByOctave : Prop :=
  ∀ (r : Rom) (o : Int) (semi : Fin 12),
    (o ≤ 7 → r.noteFreq (12 * o + (semi.val : Int)) = r.freqTable[semi].toNat / 2 ^ (7 - o).toNat) ∧
    (7 < o → r.noteFreq (12 * o + (semi.val : Int)) = min (r.freqTable[semi].toNat * 2 ^ (o - 7).toNat) 65535)

/-- 40_interpreter_tick.md R160, R161: what Publish writes, as integers, and that it writes nothing else. -/
def Obligations.PublishFormula : Prop :=
  ∀ (r : Rom) (vc : Voice), ∃ (f g w : Int) (freq pw : Word) (amp : Byte),
    f = (r.noteFreq (12 * (vc.octave.toNat : Int) + (vc.semi.val : Int) + vc.transpose.toInt
            + (if vc.env.note.sel then vc.env.note.val.toInt else 0)) : Int)
          + vc.detune.toInt + (if vc.env.pitch.sel then vc.env.pitch.val.toInt else 0) + vc.sweepAcc.toInt ∧
    g = (vc.volume.toNat : Int) + (if vc.env.vol.sel then vc.env.vol.val.toInt else 0) ∧
    w = vc.timbre.toInt + (if vc.env.timb.sel then vc.env.timb.val.toInt else 0) ∧
    (freq.toNat : Int) = clamp f 0 65535 ∧
    r.ampTable[(clamp g 0 15).toNat]? = some amp ∧
    pw.toInt = 256 * clamp w (-128) 127 ∧
    r.publish vc =
      { vc with
        freq := freq, amp := amp, pw := pw, pending := vc.pending ++ [.freq freq, .amp amp, .pw pw] }

/-! ### The oscillator -/

/-- 46_oscillator.md R300: one sample of a voice; only `phase` and the output change. -/
def Obligations.RenderSampleFollowsTheWave : Prop :=
  ∀ (s : State) (v : Nat) (vc : Voice) (rest : List Input), s.engine = .between [] → s.inputs = .sample v :: rest →
    s.voices[v]? = some vc →
    ∃ ph smp : Word,
      step s = .next { s with voices := s.voices.set v { vc with phase := ph, sample := smp }, inputs := rest } ∧
      ph.toInt = (vc.phase.toInt + (vc.shown.freq.toNat : Int)).bmod 65536 ∧
      smp.toInt =
        if vc.shown.gate then (if vc.shown.pw.toInt ≤ ph.toInt then (vc.shown.amp.toNat : Int) else -(vc.shown.amp.toNat : Int))
        else 0

/-- 46_oscillator.md R301: the phase advances on every sample of its voice, gated or not, and nothing but an Init of the
voice changes it otherwise. -/
def Obligations.PhaseAdvancesOnlyOnSamples : Prop :=
  ∀ (s t : State) (v : Nat) (vc : Voice), s.voices[v]? = some vc → step s = .next t →
    (∃ stream len, s.engine = .between [] ∧ s.inputs.head? = some (.init v stream len)) ∨
    ∃ vc' : Voice, t.voices[v]? = some vc' ∧
      vc'.phase =
        if s.engine = .between [] ∧ s.inputs.head? = some (.sample v) then vc.phase + vc.shown.freq else vc.phase

/-- 46_oscillator.md R302: with an odd phase step held constant and the gate on, of 65536 samples exactly
`32768 − pw` are high. -/
def Obligations.PulseDutyCycle : Prop :=
  ∀ vc : Voice, vc.shown.gate = true → vc.shown.freq.toNat % 2 = 1 → vc.shown.amp ≠ 0 →
    (((List.range 65536).filter fun n =>
      decide ((Voice.renderSample^[n + 1] vc).sample = vc.shown.amp.setWidth 16)).length : Int) =
        32768 - vc.shown.pw.toInt

/-- 70_reset_and_hazards.md R370, 20_memory.md R94: a run over events that apply pending writes, in any order of the
registers, changes the voice's visible registers and pending writes only. Once no write is pending, which is so when each
register was named as often as a write to it was pending, the sample domain reads what the tick domain wrote. -/
def Obligations.AnyWriteOrderEndsAlike : Prop :=
  ∀ (s : State) (v : Nat) (vc : Voice) (order : List OscField) (rest : List Input), s.engine = .between [] →
    s.inputs = order.map (Input.settle v) ++ rest → s.voices[v]? = some vc → vc.oscOk →
    ∃ (shown : Shown) (pending : List OscWrite),
      run order.length s = .next
        { s with inputs := rest, voices := s.voices.set v { vc with shown := shown, pending := pending } } ∧
      (pending = [] → shown = vc.registers) ∧
      ((∀ f : OscField, (vc.pending.map OscWrite.field).count f ≤ order.count f) → pending = [])

/-- 70_reset_and_hazards.md R370: right after a Publish, events that apply pending writes lead to any mix of old and new
among `freq`, `amp` and `pw` where a sample of the voice reads them. -/
def Obligations.EveryTornMixIsReachable : Prop :=
  ∀ (s : State) (v : Nat) (vc : Voice) (rest : List Input) (newFreq newAmp newPw : Bool), vc.pending = [] →
    s.engine = .between [] → s.voices[v]? = some (s.rom.publish vc) →
    ∃ (order : List OscField) (t : State) (vc' : Voice),
      run order.length { s with inputs := order.map (Input.settle v) ++ rest } = .next t ∧ t.inputs = rest ∧
      t.voices[v]? = some vc' ∧
      vc'.shown =
        { gate := vc.shown.gate
          freq := if newFreq then (s.rom.publish vc).freq else vc.shown.freq
          amp := if newAmp then (s.rom.publish vc).amp else vc.shown.amp
          pw := if newPw then (s.rom.publish vc).pw else vc.shown.pw }

/-! ### Init, power-on and the host's duties -/

/-- 70_reset_and_hazards.md R360: the record Init writes; no other voice changes. The premise that no write is pending is
R361's: the voice's tick is over. Of the outputs `result` and `sample`, which are no fields of 10_state.md R30, it says
nothing (log 16). -/
def Obligations.InitWritesTheRecord : Prop :=
  ∀ (s : State) (v : Nat) (vc : Voice) (stream : List Byte) (len : Word) (rest : List Input),
    s.engine = .between [] → s.inputs = .init v stream len :: rest → s.voices[v]? = some vc →
    len.toNat ≤ stream.length → vc.pending = [] →
    ∃ (m : Memory) (result : TickResult) (sample : Word), (∀ (a : Nat) (b : Byte), stream[a]? = some b → m.read a = b) ∧ m.wf = true ∧
      step s = .next
        { s with
          inputs := rest
          voices := s.voices.set v
            { stream := some m, cursor := 0, len := len, finished := false, playing := false, nlenC := 0, qlenC := 0,
              noteLen := s.deploy.resetNoteLen, quantLen := s.deploy.resetQuantLen, semi := 0,
              octave := s.deploy.resetOctave, volume := s.deploy.resetVolume, transpose := 0, detune := 0,
              timbre := 0, sweepLen := 0, sweepStep := 0, sweepRem := 0, sweepAcc := 0, tlpSet := false, tlp := 0,
              lsp := 0, ls := #v[⟨0, 0⟩, ⟨0, 0⟩, ⟨0, 0⟩, ⟨0, 0⟩],
              env := { vol := ⟨false, 0, 0, false, 0⟩, note := ⟨false, 0, 0, false, 0⟩,
                       timb := ⟨false, 0, 0, false, 0⟩, pitch := ⟨false, 0, 0, false, 0⟩ },
              err := none, gate := false, freq := 0, amp := 0, pw := 0, phase := 0, result := result,
              sample := sample, shown := { gate := false, freq := 0, amp := 0, pw := 0 }, pending := [] } }

/-- 70_reset_and_hazards.md R373, 20_memory.md R93: the host actions outside the model have no next state. That they are
refused, and by which name, is the model's choice (log 13). -/
def Obligations.HostDutiesAreRefused : Prop :=
  ∀ (s : State) (v : Nat) (stream : List Byte) (len : Word) (ft : Vector Word 12) (am : Vector Byte 16)
    (seqs : List (List Byte)) (rest : List Input), s.engine = .between [] →
    (s.inputs = .init v stream len :: rest → s.voices.length ≤ v → step s = .refused (.hostVoiceNumber v)) ∧
    (s.inputs = .init v stream len :: rest → v < s.voices.length → stream.length < len.toNat →
      step s = .refused (.hostShortBuffer v)) ∧
    (s.inputs = .sample v :: rest → s.voices.length ≤ v → step s = .refused (.hostVoiceNumber v)) ∧
    (s.inputs = .load ft am seqs :: rest → (∃ vc ∈ s.voices, vc.finished = false) →
      step s = .refused .hostRomInUse)

/-- 70_reset_and_hazards.md R365 step 1: with every voice finished the host can fill the tables and the sequences, and
every byte then reads as supplied. That this is an input of the block is the model's choice (log 13). -/
def Obligations.LoadFillsTheReadOnlyMemories : Prop :=
  ∀ (s : State) (ft : Vector Word 12) (am : Vector Byte 16) (seqs : List (List Byte)) (rest : List Input),
    s.engine = .between [] → s.inputs = .load ft am seqs :: rest → (∀ vc ∈ s.voices, vc.finished = true) →
    seqs.length ≤ 256 → (∀ q ∈ seqs, 1 ≤ q.length ∧ q.length ≤ 255) →
    ∃ r : Rom, step s = .next { s with rom := r, inputs := rest } ∧ r.ok ∧ r.freqTable = ft ∧ r.ampTable = am ∧
      r.seqLen.length = seqs.length ∧
      ∀ (k : Byte) (q : List Byte), seqs[k.toNat]? = some q → r.seqBytes k = q

/-- 70_reset_and_hazards.md R362: at power-on every voice is finished, with the gate off, no error and no stream. -/
def Obligations.PowerOnState : Prop :=
  ∀ (d : Deployment) (r : Rom) (nv v : Nat), v < nv →
    ∃ vc : Voice, (State.powerOn d r nv).voices[v]? = some vc ∧ vc.finished = true ∧ vc.gate = false ∧
      vc.err = none ∧ vc.stream = none ∧ (State.powerOn d r nv).finishedQuery v = some true

/-- 70_reset_and_hazards.md R362, 10_state.md R31: until its Init, a finished voice that the sample domain reads with the
gate off stays so, and its samples are 0, whatever its other fields hold. -/
def Obligations.UninitialisedVoiceIsSilent : Prop :=
  ∀ (s t : State) (v : Nat) (vc : Voice), s.engineOk → s.voices[v]? = some vc → vc.finished = true →
    vc.shown.gate = false → vc.pending = [] → step s = .next t →
    (∃ stream len, s.engine = .between [] ∧ s.inputs.head? = some (.init v stream len)) ∨
    ∃ vc' : Voice, t.voices[v]? = some vc' ∧ vc'.finished = true ∧ vc'.shown.gate = false ∧ vc'.pending = [] ∧
      vc'.err = vc.err ∧
      (s.engine = .between [] ∧ s.inputs.head? = some (.sample v) → vc'.sample = 0)

/-- 60_exceptions.md R332, 10_state.md R38: once finished, a voice stays finished, with its error, until Init, which
clears both (after the writes still pending for the voice are applied, log 4). -/
def Obligations.FinishedUntilInit : Prop :=
  ∀ (s t : State) (v : Nat) (vc : Voice), s.engineOk → s.voices[v]? = some vc → vc.finished = true → step s = .next t →
    ∃ vc' : Voice, t.voices[v]? = some vc' ∧
      ((vc'.finished = true ∧ vc'.err = vc.err) ∨
        (vc'.finished = false ∧ vc'.err = none ∧ s.engine = .between [] ∧
          ∃ stream len, s.inputs.head? = some (.init v stream len))) ∧
      (∀ stream len, s.engine = .between [] → s.inputs.head? = some (.init v stream len) → vc.pending = [] →
        vc'.finished = false ∧ vc'.err = none)

/-- 20_memory.md R81: neither an instruction nor any other step of the block changes a byte of any stream, of the sequence
memory or of the tables; only the host's Init and its loading of the read-only memories do. -/
def Obligations.MemoryIsNeverWritten : Prop :=
  ∀ (i : Instr) (s t : State),
    (exec i s = .next t ∨
      (step s = .next t ∧
        (s.engine = .between [] → (∀ v stream len, s.inputs.head? ≠ some (.init v stream len)) ∧
          ∀ ft am seqs, s.inputs.head? ≠ some (.load ft am seqs)))) →
    (∀ v a : Nat, t.streamByte v a = s.streamByte v a) ∧
    (∀ (k : Byte) (j : Nat), t.rom.seqRead k j = s.rom.seqRead k j) ∧
    (∀ a : Nat, t.rom.seqMem.read a = s.rom.seqMem.read a) ∧ t.rom = s.rom

/-! ### Invariants -/

/-- 10_state.md R35, R36, R37: the cursor, the track loop point and the frames stay within 0 .. `L`; and no advance wraps: a
step of a decode pass stops the voice with an error, or the instruction lies within `L` and the new cursor is, as a
number, the old one plus its length, but for END and for LOOP_END going back. -/
def Obligations.OffsetsStayInTheStream : Prop :=
  (∀ s t : State, s.all Voice.offsetsOk → step s = .next t → t.all Voice.offsetsOk) ∧
  ∀ (s t : State) (p : Pass) (vc vc' : Voice) (m : Memory), InPass s p vc → vc.stream = some m → step s = .next t →
    t.voices[p.voice]? = some vc' →
    (∃ k, t = s.ticked p (vc.stopped k)) ∨
    ∃ n, instrLength (m.read vc.cursor.toNat) = some n ∧ vc.cursor.toNat + n ≤ vc.len.toNat ∧
      (vc'.cursor.toNat = vc.cursor.toNat + n ∨
        (m.read vc.cursor.toNat = 0x00 ∧ vc'.cursor = if vc.tlpSet then vc.tlp else vc.cursor) ∨
        (m.read vc.cursor.toNat = 0x82 ∧ ∃ j : Fin 4, j.val + 1 = vc.lsp.val ∧ vc'.cursor = vc.ls[j].start))

/-- 10_state.md R48: a selected envelope of a voice that is not finished stays on a validated sequence. -/
def Obligations.SelectedEnvelopesStayValid : Prop :=
  ∀ s t : State, (s.all fun vc => vc.finished = false → s.rom.envsOk vc.env) → step s = .next t →
    t.all fun vc => vc.finished = false → t.rom.envsOk vc.env

/-- Every step keeps the invariant: offsets, ramp, flags, visibility, pulse width, streams, envelopes, the engine's place
and the pending writes (10_state.md R30, R48; 20_memory.md R94; 44_sweep_envelope_select.md R251;
70_reset_and_hazards.md R370). -/
def Obligations.InvariantIsKept : Prop :=
  ∀ s t : State, s.inv → step s = .next t → t.inv

/-- The invariant holds at power-on, for every deployment and every sound sequence memory. Where it speaks of a field
that 10_state.md R30 leaves unspecified at power-on, it rests on the model's named value (log 6). -/
def Obligations.InvariantAtPowerOn : Prop :=
  (∀ (d : Deployment) (r : Rom) (nv : Nat), r.ok → (State.powerOn d r nv).inv) ∧ State.reset.inv

/-- 45_sequence_stepper.md R278, 60_exceptions.md R321, 70_reset_and_hazards.md R373: from a state that meets the invariant
no step faults, and only an event by which the host breaks a duty is refused: no instruction and no tick stops the block.
The names of the refusals and the parameter ranges of a load are the model's (log 13). -/
def Obligations.NothingStopsTheBlock : Prop :=
  ∀ s : State, s.inv →
    (∃ t, step s = .next t) ∨
    (s.engine = .between [] ∧
      ((∃ v stream len, s.inputs.head? = some (.init v stream len) ∧
          (s.voices.length ≤ v ∨ stream.length < len.toNat)) ∨
        (∃ v, s.inputs.head? = some (.sample v) ∧ s.voices.length ≤ v) ∨
        ∃ ft am seqs, s.inputs.head? = some (.load ft am seqs) ∧
          ((∃ vc ∈ s.voices, vc.finished = false) ∨ 256 < seqs.length ∨
            ∃ q ∈ seqs, q.length = 0 ∨ 255 < q.length)) ∧
      ∃ x, step s = .refused x)

/-! ### When a register write becomes visible -/

/-- 70_reset_and_hazards.md R370: what a step applies of the pending writes between TickEvents. An event `settle v f` applies
the oldest pending write to register `f` of voice `v`, or nothing where there is none. The rest is the model's choice and
no rule of the spec: with no event due a step applies the oldest pending write of the first voice that has one (log 4), and
where none is pending it leaves the state as it is (log 5); an Init waits, one write of its voice applied a step, while
such a write is pending (log 4), where R361 gives an Init during its voice's tick no move. -/
def Obligations.PendingWritesBecomeVisible : Prop :=
  ∀ (s : State) (v : Nat) (vc : Voice), s.engine = .between [] → s.voices[v]? = some vc →
    (∀ (f : OscField) (rest : List Input), s.inputs = .settle v f :: rest →
      ((∀ w ∈ vc.pending, w.field ≠ f) → step s = .next { s with inputs := rest }) ∧
      ∀ (before after : List OscWrite) (w : OscWrite), vc.pending = before ++ w :: after → w.field = f →
        (∀ x ∈ before, x.field ≠ f) →
        step s = .next
          { s with
            inputs := rest
            voices := s.voices.set v { vc with shown := vc.shown.apply w, pending := before ++ after } }) ∧
    (s.inputs = [] → (∀ x ∈ s.voices, x.pending = []) → step s = .next s) ∧
    (∀ (w : OscWrite) (ws : List OscWrite), vc.pending = w :: ws →
      (s.inputs = [] → (∀ (u : Nat) (x : Voice), u < v → s.voices[u]? = some x → x.pending = []) →
        step s = .next { s with voices := s.voices.set v { vc with shown := vc.shown.apply w, pending := ws } }) ∧
      (∀ (stream : List Byte) (len : Word) (rest : List Input), s.inputs = .init v stream len :: rest →
        len.toNat ≤ stream.length →
        step s = .next { s with voices := s.voices.set v { vc with shown := vc.shown.apply w, pending := ws } }))
end

