-- ==== Sys2Proof/Laws/Decode.lean ====
section
/-! SUPPORT. The parts of the encoding: operand assembly and its inverse, the fields of a note byte, and lengths. -/

namespace Sys2Proof

/-! ### Operands -/

/-- Two bytes and the word they assemble to. -/
theorem assemble_of_wideBytes (o : WideOrder) (x : Word) :
    ∃ b0 b1, wideBytes o x = [b0, b1] ∧ assemble o b0 b1 = x := by
  cases o
  · refine ⟨_, _, rfl, ?_⟩
    simp only [assemble]; ext i hi; simp; grind
  · refine ⟨_, _, rfl, ?_⟩
    simp only [assemble]; ext i hi; simp; grind

/-- The bytes of an assembled word. -/
theorem wideBytes_assemble (o : WideOrder) (b0 b1 : Byte) : wideBytes o (assemble o b0 b1) = [b0, b1] := by
  cases o <;> simp only [assemble, wideBytes, List.cons.injEq, and_true] <;> constructor <;>
    (ext i hi; simp; grind)

@[simp] theorem wideBytes_length (o : WideOrder) (x : Word) : (wideBytes o x).length = 2 := by cases o <;> rfl

@[simp] theorem operandBytes_length (o : WideOrder) (w : Bool) (d : Option Word) :
    (operandBytes o w d).length = operandLength w d := by
  cases d with
  | none => rfl
  | some x => cases w <;> simp [operandBytes, operandLength]

/-- Reading back the bytes of an operand that fits its width. -/
theorem takeOperand_operandBytes (o : WideOrder) (w : Bool) (d : Option Word) (rest : List Byte)
    (h : operandFits w d = true) : takeOperand o w d.isSome (operandBytes o w d ++ rest) = some (d, rest) := by
  cases d with
  | none => rfl
  | some x =>
    cases w
    · simp only [operandFits, Bool.false_or, decide_eq_true_eq] at h
      simp only [takeOperand, operandBytes, Option.isSome_some, if_true, Bool.false_eq_true, if_false,
        List.cons_append, List.nil_append, Option.some.injEq, Prod.mk.injEq, and_true]
      apply BitVec.eq_of_toNat_eq
      simp only [BitVec.toNat_setWidth]; omega
    · obtain ⟨b0, b1, e, h2⟩ := assemble_of_wideBytes o x
      simp [takeOperand, operandBytes, e, h2]

/-- What was read as an operand fits its width, and its bytes are the ones read. -/
theorem takeOperand_some {o : WideOrder} {w f : Bool} {bs rest : List Byte} {d : Option Word}
    (h : takeOperand o w f bs = some (d, rest)) :
    d.isSome = f ∧ operandFits w d = true ∧ bs = operandBytes o w d ++ rest := by
  unfold takeOperand at h
  split at h
  · split at h
    · split at h
      · simp only [Option.some.injEq, Prod.mk.injEq] at h
        obtain ⟨rfl, rfl⟩ := h
        simp_all [operandFits, operandBytes, wideBytes_assemble]
      · cases h
    · split at h
      · simp only [Option.some.injEq, Prod.mk.injEq] at h
        obtain ⟨rfl, rfl⟩ := h
        simp_all [operandFits, operandBytes]; omega
      · cases h
  · simp only [Option.some.injEq, Prod.mk.injEq] at h
    obtain ⟨rfl, rfl⟩ := h
    simp_all [operandFits, operandBytes]

/-! ### The note byte -/

/-- The fields of a note byte. -/
theorem noteByte_fields (n : Nat) (a : NoteArgs) (h1 : 1 ≤ n) (h2 : n ≤ 13) :
    noteByte n a ≠ 0 ∧ (noteByte n a).toNat < 0x80 ∧ noteField (noteByte n a) = n ∧ flagW (noteByte n a) = a.wide ∧
      flagD (noteByte n a) = a.dur.isSome ∧ flagQ (noteByte n a) = a.quant.isSome := by
  have key : ∀ (n : Fin 14) (d q w : Bool), 1 ≤ n.val →
      let b := BitVec.ofNat 8 (n.val + (if d then 0x10 else 0) + (if q then 0x20 else 0) + (if w then 0x40 else 0))
      b ≠ 0 ∧ b.toNat < 0x80 ∧ noteField b = n.val ∧ flagW b = w ∧ flagD b = d ∧ flagQ b = q := by decide
  exact key ⟨n, by omega⟩ a.dur.isSome a.quant.isSome a.wide h1

/-- A byte below 0x80 is the note byte of its fields. -/
theorem noteByte_of_fields (b : Byte) (h : b.toNat < 0x80) (a : NoteArgs) (hw : a.wide = flagW b)
    (hd : a.dur.isSome = flagD b) (hq : a.quant.isSome = flagQ b) : noteByte (noteField b) a = b := by
  have key : ∀ b : Byte, b.toNat < 0x80 →
      BitVec.ofNat 8 (noteField b + (if flagD b then 0x10 else 0) + (if flagQ b then 0x20 else 0)
        + (if flagW b then 0x40 else 0)) = b := by decide
  simp only [noteByte, hw, hd, hq]
  exact key b h

/-- The encoding of a NOTE or REST. -/
theorem encode_noteOf {n : Nat} {a : NoteArgs} {i : Instr} (o : WideOrder) (h : noteOf n a = some i) :
    1 ≤ n ∧ n ≤ 13 ∧ encode o i = noteBytes o n a ∧ i.wf = a.wf ∧ i.length = a.length := by
  unfold noteOf at h
  split at h <;> simp only [Option.some.injEq, reduceCtorEq] at h <;> subst h <;>
    exact ⟨by omega, by omega, rfl, rfl, rfl⟩

/-- Every pitch-class field from 1 to 13 is an instruction. -/
theorem noteOf_isSome {n : Nat} (a : NoteArgs) (h1 : 1 ≤ n) (h2 : n ≤ 13) : ∃ i, noteOf n a = some i := by
  obtain ⟨n, rfl⟩ : ∃ m, n = m + 1 := ⟨n - 1, by omega⟩
  have : n ∈ List.range 13 := by simp; omega
  fin_cases this <;> exact ⟨_, rfl⟩

/-! ### Lengths -/

/-- The first byte fixes the length of a NOTE or REST. -/
theorem instrLength_note {b : Byte} (h0 : b ≠ 0) (h1 : b.toNat < 0x80) (h2 : 1 ≤ noteField b ∧ noteField b ≤ 13) :
    instrLength b = some (1 + flagLength (flagW b) (flagD b) + flagLength (flagW b) (flagQ b)) := by
  unfold instrLength
  rw [if_neg h0, if_pos h1, if_pos h2]

/-- Instructions are 1 to 5 bytes long. -/
theorem instrLength_bounds {b : Byte} {n : Nat} (h : instrLength b = some n) : 1 ≤ n ∧ n ≤ 5 := by
  have key : ∀ b : Byte, (instrLength b).all (fun n => decide (1 ≤ n) && decide (n ≤ 5)) = true := by decide
  have := key b
  rw [h] at this
  simpa using this

/-- The bytes of the operand of a flag. -/
theorem operandLength_eq (w : Bool) (d : Option Word) : operandLength w d = flagLength w d.isSome := by
  cases d <;> rfl

theorem noteBytes_length (o : WideOrder) (n : Nat) (a : NoteArgs) : (noteBytes o n a).length = a.length := by
  simp only [noteBytes, List.length_cons, List.length_append, operandBytes_length, NoteArgs.length]; omega

/-- The first byte of a NOTE or REST tells its length. -/
theorem instrLength_noteByte (n : Nat) (a : NoteArgs) (h1 : 1 ≤ n) (h2 : n ≤ 13) :
    instrLength (noteByte n a) = some a.length := by
  obtain ⟨f1, f2, f3, f4, f5, f6⟩ := noteByte_fields n a h1 h2
  rw [instrLength_note f1 f2 (by omega), f4, f5, f6, NoteArgs.length, operandLength_eq, operandLength_eq]

end Sys2Proof
end

