-- ==== Sys2Proof/Laws/Ops.lean ====
section
/-! SUPPORT. What each shared operation of the decode pass can do, said once. -/

namespace Sys2Proof.Machine

/-! ### The voice whose decode pass is running -/

/-- In a decode pass of a voice that is there, `onPass` runs its argument on the pass and the voice's record. -/
theorem onPass_eq {s : State} {p : Pass} {vc : Voice} (he : s.engine = .pass p) (hv : s.voices[p.voice]? = some vc)
    (f : Pass → Voice → Host.Outcome State Fault Refusal) : onPass s f = f p vc := by
  unfold onPass; rw [he]; simp only; rw [hv]

/-- If `onPass` answers a next state, a decode pass of a voice that is there is running. -/
theorem onPass_next {s t : State} {f : Pass → Voice → Host.Outcome State Fault Refusal} (h : onPass s f = .next t) :
    ∃ p vc, s.engine = .pass p ∧ s.voices[p.voice]? = some vc ∧ f p vc = .next t := by
  unfold onPass at h
  split at h
  · cases h
  · next p he =>
    split at h
    · cases h
    · next vc hv => exact ⟨p, vc, he, hv, h⟩

/-- A control opcode changes the record of the pass's voice and nothing else. -/
theorem controlOp_eq {s : State} {p : Pass} {vc : Voice} (he : s.engine = .pass p) (hv : s.voices[p.voice]? = some vc)
    (f : Voice → Voice) : controlOp s f = .next (s.setVoice p.voice (f vc)) := onPass_eq he hv _

/-- If a control opcode answers a next state, it changed the record of the pass's voice and nothing else. -/
theorem controlOp_next {s t : State} {f : Voice → Voice} (h : controlOp s f = .next t) :
    ∃ p vc, s.engine = .pass p ∧ s.voices[p.voice]? = some vc ∧ t = s.setVoice p.voice (f vc) := by
  obtain ⟨p, vc, he, hv, e⟩ := onPass_next h
  exact ⟨p, vc, he, hv, by cases e; rfl⟩

/-! ### What each meaning can answer -/

/-- END answers a finished voice, a restart, or EmptyTrackLoop. -/
theorem execEnd_next {s t : State} (h : execEnd s = .next t) :
    ∃ p vc, s.engine = .pass p ∧ s.voices[p.voice]? = some vc ∧
      ((vc.tlpSet = true ∧ p.restarted = true ∧ t = s.raise p vc .emptyTrackLoop) ∨
       (vc.tlpSet = true ∧ p.restarted = false ∧
          t = { s.setVoice p.voice { vc with cursor := vc.tlp } with engine := .pass { p with restarted := true } }) ∨
       (vc.tlpSet = false ∧ t = s.endTick p vc.finish none)) := by
  obtain ⟨p, vc, he, hv, e⟩ := onPass_next h
  refine ⟨p, vc, he, hv, ?_⟩
  cases hl : vc.tlpSet <;> cases hr : p.restarted <;> simp only [hl, hr, if_true, if_false, Bool.false_eq_true] at e <;>
    cases e <;> simp

/-- A NOTE answers the end of the tick, with the envelopes started, the sweep loaded and the registers published. -/
theorem playNote_next {s t : State} {semi : Fin 12} {a : NoteArgs} (h : playNote semi a s = .next t) :
    ∃ p vc es, s.engine = .pass p ∧ s.voices[p.voice]? = some vc ∧ vc.env.each s.rom.startSelected = .ok es ∧
      t = s.endTick p
        (s.rom.publish { vc.startNote semi a with env := es, sweepRem := vc.sweepLen, sweepAcc := 0 }) none := by
  obtain ⟨p, vc, he, hv, e⟩ := onPass_next h
  split at e
  · cases e
  · next es hes => exact ⟨p, vc, es, he, hv, hes, by cases e; rfl⟩

/-- REST answers the end of the tick with the gate closed. -/
theorem execRest_next {s t : State} {a : NoteArgs} (h : execRest a s = .next t) :
    ∃ p vc, s.engine = .pass p ∧ s.voices[p.voice]? = some vc ∧
      t = s.endTick p
        (Voice.writeGate
          { vc with cursor := vc.after a.length, nlenC := vc.noteDuration a, qlenC := 0, playing := false } false)
        none := by
  obtain ⟨p, vc, he, hv, e⟩ := onPass_next h
  exact ⟨p, vc, he, hv, by cases e; rfl⟩

/-- LOOP_START answers a pushed frame or LoopStackOverflow. -/
theorem execLoopStart_next {s t : State} {u : Byte} (h : execLoopStart u s = .next t) :
    ∃ p vc, s.engine = .pass p ∧ s.voices[p.voice]? = some vc ∧
      ((∃ hl : vc.lsp.val < 4, t = s.setVoice p.voice
          { vc with
            ls := vc.ls.set vc.lsp.val { start := vc.after 2, rem := u }
            lsp := ⟨vc.lsp.val + 1, by omega⟩
            cursor := vc.after 2 }) ∨
        (vc.lsp.val = 4 ∧ t = s.raise p vc .loopStackOverflow)) := by
  obtain ⟨p, vc, he, hv, e⟩ := onPass_next h
  refine ⟨p, vc, he, hv, ?_⟩
  have := vc.lsp.isLt
  split at e
  · next hl => left; exact ⟨by simpa [Config.loopDepth] using hl, by cases e; rfl⟩
  · next hl => right; exact ⟨by simp only [Config.loopDepth] at hl; omega, by cases e; rfl⟩

/-- LOOP_END answers a popped frame, a backward branch or LoopStackUnderflow. -/
theorem execLoopEnd_next {s t : State} (h : execLoopEnd s = .next t) :
    ∃ p vc, s.engine = .pass p ∧ s.voices[p.voice]? = some vc ∧
      ((∃ (j : Nat) (hj : j < 4), vc.lsp.val = j + 1 ∧
          ((vc.ls[j].rem.toNat ≤ 1 ∧ t = s.setVoice p.voice { vc with lsp := ⟨j, by omega⟩, cursor := vc.after 1 }) ∨
            (1 < vc.ls[j].rem.toNat ∧ t = s.setVoice p.voice
              { vc with
                ls := vc.ls.set j { start := vc.ls[j].start, rem := vc.ls[j].rem - 1 }
                cursor := vc.ls[j].start }))) ∨
        (vc.lsp.val = 0 ∧ t = s.raise p vc .loopStackUnderflow)) := by
  obtain ⟨p, vc, he, hv, e⟩ := onPass_next h
  refine ⟨p, vc, he, hv, ?_⟩
  have := vc.lsp.isLt
  split at e
  · next hl =>
    left
    refine ⟨vc.lsp.val - 1, by omega, by omega, ?_⟩
    dsimp only at e
    split at e
    · next hr => left; exact ⟨hr, by cases e; rfl⟩
    · next hr => right; exact ⟨by omega, by cases e; rfl⟩
  · next hl => right; exact ⟨by omega, by cases e; rfl⟩

/-- An envelope selection answers the selected instance or InvalidEnvelopeIndex. -/
theorem selectEnv_next {s t : State} {c : EnvClass} {k : Byte} (h : selectEnv c k s = .next t) :
    ∃ p vc, s.engine = .pass p ∧ s.voices[p.voice]? = some vc ∧
      ((s.rom.seqValid k = true ∧ t = s.setVoice p.voice
          { vc with env := vc.env.put c ((vc.env.get c).select k), cursor := vc.after 2 }) ∨
        (s.rom.seqValid k = false ∧ t = s.raise p vc .invalidEnvelopeIndex)) := by
  obtain ⟨p, vc, he, hv, e⟩ := onPass_next h
  refine ⟨p, vc, he, hv, ?_⟩
  split at e
  · next hs => left; exact ⟨hs, by cases e; rfl⟩
  · next hs => right; exact ⟨by simpa using hs, by cases e; rfl⟩

/-! ### Which part of the machine a step is -/

theorem step_pass {s : State} {p : Pass} (h : s.engine = .pass p) : step s = passStep s := by unfold step; rw [h]

theorem step_tick {s : State} {v : Nat} {todo : List Nat} (h : s.engine = .between (v :: todo)) :
    step s = startTick s v todo := by unfold step; rw [h]

theorem step_serve {s : State} (h : s.engine = .between []) : step s = serve s := by unfold step; rw [h]

/-- A step of the decode pass raises the fetch's error or executes the fetched instruction. -/
theorem passStep_next {s t : State} (h : passStep s = .next t) :
    ∃ p vc, s.engine = .pass p ∧ s.voices[p.voice]? = some vc ∧
      ((∃ k, vc.fetch s.deploy.wideOrder = .raises k ∧ t = s.raise p vc k) ∨
        (∃ i, vc.fetch s.deploy.wideOrder = .instr i ∧ exec i s = .next t)) := by
  obtain ⟨p, vc, he, hv, e⟩ := onPass_next h
  refine ⟨p, vc, he, hv, ?_⟩
  split at e
  · cases e
  · next k hk => exact .inl ⟨k, hk, by cases e; rfl⟩
  · next i hi => exact .inr ⟨i, hi, e⟩

/-- The start of a voice's tick ends it or starts a decode pass. -/
theorem startTick_next {s t : State} {v : Nat} {todo : List Nat} (h : startTick s v todo = .next t) :
    (s.voices[v]? = none ∧ t = { s with engine := .between todo }) ∨
    ∃ vc, s.voices[v]? = some vc ∧
      ((∃ vc', s.rom.tickFront vc = .ok (.over vc') ∧ t = { s.setVoice v vc' with engine := .between todo }) ∨
        (∃ vc', s.rom.tickFront vc = .ok (.fetches vc') ∧
          t = { s.setVoice v vc' with engine := .pass { voice := v, restarted := false, todo := todo } })) := by
  unfold startTick at h
  split at h
  · next hv => exact .inl ⟨hv, by cases h; rfl⟩
  · next vc hv =>
    refine .inr ⟨vc, hv, ?_⟩
    split at h
    · cases h
    · next vc' e => exact .inl ⟨vc', e, by cases h; rfl⟩
    · next vc' e => exact .inr ⟨vc', e, by cases h; rfl⟩

end Sys2Proof.Machine
end

