-- ==== Sys2Proof/Laws/State.lean ====
section
/-! SUPPORT. One lemma per field for each update of a voice record and of the state. -/

namespace Sys2Proof.Machine

/-! ### `Voice.writeGate` -/

@[simp] theorem Voice.writeGate_stream (vc : Voice) (b : Bool) : (vc.writeGate b).stream = vc.stream := rfl
@[simp] theorem Voice.writeGate_cursor (vc : Voice) (b : Bool) : (vc.writeGate b).cursor = vc.cursor := rfl
@[simp] theorem Voice.writeGate_len (vc : Voice) (b : Bool) : (vc.writeGate b).len = vc.len := rfl
@[simp] theorem Voice.writeGate_finished (vc : Voice) (b : Bool) : (vc.writeGate b).finished = vc.finished := rfl
@[simp] theorem Voice.writeGate_playing (vc : Voice) (b : Bool) : (vc.writeGate b).playing = vc.playing := rfl
@[simp] theorem Voice.writeGate_nlenC (vc : Voice) (b : Bool) : (vc.writeGate b).nlenC = vc.nlenC := rfl
@[simp] theorem Voice.writeGate_qlenC (vc : Voice) (b : Bool) : (vc.writeGate b).qlenC = vc.qlenC := rfl
@[simp] theorem Voice.writeGate_noteLen (vc : Voice) (b : Bool) : (vc.writeGate b).noteLen = vc.noteLen := rfl
@[simp] theorem Voice.writeGate_quantLen (vc : Voice) (b : Bool) : (vc.writeGate b).quantLen = vc.quantLen := rfl
@[simp] theorem Voice.writeGate_semi (vc : Voice) (b : Bool) : (vc.writeGate b).semi = vc.semi := rfl
@[simp] theorem Voice.writeGate_octave (vc : Voice) (b : Bool) : (vc.writeGate b).octave = vc.octave := rfl
@[simp] theorem Voice.writeGate_volume (vc : Voice) (b : Bool) : (vc.writeGate b).volume = vc.volume := rfl
@[simp] theorem Voice.writeGate_transpose (vc : Voice) (b : Bool) : (vc.writeGate b).transpose = vc.transpose := rfl
@[simp] theorem Voice.writeGate_detune (vc : Voice) (b : Bool) : (vc.writeGate b).detune = vc.detune := rfl
@[simp] theorem Voice.writeGate_timbre (vc : Voice) (b : Bool) : (vc.writeGate b).timbre = vc.timbre := rfl
@[simp] theorem Voice.writeGate_sweepLen (vc : Voice) (b : Bool) : (vc.writeGate b).sweepLen = vc.sweepLen := rfl
@[simp] theorem Voice.writeGate_sweepStep (vc : Voice) (b : Bool) : (vc.writeGate b).sweepStep = vc.sweepStep := rfl
@[simp] theorem Voice.writeGate_sweepRem (vc : Voice) (b : Bool) : (vc.writeGate b).sweepRem = vc.sweepRem := rfl
@[simp] theorem Voice.writeGate_sweepAcc (vc : Voice) (b : Bool) : (vc.writeGate b).sweepAcc = vc.sweepAcc := rfl
@[simp] theorem Voice.writeGate_tlpSet (vc : Voice) (b : Bool) : (vc.writeGate b).tlpSet = vc.tlpSet := rfl
@[simp] theorem Voice.writeGate_tlp (vc : Voice) (b : Bool) : (vc.writeGate b).tlp = vc.tlp := rfl
@[simp] theorem Voice.writeGate_lsp (vc : Voice) (b : Bool) : (vc.writeGate b).lsp = vc.lsp := rfl
@[simp] theorem Voice.writeGate_ls (vc : Voice) (b : Bool) : (vc.writeGate b).ls = vc.ls := rfl
@[simp] theorem Voice.writeGate_env (vc : Voice) (b : Bool) : (vc.writeGate b).env = vc.env := rfl
@[simp] theorem Voice.writeGate_err (vc : Voice) (b : Bool) : (vc.writeGate b).err = vc.err := rfl
@[simp] theorem Voice.writeGate_gate (vc : Voice) (b : Bool) : (vc.writeGate b).gate = b := rfl
@[simp] theorem Voice.writeGate_freq (vc : Voice) (b : Bool) : (vc.writeGate b).freq = vc.freq := rfl
@[simp] theorem Voice.writeGate_amp (vc : Voice) (b : Bool) : (vc.writeGate b).amp = vc.amp := rfl
@[simp] theorem Voice.writeGate_pw (vc : Voice) (b : Bool) : (vc.writeGate b).pw = vc.pw := rfl
@[simp] theorem Voice.writeGate_phase (vc : Voice) (b : Bool) : (vc.writeGate b).phase = vc.phase := rfl
@[simp] theorem Voice.writeGate_result (vc : Voice) (b : Bool) : (vc.writeGate b).result = vc.result := rfl
@[simp] theorem Voice.writeGate_sample (vc : Voice) (b : Bool) : (vc.writeGate b).sample = vc.sample := rfl
@[simp] theorem Voice.writeGate_shown (vc : Voice) (b : Bool) : (vc.writeGate b).shown = vc.shown := rfl
@[simp] theorem Voice.writeGate_pending (vc : Voice) (b : Bool) : (vc.writeGate b).pending = vc.pending ++ [.gate b] := rfl

/-! ### `Voice.writeFreq` -/

@[simp] theorem Voice.writeFreq_stream (vc : Voice) (x : Word) : (vc.writeFreq x).stream = vc.stream := rfl
@[simp] theorem Voice.writeFreq_cursor (vc : Voice) (x : Word) : (vc.writeFreq x).cursor = vc.cursor := rfl
@[simp] theorem Voice.writeFreq_len (vc : Voice) (x : Word) : (vc.writeFreq x).len = vc.len := rfl
@[simp] theorem Voice.writeFreq_finished (vc : Voice) (x : Word) : (vc.writeFreq x).finished = vc.finished := rfl
@[simp] theorem Voice.writeFreq_playing (vc : Voice) (x : Word) : (vc.writeFreq x).playing = vc.playing := rfl
@[simp] theorem Voice.writeFreq_nlenC (vc : Voice) (x : Word) : (vc.writeFreq x).nlenC = vc.nlenC := rfl
@[simp] theorem Voice.writeFreq_qlenC (vc : Voice) (x : Word) : (vc.writeFreq x).qlenC = vc.qlenC := rfl
@[simp] theorem Voice.writeFreq_noteLen (vc : Voice) (x : Word) : (vc.writeFreq x).noteLen = vc.noteLen := rfl
@[simp] theorem Voice.writeFreq_quantLen (vc : Voice) (x : Word) : (vc.writeFreq x).quantLen = vc.quantLen := rfl
@[simp] theorem Voice.writeFreq_semi (vc : Voice) (x : Word) : (vc.writeFreq x).semi = vc.semi := rfl
@[simp] theorem Voice.writeFreq_octave (vc : Voice) (x : Word) : (vc.writeFreq x).octave = vc.octave := rfl
@[simp] theorem Voice.writeFreq_volume (vc : Voice) (x : Word) : (vc.writeFreq x).volume = vc.volume := rfl
@[simp] theorem Voice.writeFreq_transpose (vc : Voice) (x : Word) : (vc.writeFreq x).transpose = vc.transpose := rfl
@[simp] theorem Voice.writeFreq_detune (vc : Voice) (x : Word) : (vc.writeFreq x).detune = vc.detune := rfl
@[simp] theorem Voice.writeFreq_timbre (vc : Voice) (x : Word) : (vc.writeFreq x).timbre = vc.timbre := rfl
@[simp] theorem Voice.writeFreq_sweepLen (vc : Voice) (x : Word) : (vc.writeFreq x).sweepLen = vc.sweepLen := rfl
@[simp] theorem Voice.writeFreq_sweepStep (vc : Voice) (x : Word) : (vc.writeFreq x).sweepStep = vc.sweepStep := rfl
@[simp] theorem Voice.writeFreq_sweepRem (vc : Voice) (x : Word) : (vc.writeFreq x).sweepRem = vc.sweepRem := rfl
@[simp] theorem Voice.writeFreq_sweepAcc (vc : Voice) (x : Word) : (vc.writeFreq x).sweepAcc = vc.sweepAcc := rfl
@[simp] theorem Voice.writeFreq_tlpSet (vc : Voice) (x : Word) : (vc.writeFreq x).tlpSet = vc.tlpSet := rfl
@[simp] theorem Voice.writeFreq_tlp (vc : Voice) (x : Word) : (vc.writeFreq x).tlp = vc.tlp := rfl
@[simp] theorem Voice.writeFreq_lsp (vc : Voice) (x : Word) : (vc.writeFreq x).lsp = vc.lsp := rfl
@[simp] theorem Voice.writeFreq_ls (vc : Voice) (x : Word) : (vc.writeFreq x).ls = vc.ls := rfl
@[simp] theorem Voice.writeFreq_env (vc : Voice) (x : Word) : (vc.writeFreq x).env = vc.env := rfl
@[simp] theorem Voice.writeFreq_err (vc : Voice) (x : Word) : (vc.writeFreq x).err = vc.err := rfl
@[simp] theorem Voice.writeFreq_gate (vc : Voice) (x : Word) : (vc.writeFreq x).gate = vc.gate := rfl
@[simp] theorem Voice.writeFreq_freq (vc : Voice) (x : Word) : (vc.writeFreq x).freq = x := rfl
@[simp] theorem Voice.writeFreq_amp (vc : Voice) (x : Word) : (vc.writeFreq x).amp = vc.amp := rfl
@[simp] theorem Voice.writeFreq_pw (vc : Voice) (x : Word) : (vc.writeFreq x).pw = vc.pw := rfl
@[simp] theorem Voice.writeFreq_phase (vc : Voice) (x : Word) : (vc.writeFreq x).phase = vc.phase := rfl
@[simp] theorem Voice.writeFreq_result (vc : Voice) (x : Word) : (vc.writeFreq x).result = vc.result := rfl
@[simp] theorem Voice.writeFreq_sample (vc : Voice) (x : Word) : (vc.writeFreq x).sample = vc.sample := rfl
@[simp] theorem Voice.writeFreq_shown (vc : Voice) (x : Word) : (vc.writeFreq x).shown = vc.shown := rfl
@[simp] theorem Voice.writeFreq_pending (vc : Voice) (x : Word) : (vc.writeFreq x).pending = vc.pending ++ [.freq x] := rfl

/-! ### `Voice.writeAmp` -/

@[simp] theorem Voice.writeAmp_stream (vc : Voice) (x : Byte) : (vc.writeAmp x).stream = vc.stream := rfl
@[simp] theorem Voice.writeAmp_cursor (vc : Voice) (x : Byte) : (vc.writeAmp x).cursor = vc.cursor := rfl
@[simp] theorem Voice.writeAmp_len (vc : Voice) (x : Byte) : (vc.writeAmp x).len = vc.len := rfl
@[simp] theorem Voice.writeAmp_finished (vc : Voice) (x : Byte) : (vc.writeAmp x).finished = vc.finished := rfl
@[simp] theorem Voice.writeAmp_playing (vc : Voice) (x : Byte) : (vc.writeAmp x).playing = vc.playing := rfl
@[simp] theorem Voice.writeAmp_nlenC (vc : Voice) (x : Byte) : (vc.writeAmp x).nlenC = vc.nlenC := rfl
@[simp] theorem Voice.writeAmp_qlenC (vc : Voice) (x : Byte) : (vc.writeAmp x).qlenC = vc.qlenC := rfl
@[simp] theorem Voice.writeAmp_noteLen (vc : Voice) (x : Byte) : (vc.writeAmp x).noteLen = vc.noteLen := rfl
@[simp] theorem Voice.writeAmp_quantLen (vc : Voice) (x : Byte) : (vc.writeAmp x).quantLen = vc.quantLen := rfl
@[simp] theorem Voice.writeAmp_semi (vc : Voice) (x : Byte) : (vc.writeAmp x).semi = vc.semi := rfl
@[simp] theorem Voice.writeAmp_octave (vc : Voice) (x : Byte) : (vc.writeAmp x).octave = vc.octave := rfl
@[simp] theorem Voice.writeAmp_volume (vc : Voice) (x : Byte) : (vc.writeAmp x).volume = vc.volume := rfl
@[simp] theorem Voice.writeAmp_transpose (vc : Voice) (x : Byte) : (vc.writeAmp x).transpose = vc.transpose := rfl
@[simp] theorem Voice.writeAmp_detune (vc : Voice) (x : Byte) : (vc.writeAmp x).detune = vc.detune := rfl
@[simp] theorem Voice.writeAmp_timbre (vc : Voice) (x : Byte) : (vc.writeAmp x).timbre = vc.timbre := rfl
@[simp] theorem Voice.writeAmp_sweepLen (vc : Voice) (x : Byte) : (vc.writeAmp x).sweepLen = vc.sweepLen := rfl
@[simp] theorem Voice.writeAmp_sweepStep (vc : Voice) (x : Byte) : (vc.writeAmp x).sweepStep = vc.sweepStep := rfl
@[simp] theorem Voice.writeAmp_sweepRem (vc : Voice) (x : Byte) : (vc.writeAmp x).sweepRem = vc.sweepRem := rfl
@[simp] theorem Voice.writeAmp_sweepAcc (vc : Voice) (x : Byte) : (vc.writeAmp x).sweepAcc = vc.sweepAcc := rfl
@[simp] theorem Voice.writeAmp_tlpSet (vc : Voice) (x : Byte) : (vc.writeAmp x).tlpSet = vc.tlpSet := rfl
@[simp] theorem Voice.writeAmp_tlp (vc : Voice) (x : Byte) : (vc.writeAmp x).tlp = vc.tlp := rfl
@[simp] theorem Voice.writeAmp_lsp (vc : Voice) (x : Byte) : (vc.writeAmp x).lsp = vc.lsp := rfl
@[simp] theorem Voice.writeAmp_ls (vc : Voice) (x : Byte) : (vc.writeAmp x).ls = vc.ls := rfl
@[simp] theorem Voice.writeAmp_env (vc : Voice) (x : Byte) : (vc.writeAmp x).env = vc.env := rfl
@[simp] theorem Voice.writeAmp_err (vc : Voice) (x : Byte) : (vc.writeAmp x).err = vc.err := rfl
@[simp] theorem Voice.writeAmp_gate (vc : Voice) (x : Byte) : (vc.writeAmp x).gate = vc.gate := rfl
@[simp] theorem Voice.writeAmp_freq (vc : Voice) (x : Byte) : (vc.writeAmp x).freq = vc.freq := rfl
@[simp] theorem Voice.writeAmp_amp (vc : Voice) (x : Byte) : (vc.writeAmp x).amp = x := rfl
@[simp] theorem Voice.writeAmp_pw (vc : Voice) (x : Byte) : (vc.writeAmp x).pw = vc.pw := rfl
@[simp] theorem Voice.writeAmp_phase (vc : Voice) (x : Byte) : (vc.writeAmp x).phase = vc.phase := rfl
@[simp] theorem Voice.writeAmp_result (vc : Voice) (x : Byte) : (vc.writeAmp x).result = vc.result := rfl
@[simp] theorem Voice.writeAmp_sample (vc : Voice) (x : Byte) : (vc.writeAmp x).sample = vc.sample := rfl
@[simp] theorem Voice.writeAmp_shown (vc : Voice) (x : Byte) : (vc.writeAmp x).shown = vc.shown := rfl
@[simp] theorem Voice.writeAmp_pending (vc : Voice) (x : Byte) : (vc.writeAmp x).pending = vc.pending ++ [.amp x] := rfl

/-! ### `Voice.writePw` -/

@[simp] theorem Voice.writePw_stream (vc : Voice) (x : Word) : (vc.writePw x).stream = vc.stream := rfl
@[simp] theorem Voice.writePw_cursor (vc : Voice) (x : Word) : (vc.writePw x).cursor = vc.cursor := rfl
@[simp] theorem Voice.writePw_len (vc : Voice) (x : Word) : (vc.writePw x).len = vc.len := rfl
@[simp] theorem Voice.writePw_finished (vc : Voice) (x : Word) : (vc.writePw x).finished = vc.finished := rfl
@[simp] theorem Voice.writePw_playing (vc : Voice) (x : Word) : (vc.writePw x).playing = vc.playing := rfl
@[simp] theorem Voice.writePw_nlenC (vc : Voice) (x : Word) : (vc.writePw x).nlenC = vc.nlenC := rfl
@[simp] theorem Voice.writePw_qlenC (vc : Voice) (x : Word) : (vc.writePw x).qlenC = vc.qlenC := rfl
@[simp] theorem Voice.writePw_noteLen (vc : Voice) (x : Word) : (vc.writePw x).noteLen = vc.noteLen := rfl
@[simp] theorem Voice.writePw_quantLen (vc : Voice) (x : Word) : (vc.writePw x).quantLen = vc.quantLen := rfl
@[simp] theorem Voice.writePw_semi (vc : Voice) (x : Word) : (vc.writePw x).semi = vc.semi := rfl
@[simp] theorem Voice.writePw_octave (vc : Voice) (x : Word) : (vc.writePw x).octave = vc.octave := rfl
@[simp] theorem Voice.writePw_volume (vc : Voice) (x : Word) : (vc.writePw x).volume = vc.volume := rfl
@[simp] theorem Voice.writePw_transpose (vc : Voice) (x : Word) : (vc.writePw x).transpose = vc.transpose := rfl
@[simp] theorem Voice.writePw_detune (vc : Voice) (x : Word) : (vc.writePw x).detune = vc.detune := rfl
@[simp] theorem Voice.writePw_timbre (vc : Voice) (x : Word) : (vc.writePw x).timbre = vc.timbre := rfl
@[simp] theorem Voice.writePw_sweepLen (vc : Voice) (x : Word) : (vc.writePw x).sweepLen = vc.sweepLen := rfl
@[simp] theorem Voice.writePw_sweepStep (vc : Voice) (x : Word) : (vc.writePw x).sweepStep = vc.sweepStep := rfl
@[simp] theorem Voice.writePw_sweepRem (vc : Voice) (x : Word) : (vc.writePw x).sweepRem = vc.sweepRem := rfl
@[simp] theorem Voice.writePw_sweepAcc (vc : Voice) (x : Word) : (vc.writePw x).sweepAcc = vc.sweepAcc := rfl
@[simp] theorem Voice.writePw_tlpSet (vc : Voice) (x : Word) : (vc.writePw x).tlpSet = vc.tlpSet := rfl
@[simp] theorem Voice.writePw_tlp (vc : Voice) (x : Word) : (vc.writePw x).tlp = vc.tlp := rfl
@[simp] theorem Voice.writePw_lsp (vc : Voice) (x : Word) : (vc.writePw x).lsp = vc.lsp := rfl
@[simp] theorem Voice.writePw_ls (vc : Voice) (x : Word) : (vc.writePw x).ls = vc.ls := rfl
@[simp] theorem Voice.writePw_env (vc : Voice) (x : Word) : (vc.writePw x).env = vc.env := rfl
@[simp] theorem Voice.writePw_err (vc : Voice) (x : Word) : (vc.writePw x).err = vc.err := rfl
@[simp] theorem Voice.writePw_gate (vc : Voice) (x : Word) : (vc.writePw x).gate = vc.gate := rfl
@[simp] theorem Voice.writePw_freq (vc : Voice) (x : Word) : (vc.writePw x).freq = vc.freq := rfl
@[simp] theorem Voice.writePw_amp (vc : Voice) (x : Word) : (vc.writePw x).amp = vc.amp := rfl
@[simp] theorem Voice.writePw_pw (vc : Voice) (x : Word) : (vc.writePw x).pw = x := rfl
@[simp] theorem Voice.writePw_phase (vc : Voice) (x : Word) : (vc.writePw x).phase = vc.phase := rfl
@[simp] theorem Voice.writePw_result (vc : Voice) (x : Word) : (vc.writePw x).result = vc.result := rfl
@[simp] theorem Voice.writePw_sample (vc : Voice) (x : Word) : (vc.writePw x).sample = vc.sample := rfl
@[simp] theorem Voice.writePw_shown (vc : Voice) (x : Word) : (vc.writePw x).shown = vc.shown := rfl
@[simp] theorem Voice.writePw_pending (vc : Voice) (x : Word) : (vc.writePw x).pending = vc.pending ++ [.pw x] := rfl

/-! ### `Voice.finish` -/

@[simp] theorem Voice.finish_stream (vc : Voice) : (vc.finish).stream = vc.stream := rfl
@[simp] theorem Voice.finish_cursor (vc : Voice) : (vc.finish).cursor = vc.cursor := rfl
@[simp] theorem Voice.finish_len (vc : Voice) : (vc.finish).len = vc.len := rfl
@[simp] theorem Voice.finish_finished (vc : Voice) : (vc.finish).finished = true := rfl
@[simp] theorem Voice.finish_playing (vc : Voice) : (vc.finish).playing = false := rfl
@[simp] theorem Voice.finish_nlenC (vc : Voice) : (vc.finish).nlenC = vc.nlenC := rfl
@[simp] theorem Voice.finish_qlenC (vc : Voice) : (vc.finish).qlenC = vc.qlenC := rfl
@[simp] theorem Voice.finish_noteLen (vc : Voice) : (vc.finish).noteLen = vc.noteLen := rfl
@[simp] theorem Voice.finish_quantLen (vc : Voice) : (vc.finish).quantLen = vc.quantLen := rfl
@[simp] theorem Voice.finish_semi (vc : Voice) : (vc.finish).semi = vc.semi := rfl
@[simp] theorem Voice.finish_octave (vc : Voice) : (vc.finish).octave = vc.octave := rfl
@[simp] theorem Voice.finish_volume (vc : Voice) : (vc.finish).volume = vc.volume := rfl
@[simp] theorem Voice.finish_transpose (vc : Voice) : (vc.finish).transpose = vc.transpose := rfl
@[simp] theorem Voice.finish_detune (vc : Voice) : (vc.finish).detune = vc.detune := rfl
@[simp] theorem Voice.finish_timbre (vc : Voice) : (vc.finish).timbre = vc.timbre := rfl
@[simp] theorem Voice.finish_sweepLen (vc : Voice) : (vc.finish).sweepLen = vc.sweepLen := rfl
@[simp] theorem Voice.finish_sweepStep (vc : Voice) : (vc.finish).sweepStep = vc.sweepStep := rfl
@[simp] theorem Voice.finish_sweepRem (vc : Voice) : (vc.finish).sweepRem = vc.sweepRem := rfl
@[simp] theorem Voice.finish_sweepAcc (vc : Voice) : (vc.finish).sweepAcc = vc.sweepAcc := rfl
@[simp] theorem Voice.finish_tlpSet (vc : Voice) : (vc.finish).tlpSet = vc.tlpSet := rfl
@[simp] theorem Voice.finish_tlp (vc : Voice) : (vc.finish).tlp = vc.tlp := rfl
@[simp] theorem Voice.finish_lsp (vc : Voice) : (vc.finish).lsp = vc.lsp := rfl
@[simp] theorem Voice.finish_ls (vc : Voice) : (vc.finish).ls = vc.ls := rfl
@[simp] theorem Voice.finish_env (vc : Voice) : (vc.finish).env = vc.env := rfl
@[simp] theorem Voice.finish_err (vc : Voice) : (vc.finish).err = vc.err := rfl
@[simp] theorem Voice.finish_gate (vc : Voice) : (vc.finish).gate = false := rfl
@[simp] theorem Voice.finish_freq (vc : Voice) : (vc.finish).freq = vc.freq := rfl
@[simp] theorem Voice.finish_amp (vc : Voice) : (vc.finish).amp = vc.amp := rfl
@[simp] theorem Voice.finish_pw (vc : Voice) : (vc.finish).pw = vc.pw := rfl
@[simp] theorem Voice.finish_phase (vc : Voice) : (vc.finish).phase = vc.phase := rfl
@[simp] theorem Voice.finish_result (vc : Voice) : (vc.finish).result = vc.result := rfl
@[simp] theorem Voice.finish_sample (vc : Voice) : (vc.finish).sample = vc.sample := rfl
@[simp] theorem Voice.finish_shown (vc : Voice) : (vc.finish).shown = vc.shown := rfl
@[simp] theorem Voice.finish_pending (vc : Voice) : (vc.finish).pending = vc.pending ++ [.gate false] := rfl

/-! ### `Voice.raise` -/

@[simp] theorem Voice.raise_stream (vc : Voice) (k : ErrKind) : (vc.raise k).stream = vc.stream := rfl
@[simp] theorem Voice.raise_cursor (vc : Voice) (k : ErrKind) : (vc.raise k).cursor = vc.cursor := rfl
@[simp] theorem Voice.raise_len (vc : Voice) (k : ErrKind) : (vc.raise k).len = vc.len := rfl
@[simp] theorem Voice.raise_finished (vc : Voice) (k : ErrKind) : (vc.raise k).finished = true := rfl
@[simp] theorem Voice.raise_playing (vc : Voice) (k : ErrKind) : (vc.raise k).playing = false := rfl
@[simp] theorem Voice.raise_nlenC (vc : Voice) (k : ErrKind) : (vc.raise k).nlenC = vc.nlenC := rfl
@[simp] theorem Voice.raise_qlenC (vc : Voice) (k : ErrKind) : (vc.raise k).qlenC = vc.qlenC := rfl
@[simp] theorem Voice.raise_noteLen (vc : Voice) (k : ErrKind) : (vc.raise k).noteLen = vc.noteLen := rfl
@[simp] theorem Voice.raise_quantLen (vc : Voice) (k : ErrKind) : (vc.raise k).quantLen = vc.quantLen := rfl
@[simp] theorem Voice.raise_semi (vc : Voice) (k : ErrKind) : (vc.raise k).semi = vc.semi := rfl
@[simp] theorem Voice.raise_octave (vc : Voice) (k : ErrKind) : (vc.raise k).octave = vc.octave := rfl
@[simp] theorem Voice.raise_volume (vc : Voice) (k : ErrKind) : (vc.raise k).volume = vc.volume := rfl
@[simp] theorem Voice.raise_transpose (vc : Voice) (k : ErrKind) : (vc.raise k).transpose = vc.transpose := rfl
@[simp] theorem Voice.raise_detune (vc : Voice) (k : ErrKind) : (vc.raise k).detune = vc.detune := rfl
@[simp] theorem Voice.raise_timbre (vc : Voice) (k : ErrKind) : (vc.raise k).timbre = vc.timbre := rfl
@[simp] theorem Voice.raise_sweepLen (vc : Voice) (k : ErrKind) : (vc.raise k).sweepLen = vc.sweepLen := rfl
@[simp] theorem Voice.raise_sweepStep (vc : Voice) (k : ErrKind) : (vc.raise k).sweepStep = vc.sweepStep := rfl
@[simp] theorem Voice.raise_sweepRem (vc : Voice) (k : ErrKind) : (vc.raise k).sweepRem = vc.sweepRem := rfl
@[simp] theorem Voice.raise_sweepAcc (vc : Voice) (k : ErrKind) : (vc.raise k).sweepAcc = vc.sweepAcc := rfl
@[simp] theorem Voice.raise_tlpSet (vc : Voice) (k : ErrKind) : (vc.raise k).tlpSet = vc.tlpSet := rfl
@[simp] theorem Voice.raise_tlp (vc : Voice) (k : ErrKind) : (vc.raise k).tlp = vc.tlp := rfl
@[simp] theorem Voice.raise_lsp (vc : Voice) (k : ErrKind) : (vc.raise k).lsp = vc.lsp := rfl
@[simp] theorem Voice.raise_ls (vc : Voice) (k : ErrKind) : (vc.raise k).ls = vc.ls := rfl
@[simp] theorem Voice.raise_env (vc : Voice) (k : ErrKind) : (vc.raise k).env = vc.env := rfl
@[simp] theorem Voice.raise_err (vc : Voice) (k : ErrKind) : (vc.raise k).err = some k := rfl
@[simp] theorem Voice.raise_gate (vc : Voice) (k : ErrKind) : (vc.raise k).gate = false := rfl
@[simp] theorem Voice.raise_freq (vc : Voice) (k : ErrKind) : (vc.raise k).freq = vc.freq := rfl
@[simp] theorem Voice.raise_amp (vc : Voice) (k : ErrKind) : (vc.raise k).amp = vc.amp := rfl
@[simp] theorem Voice.raise_pw (vc : Voice) (k : ErrKind) : (vc.raise k).pw = vc.pw := rfl
@[simp] theorem Voice.raise_phase (vc : Voice) (k : ErrKind) : (vc.raise k).phase = vc.phase := rfl
@[simp] theorem Voice.raise_result (vc : Voice) (k : ErrKind) : (vc.raise k).result = vc.result := rfl
@[simp] theorem Voice.raise_sample (vc : Voice) (k : ErrKind) : (vc.raise k).sample = vc.sample := rfl
@[simp] theorem Voice.raise_shown (vc : Voice) (k : ErrKind) : (vc.raise k).shown = vc.shown := rfl
@[simp] theorem Voice.raise_pending (vc : Voice) (k : ErrKind) : (vc.raise k).pending = vc.pending ++ [.gate false] := rfl

/-! ### `Voice.tickOver` -/

@[simp] theorem Voice.tickOver_stream (vc : Voice) : (vc.tickOver).stream = vc.stream := rfl
@[simp] theorem Voice.tickOver_cursor (vc : Voice) : (vc.tickOver).cursor = vc.cursor := rfl
@[simp] theorem Voice.tickOver_len (vc : Voice) : (vc.tickOver).len = vc.len := rfl
@[simp] theorem Voice.tickOver_finished (vc : Voice) : (vc.tickOver).finished = vc.finished := rfl
@[simp] theorem Voice.tickOver_playing (vc : Voice) : (vc.tickOver).playing = vc.playing := rfl
@[simp] theorem Voice.tickOver_nlenC (vc : Voice) : (vc.tickOver).nlenC = vc.nlenC := rfl
@[simp] theorem Voice.tickOver_qlenC (vc : Voice) : (vc.tickOver).qlenC = vc.qlenC := rfl
@[simp] theorem Voice.tickOver_noteLen (vc : Voice) : (vc.tickOver).noteLen = vc.noteLen := rfl
@[simp] theorem Voice.tickOver_quantLen (vc : Voice) : (vc.tickOver).quantLen = vc.quantLen := rfl
@[simp] theorem Voice.tickOver_semi (vc : Voice) : (vc.tickOver).semi = vc.semi := rfl
@[simp] theorem Voice.tickOver_octave (vc : Voice) : (vc.tickOver).octave = vc.octave := rfl
@[simp] theorem Voice.tickOver_volume (vc : Voice) : (vc.tickOver).volume = vc.volume := rfl
@[simp] theorem Voice.tickOver_transpose (vc : Voice) : (vc.tickOver).transpose = vc.transpose := rfl
@[simp] theorem Voice.tickOver_detune (vc : Voice) : (vc.tickOver).detune = vc.detune := rfl
@[simp] theorem Voice.tickOver_timbre (vc : Voice) : (vc.tickOver).timbre = vc.timbre := rfl
@[simp] theorem Voice.tickOver_sweepLen (vc : Voice) : (vc.tickOver).sweepLen = vc.sweepLen := rfl
@[simp] theorem Voice.tickOver_sweepStep (vc : Voice) : (vc.tickOver).sweepStep = vc.sweepStep := rfl
@[simp] theorem Voice.tickOver_sweepRem (vc : Voice) : (vc.tickOver).sweepRem = vc.sweepRem := rfl
@[simp] theorem Voice.tickOver_sweepAcc (vc : Voice) : (vc.tickOver).sweepAcc = vc.sweepAcc := rfl
@[simp] theorem Voice.tickOver_tlpSet (vc : Voice) : (vc.tickOver).tlpSet = vc.tlpSet := rfl
@[simp] theorem Voice.tickOver_tlp (vc : Voice) : (vc.tickOver).tlp = vc.tlp := rfl
@[simp] theorem Voice.tickOver_lsp (vc : Voice) : (vc.tickOver).lsp = vc.lsp := rfl
@[simp] theorem Voice.tickOver_ls (vc : Voice) : (vc.tickOver).ls = vc.ls := rfl
@[simp] theorem Voice.tickOver_env (vc : Voice) : (vc.tickOver).env = vc.env := rfl
@[simp] theorem Voice.tickOver_err (vc : Voice) : (vc.tickOver).err = vc.err := rfl
@[simp] theorem Voice.tickOver_gate (vc : Voice) : (vc.tickOver).gate = vc.gate := rfl
@[simp] theorem Voice.tickOver_freq (vc : Voice) : (vc.tickOver).freq = vc.freq := rfl
@[simp] theorem Voice.tickOver_amp (vc : Voice) : (vc.tickOver).amp = vc.amp := rfl
@[simp] theorem Voice.tickOver_pw (vc : Voice) : (vc.tickOver).pw = vc.pw := rfl
@[simp] theorem Voice.tickOver_phase (vc : Voice) : (vc.tickOver).phase = vc.phase := rfl
@[simp] theorem Voice.tickOver_result (vc : Voice) : (vc.tickOver).result = { active := !vc.finished, error := none } := rfl
@[simp] theorem Voice.tickOver_sample (vc : Voice) : (vc.tickOver).sample = vc.sample := rfl
@[simp] theorem Voice.tickOver_shown (vc : Voice) : (vc.tickOver).shown = vc.shown := rfl
@[simp] theorem Voice.tickOver_pending (vc : Voice) : (vc.tickOver).pending = vc.pending := rfl

/-! ### `Rom.publish` -/

@[simp] theorem Rom.publish_stream (r : Rom) (vc : Voice) : (r.publish vc).stream = vc.stream := by
  simp only [Rom.publish, Voice.writePw_stream, Voice.writeAmp_stream, Voice.writeFreq_stream]
@[simp] theorem Rom.publish_cursor (r : Rom) (vc : Voice) : (r.publish vc).cursor = vc.cursor := by
  simp only [Rom.publish, Voice.writePw_cursor, Voice.writeAmp_cursor, Voice.writeFreq_cursor]
@[simp] theorem Rom.publish_len (r : Rom) (vc : Voice) : (r.publish vc).len = vc.len := by
  simp only [Rom.publish, Voice.writePw_len, Voice.writeAmp_len, Voice.writeFreq_len]
@[simp] theorem Rom.publish_finished (r : Rom) (vc : Voice) : (r.publish vc).finished = vc.finished := by
  simp only [Rom.publish, Voice.writePw_finished, Voice.writeAmp_finished, Voice.writeFreq_finished]
@[simp] theorem Rom.publish_playing (r : Rom) (vc : Voice) : (r.publish vc).playing = vc.playing := by
  simp only [Rom.publish, Voice.writePw_playing, Voice.writeAmp_playing, Voice.writeFreq_playing]
@[simp] theorem Rom.publish_nlenC (r : Rom) (vc : Voice) : (r.publish vc).nlenC = vc.nlenC := by
  simp only [Rom.publish, Voice.writePw_nlenC, Voice.writeAmp_nlenC, Voice.writeFreq_nlenC]
@[simp] theorem Rom.publish_qlenC (r : Rom) (vc : Voice) : (r.publish vc).qlenC = vc.qlenC := by
  simp only [Rom.publish, Voice.writePw_qlenC, Voice.writeAmp_qlenC, Voice.writeFreq_qlenC]
@[simp] theorem Rom.publish_noteLen (r : Rom) (vc : Voice) : (r.publish vc).noteLen = vc.noteLen := by
  simp only [Rom.publish, Voice.writePw_noteLen, Voice.writeAmp_noteLen, Voice.writeFreq_noteLen]
@[simp] theorem Rom.publish_quantLen (r : Rom) (vc : Voice) : (r.publish vc).quantLen = vc.quantLen := by
  simp only [Rom.publish, Voice.writePw_quantLen, Voice.writeAmp_quantLen, Voice.writeFreq_quantLen]
@[simp] theorem Rom.publish_semi (r : Rom) (vc : Voice) : (r.publish vc).semi = vc.semi := by
  simp only [Rom.publish, Voice.writePw_semi, Voice.writeAmp_semi, Voice.writeFreq_semi]
@[simp] theorem Rom.publish_octave (r : Rom) (vc : Voice) : (r.publish vc).octave = vc.octave := by
  simp only [Rom.publish, Voice.writePw_octave, Voice.writeAmp_octave, Voice.writeFreq_octave]
@[simp] theorem Rom.publish_volume (r : Rom) (vc : Voice) : (r.publish vc).volume = vc.volume := by
  simp only [Rom.publish, Voice.writePw_volume, Voice.writeAmp_volume, Voice.writeFreq_volume]
@[simp] theorem Rom.publish_transpose (r : Rom) (vc : Voice) : (r.publish vc).transpose = vc.transpose := by
  simp only [Rom.publish, Voice.writePw_transpose, Voice.writeAmp_transpose, Voice.writeFreq_transpose]
@[simp] theorem Rom.publish_detune (r : Rom) (vc : Voice) : (r.publish vc).detune = vc.detune := by
  simp only [Rom.publish, Voice.writePw_detune, Voice.writeAmp_detune, Voice.writeFreq_detune]
@[simp] theorem Rom.publish_timbre (r : Rom) (vc : Voice) : (r.publish vc).timbre = vc.timbre := by
  simp only [Rom.publish, Voice.writePw_timbre, Voice.writeAmp_timbre, Voice.writeFreq_timbre]
@[simp] theorem Rom.publish_sweepLen (r : Rom) (vc : Voice) : (r.publish vc).sweepLen = vc.sweepLen := by
  simp only [Rom.publish, Voice.writePw_sweepLen, Voice.writeAmp_sweepLen, Voice.writeFreq_sweepLen]
@[simp] theorem Rom.publish_sweepStep (r : Rom) (vc : Voice) : (r.publish vc).sweepStep = vc.sweepStep := by
  simp only [Rom.publish, Voice.writePw_sweepStep, Voice.writeAmp_sweepStep, Voice.writeFreq_sweepStep]
@[simp] theorem Rom.publish_sweepRem (r : Rom) (vc : Voice) : (r.publish vc).sweepRem = vc.sweepRem := by
  simp only [Rom.publish, Voice.writePw_sweepRem, Voice.writeAmp_sweepRem, Voice.writeFreq_sweepRem]
@[simp] theorem Rom.publish_sweepAcc (r : Rom) (vc : Voice) : (r.publish vc).sweepAcc = vc.sweepAcc := by
  simp only [Rom.publish, Voice.writePw_sweepAcc, Voice.writeAmp_sweepAcc, Voice.writeFreq_sweepAcc]
@[simp] theorem Rom.publish_tlpSet (r : Rom) (vc : Voice) : (r.publish vc).tlpSet = vc.tlpSet := by
  simp only [Rom.publish, Voice.writePw_tlpSet, Voice.writeAmp_tlpSet, Voice.writeFreq_tlpSet]
@[simp] theorem Rom.publish_tlp (r : Rom) (vc : Voice) : (r.publish vc).tlp = vc.tlp := by
  simp only [Rom.publish, Voice.writePw_tlp, Voice.writeAmp_tlp, Voice.writeFreq_tlp]
@[simp] theorem Rom.publish_lsp (r : Rom) (vc : Voice) : (r.publish vc).lsp = vc.lsp := by
  simp only [Rom.publish, Voice.writePw_lsp, Voice.writeAmp_lsp, Voice.writeFreq_lsp]
@[simp] theorem Rom.publish_ls (r : Rom) (vc : Voice) : (r.publish vc).ls = vc.ls := by
  simp only [Rom.publish, Voice.writePw_ls, Voice.writeAmp_ls, Voice.writeFreq_ls]
@[simp] theorem Rom.publish_env (r : Rom) (vc : Voice) : (r.publish vc).env = vc.env := by
  simp only [Rom.publish, Voice.writePw_env, Voice.writeAmp_env, Voice.writeFreq_env]
@[simp] theorem Rom.publish_err (r : Rom) (vc : Voice) : (r.publish vc).err = vc.err := by
  simp only [Rom.publish, Voice.writePw_err, Voice.writeAmp_err, Voice.writeFreq_err]
@[simp] theorem Rom.publish_gate (r : Rom) (vc : Voice) : (r.publish vc).gate = vc.gate := by
  simp only [Rom.publish, Voice.writePw_gate, Voice.writeAmp_gate, Voice.writeFreq_gate]
@[simp] theorem Rom.publish_freq (r : Rom) (vc : Voice) : (r.publish vc).freq = r.pubFreq vc := by
  simp only [Rom.publish, Voice.writePw_freq, Voice.writeAmp_freq, Voice.writeFreq_freq]
@[simp] theorem Rom.publish_amp (r : Rom) (vc : Voice) : (r.publish vc).amp = r.pubAmp vc := by
  simp only [Rom.publish, Voice.writePw_amp, Voice.writeAmp_amp]
@[simp] theorem Rom.publish_pw (r : Rom) (vc : Voice) : (r.publish vc).pw = vc.pubPw := by
  simp only [Rom.publish, Voice.writePw_pw]
@[simp] theorem Rom.publish_phase (r : Rom) (vc : Voice) : (r.publish vc).phase = vc.phase := by
  simp only [Rom.publish, Voice.writePw_phase, Voice.writeAmp_phase, Voice.writeFreq_phase]
@[simp] theorem Rom.publish_result (r : Rom) (vc : Voice) : (r.publish vc).result = vc.result := by
  simp only [Rom.publish, Voice.writePw_result, Voice.writeAmp_result, Voice.writeFreq_result]
@[simp] theorem Rom.publish_sample (r : Rom) (vc : Voice) : (r.publish vc).sample = vc.sample := by
  simp only [Rom.publish, Voice.writePw_sample, Voice.writeAmp_sample, Voice.writeFreq_sample]
@[simp] theorem Rom.publish_shown (r : Rom) (vc : Voice) : (r.publish vc).shown = vc.shown := by
  simp only [Rom.publish, Voice.writePw_shown, Voice.writeAmp_shown, Voice.writeFreq_shown]
@[simp] theorem Rom.publish_pending (r : Rom) (vc : Voice) :
    (r.publish vc).pending = vc.pending ++ [.freq (r.pubFreq vc), .amp (r.pubAmp vc), .pw vc.pubPw] := by
  simp [Rom.publish]

/-! ### `State.setVoice`, `State.endTick`, `State.raise` -/

@[simp] theorem State.setVoice_deploy (s : State) (v : Nat) (vc : Voice) : (s.setVoice v vc).deploy = s.deploy := rfl
@[simp] theorem State.setVoice_rom (s : State) (v : Nat) (vc : Voice) : (s.setVoice v vc).rom = s.rom := rfl
@[simp] theorem State.setVoice_engine (s : State) (v : Nat) (vc : Voice) : (s.setVoice v vc).engine = s.engine := rfl
@[simp] theorem State.setVoice_inputs (s : State) (v : Nat) (vc : Voice) : (s.setVoice v vc).inputs = s.inputs := rfl
@[simp] theorem State.setVoice_voices (s : State) (v : Nat) (vc : Voice) :
    (s.setVoice v vc).voices = s.voices.set v vc := rfl

@[simp] theorem State.endTick_deploy (s : State) (p : Pass) (vc : Voice) (e : Option ErrKind) :
    (s.endTick p vc e).deploy = s.deploy := rfl
@[simp] theorem State.endTick_rom (s : State) (p : Pass) (vc : Voice) (e : Option ErrKind) :
    (s.endTick p vc e).rom = s.rom := rfl
@[simp] theorem State.endTick_engine (s : State) (p : Pass) (vc : Voice) (e : Option ErrKind) :
    (s.endTick p vc e).engine = .between p.todo := rfl
@[simp] theorem State.endTick_inputs (s : State) (p : Pass) (vc : Voice) (e : Option ErrKind) :
    (s.endTick p vc e).inputs = s.inputs := rfl
@[simp] theorem State.endTick_voices (s : State) (p : Pass) (vc : Voice) (e : Option ErrKind) :
    (s.endTick p vc e).voices =
      s.voices.set p.voice { vc with result := { active := !vc.finished, error := e } } := rfl

@[simp] theorem State.raise_deploy (s : State) (p : Pass) (vc : Voice) (k : ErrKind) :
    (s.raise p vc k).deploy = s.deploy := rfl
@[simp] theorem State.raise_rom (s : State) (p : Pass) (vc : Voice) (k : ErrKind) :
    (s.raise p vc k).rom = s.rom := rfl
@[simp] theorem State.raise_engine (s : State) (p : Pass) (vc : Voice) (k : ErrKind) :
    (s.raise p vc k).engine = .between p.todo := rfl
@[simp] theorem State.raise_inputs (s : State) (p : Pass) (vc : Voice) (k : ErrKind) :
    (s.raise p vc k).inputs = s.inputs := rfl
@[simp] theorem State.raise_voices (s : State) (p : Pass) (vc : Voice) (k : ErrKind) :
    (s.raise p vc k).voices =
      s.voices.set p.voice { vc.raise k with result := { active := false, error := some k } } := rfl

/-- After `setVoice`, voice `v` is the new record and every other voice is as before. -/
theorem State.setVoice_get (s : State) (v w : Nat) (vc : Voice) :
    (s.setVoice v vc).voices[w]? = if v = w then (if v < s.voices.length then some vc else none) else s.voices[w]? := by
  simp only [State.setVoice_voices, List.getElem?_set]

/-- A voice that is there is the new record after `setVoice`. -/
theorem State.setVoice_self (s : State) (v : Nat) (vc old : Voice) (h : s.voices[v]? = some old) :
    (s.setVoice v vc).voices[v]? = some vc := by
  have hv : v < s.voices.length := (List.getElem?_eq_some_iff.mp h).1
  simp [hv]

/-- Every other voice is as before after `setVoice`. -/
theorem State.setVoice_other (s : State) (v w : Nat) (vc : Voice) (h : w ≠ v) :
    (s.setVoice v vc).voices[w]? = s.voices[w]? := by
  simp [Ne.symm h]

/-- Putting back a voice's own record changes nothing. -/
theorem State.setVoice_same (s : State) (v : Nat) (vc : Voice) (h : s.voices[v]? = some vc) : s.setVoice v vc = s := by
  obtain ⟨hv, he⟩ := List.getElem?_eq_some_iff.mp h
  have : s.voices.set v vc = s.voices := by rw [← he]; exact List.set_getElem_self hv
  cases s; simp_all [State.setVoice]

/-! ### Classes -/

@[simp] theorem Envs.get_put_self (es : Envs) (c : EnvClass) (e : Env) : (es.put c e).get c = e := by cases c <;> rfl

theorem Envs.get_put_other (es : Envs) (c d : EnvClass) (e : Env) (h : d ≠ c) : (es.put c e).get d = es.get d := by
  cases c <;> cases d <;> first | rfl | exact absurd rfl h

end Sys2Proof.Machine
end

