-- ==== Sys2Proof/Laws/Exec.lean ====
section
/-! SUPPORT. The shapes an instruction's execution can have, and what no instruction changes. -/

namespace Sys2Proof.Machine

/-- A NOTE opcode is `playNote` of its pitch class. -/
theorem exec_noteOf {n : Nat} {a : NoteArgs} {i : Instr} (hn : n < 13) (h : noteOf n a = some i) :
    ∃ semi : Fin 12, semi.val + 1 = n ∧ ∀ s, exec i s = playNote semi a s := by
  unfold noteOf at h
  split at h <;> simp only [Option.some.injEq, reduceCtorEq] at h <;> (try omega) <;> subst h
  · exact ⟨0, rfl, fun _ => rfl⟩
  · exact ⟨1, rfl, fun _ => rfl⟩
  · exact ⟨2, rfl, fun _ => rfl⟩
  · exact ⟨3, rfl, fun _ => rfl⟩
  · exact ⟨4, rfl, fun _ => rfl⟩
  · exact ⟨5, rfl, fun _ => rfl⟩
  · exact ⟨6, rfl, fun _ => rfl⟩
  · exact ⟨7, rfl, fun _ => rfl⟩
  · exact ⟨8, rfl, fun _ => rfl⟩
  · exact ⟨9, rfl, fun _ => rfl⟩
  · exact ⟨10, rfl, fun _ => rfl⟩
  · exact ⟨11, rfl, fun _ => rfl⟩

/-- Every instruction is END, a NOTE, REST, one of the three flow-control opcodes, an envelope selection, or a control
opcode that writes registers and the cursor. -/
theorem exec_shape (i : Instr) :
    i = .endStream ∨ (∃ (semi : Fin 12) (a : NoteArgs), noteOf (semi.val + 1) a = some i) ∨ (∃ a, i = .rest a) ∨
    i = .trackLoop ∨ (∃ u, i = .loopStart u) ∨ i = .loopEnd ∨
    (∃ c k, (∀ s, exec i s = selectEnv c k s)) ∨
    ∃ f : Voice → Voice, (∀ s, exec i s = controlOp s f) ∧
      ∀ vc : Voice, ∃ nl ql oc vo tr de ti sl ss cu, f vc =
        { vc with
          noteLen := nl, quantLen := ql, octave := oc, volume := vo, transpose := tr, detune := de, timbre := ti,
          sweepLen := sl, sweepStep := ss, cursor := cu } := by
  cases i
  case endStream => exact .inl rfl
  case noteC a => exact .inr (.inl ⟨0, a, rfl⟩)
  case noteCS a => exact .inr (.inl ⟨1, a, rfl⟩)
  case noteD a => exact .inr (.inl ⟨2, a, rfl⟩)
  case noteDS a => exact .inr (.inl ⟨3, a, rfl⟩)
  case noteE a => exact .inr (.inl ⟨4, a, rfl⟩)
  case noteF a => exact .inr (.inl ⟨5, a, rfl⟩)
  case noteFS a => exact .inr (.inl ⟨6, a, rfl⟩)
  case noteG a => exact .inr (.inl ⟨7, a, rfl⟩)
  case noteGS a => exact .inr (.inl ⟨8, a, rfl⟩)
  case noteA a => exact .inr (.inl ⟨9, a, rfl⟩)
  case noteAS a => exact .inr (.inl ⟨10, a, rfl⟩)
  case noteB a => exact .inr (.inl ⟨11, a, rfl⟩)
  case rest a => exact .inr (.inr (.inl ⟨a, rfl⟩))
  case trackLoop => exact .inr (.inr (.inr (.inl rfl)))
  case loopStart u => exact .inr (.inr (.inr (.inr (.inl ⟨u, rfl⟩))))
  case loopEnd => exact .inr (.inr (.inr (.inr (.inr (.inl rfl)))))
  case envVolume k => exact .inr (.inr (.inr (.inr (.inr (.inr (.inl ⟨.vol, k, fun _ => rfl⟩))))))
  case envNote k => exact .inr (.inr (.inr (.inr (.inr (.inr (.inl ⟨.note, k, fun _ => rfl⟩))))))
  case envTimbre k => exact .inr (.inr (.inr (.inr (.inr (.inr (.inl ⟨.timb, k, fun _ => rfl⟩))))))
  case envPitch k => exact .inr (.inr (.inr (.inr (.inr (.inr (.inl ⟨.pitch, k, fun _ => rfl⟩))))))
  all_goals
    exact .inr (.inr (.inr (.inr (.inr (.inr (.inr
      ⟨_, fun _ => rfl, fun vc => ⟨_, _, _, _, _, _, _, _, _, _, rfl⟩⟩))))))

/-- What no instruction changes: everything but the record of the pass's voice and the engine's place; and of that
record the stream, its length, the phase, the sample and the registers as the sample domain reads them. -/
theorem exec_frame {i : Instr} {s t : State} (h : exec i s = .next t) :
    ∃ p vc vc', s.engine = .pass p ∧ s.voices[p.voice]? = some vc ∧
      t = { s with voices := s.voices.set p.voice vc', engine := t.engine } ∧
      (t.engine = .between p.todo ∨ t.engine = .pass p ∨ t.engine = .pass { p with restarted := true }) ∧
      vc'.stream = vc.stream ∧ vc'.len = vc.len ∧ vc'.phase = vc.phase ∧ vc'.sample = vc.sample ∧
      vc'.shown = vc.shown := by
  rcases exec_shape i with rfl | ⟨semi, a, hn⟩ | ⟨a, rfl⟩ | rfl | ⟨u, rfl⟩ | rfl | ⟨c, k, he⟩ | ⟨f, he, hf⟩
  · obtain ⟨p, vc, h1, h2, h3⟩ := execEnd_next h
    rcases h3 with ⟨-, -, rfl⟩ | ⟨-, -, rfl⟩ | ⟨-, rfl⟩
    · exact ⟨p, vc, _, h1, h2, rfl, .inl rfl, rfl, rfl, rfl, rfl, rfl⟩
    · exact ⟨p, vc, _, h1, h2, rfl, .inr (.inr rfl), rfl, rfl, rfl, rfl, rfl⟩
    · exact ⟨p, vc, _, h1, h2, rfl, .inl rfl, rfl, rfl, rfl, rfl, rfl⟩
  · obtain ⟨semi', -, he⟩ := exec_noteOf (by omega) hn
    rw [he] at h
    obtain ⟨p, vc, es, h1, h2, h3, rfl⟩ := playNote_next h
    exact ⟨p, vc, _, h1, h2, rfl, .inl rfl, rfl, rfl, rfl, rfl, rfl⟩
  · obtain ⟨p, vc, h1, h2, rfl⟩ := execRest_next h
    exact ⟨p, vc, _, h1, h2, rfl, .inl rfl, rfl, rfl, rfl, rfl, rfl⟩
  · obtain ⟨p, vc, h1, h2, rfl⟩ := controlOp_next h
    exact ⟨p, vc, _, h1, h2, rfl, .inr (.inl h1), rfl, rfl, rfl, rfl, rfl⟩
  · obtain ⟨p, vc, h1, h2, ⟨hl, rfl⟩ | ⟨-, rfl⟩⟩ := execLoopStart_next h
    · exact ⟨p, vc, _, h1, h2, rfl, .inr (.inl h1), rfl, rfl, rfl, rfl, rfl⟩
    · exact ⟨p, vc, _, h1, h2, rfl, .inl rfl, rfl, rfl, rfl, rfl, rfl⟩
  · obtain ⟨p, vc, h1, h2, ⟨j, hj, -, ⟨-, rfl⟩ | ⟨-, rfl⟩⟩ | ⟨-, rfl⟩⟩ := execLoopEnd_next h
    · exact ⟨p, vc, _, h1, h2, rfl, .inr (.inl h1), rfl, rfl, rfl, rfl, rfl⟩
    · exact ⟨p, vc, _, h1, h2, rfl, .inr (.inl h1), rfl, rfl, rfl, rfl, rfl⟩
    · exact ⟨p, vc, _, h1, h2, rfl, .inl rfl, rfl, rfl, rfl, rfl, rfl⟩
  · rw [he] at h
    obtain ⟨p, vc, h1, h2, ⟨-, rfl⟩ | ⟨-, rfl⟩⟩ := selectEnv_next h
    · exact ⟨p, vc, _, h1, h2, rfl, .inr (.inl h1), rfl, rfl, rfl, rfl, rfl⟩
    · exact ⟨p, vc, _, h1, h2, rfl, .inl rfl, rfl, rfl, rfl, rfl, rfl⟩
  · rw [he] at h
    obtain ⟨p, vc, h1, h2, rfl⟩ := controlOp_next h
    obtain ⟨nl, ql, oc, vo, tr, de, ti, sl, ss, cu, e⟩ := hf vc
    exact ⟨p, vc, f vc, h1, h2, rfl, .inr (.inl h1), by rw [e], by rw [e], by rw [e], by rw [e], by rw [e]⟩

end Sys2Proof.Machine
end

