-- ==== Sys2Proof/Laws/Memory.lean ====
section
/-! SUPPORT. The byte spaces: every operation keeps the canonical form, and what reads give after writes. -/

namespace Sys2Proof.Machine

theorem Memory.wfFrom_mono {m : Memory} {lo hi : Nat} (h : lo ≤ hi) (w : Memory.wfFrom hi m = true) :
    Memory.wfFrom lo m = true := by
  cases m with
  | nil => rfl
  | cons c m =>
    obtain ⟨k, b⟩ := c
    simp only [Memory.wfFrom, Bool.and_eq_true, decide_eq_true_eq] at w ⊢
    exact ⟨⟨Nat.le_trans h w.1.1, w.1.2⟩, w.2⟩

/-- An address below every listed one reads as unlisted. -/
theorem Memory.read_below {m : Memory} {lo a : Nat} (w : Memory.wfFrom lo m = true) (h : a < lo) :
    m.read a = unlistedByte := by
  induction m generalizing lo with
  | nil => rfl
  | cons c m ih =>
    obtain ⟨k, b⟩ := c
    simp only [Memory.wfFrom, Bool.and_eq_true, decide_eq_true_eq] at w
    have hk : k ≠ a := by omega
    simp only [Memory.read, hk, if_false]
    exact ih w.2 (by omega)

/-- A write keeps the canonical form. -/
theorem Memory.write_wfFrom {m : Memory} {lo a : Nat} (b : Byte) (w : Memory.wfFrom lo m = true) (h : lo ≤ a) :
    Memory.wfFrom lo (m.write a b) = true := by
  induction m generalizing lo with
  | nil =>
    by_cases hb : b = unlistedByte <;> simp [Memory.write, Memory.wfFrom, hb, h]
  | cons c m ih =>
    obtain ⟨k, x⟩ := c
    have w' := w
    simp only [Memory.wfFrom, Bool.and_eq_true, decide_eq_true_eq] at w
    obtain ⟨⟨hlo, hx⟩, hm⟩ := w
    simp only [Memory.write]
    split
    · split
      · exact w'
      · simp only [Memory.wfFrom, Bool.and_eq_true, decide_eq_true_eq]
        exact ⟨⟨h, by assumption⟩, ⟨by omega, hx⟩, hm⟩
    · split
      · split
        · exact Memory.wfFrom_mono (by omega) hm
        · simp only [Memory.wfFrom, Bool.and_eq_true, decide_eq_true_eq]
          subst_vars
          exact ⟨⟨hlo, by assumption⟩, hm⟩
      · simp only [Memory.wfFrom, Bool.and_eq_true, decide_eq_true_eq]
        exact ⟨⟨hlo, hx⟩, ih hm (by omega)⟩

/-- A write keeps the canonical form. -/
theorem Memory.write_wf {m : Memory} (a : Nat) (b : Byte) (w : m.wf = true) : (m.write a b).wf = true :=
  Memory.write_wfFrom b w (Nat.zero_le a)

/-- Writing several bytes keeps the canonical form. -/
theorem Memory.writeMany_wf {m : Memory} (a : Nat) (bs : List Byte) (w : m.wf = true) : (m.writeMany a bs).wf = true := by
  induction bs generalizing m a with
  | nil => exact w
  | cons b bs ih => exact ih (a + 1) (Memory.write_wf a b w)

/-- A byte reads as the last one written to its address. -/
theorem Memory.read_write_self {m : Memory} {lo a : Nat} (b : Byte) (w : Memory.wfFrom lo m = true) :
    (m.write a b).read a = b := by
  induction m generalizing lo with
  | nil => by_cases hb : b = unlistedByte <;> simp [Memory.write, Memory.read, hb]
  | cons c m ih =>
    obtain ⟨k, x⟩ := c
    simp only [Memory.wfFrom, Bool.and_eq_true, decide_eq_true_eq] at w
    simp only [Memory.write]
    split
    · split
      · have hk : k ≠ a := by omega
        simp only [Memory.read, hk, if_false]
        rw [Memory.read_below w.2 (by omega)]
        exact Eq.symm (by assumption)
      · simp [Memory.read]
    · split
      · split
        · subst_vars
          exact Memory.read_below w.2 (by omega)
        · simp [Memory.read]
      · have hk : k ≠ a := by omega
        simp only [Memory.read, hk, if_false]
        exact ih w.2

/-- A write leaves every other address alone. -/
theorem Memory.read_write_other (m : Memory) {a c : Nat} (b : Byte) (h : c ≠ a) : (m.write a b).read c = m.read c := by
  induction m with
  | nil => by_cases hb : b = unlistedByte <;> simp [Memory.write, Memory.read, hb, Ne.symm h]
  | cons e m ih =>
    obtain ⟨k, x⟩ := e
    simp only [Memory.write]
    split
    · split
      · rfl
      · simp [Memory.read, Ne.symm h]
    · split
      · subst_vars
        split <;> simp [Memory.read, Ne.symm h]
      · simp only [Memory.read, ih]

/-- The memory of a list of bytes is canonical. -/
theorem Memory.ofBytes_wfFrom (a : Nat) (bs : List Byte) : Memory.wfFrom a (Memory.ofBytes a bs) = true := by
  induction bs generalizing a with
  | nil => rfl
  | cons b bs ih =>
    simp only [Memory.ofBytes]
    split
    · exact Memory.wfFrom_mono (Nat.le_succ a) (ih (a + 1))
    · simp only [Memory.wfFrom, Bool.and_eq_true, decide_eq_true_eq]
      exact ⟨⟨Nat.le_refl a, by assumption⟩, ih (a + 1)⟩

/-- The memory of a list of bytes is canonical. -/
theorem Memory.ofBytes_wf (a : Nat) (bs : List Byte) : (Memory.ofBytes a bs).wf = true :=
  Memory.wfFrom_mono (Nat.zero_le a) (Memory.ofBytes_wfFrom a bs)

/-- The memory of a list of bytes reads as that list. -/
theorem Memory.read_ofBytes (a i : Nat) (bs : List Byte) :
    (Memory.ofBytes a bs).read (a + i) = bs[i]?.getD unlistedByte := by
  induction bs generalizing a i with
  | nil => simp [Memory.ofBytes, Memory.read]
  | cons b bs ih =>
    cases i with
    | zero =>
      simp only [Memory.ofBytes, Nat.add_zero]
      split
      · rw [Memory.read_below (Memory.ofBytes_wfFrom (a + 1) bs) (Nat.lt_succ_self a)]
        simp_all
      · simp [Memory.read]
    | succ i =>
      have e : a + (i + 1) = (a + 1) + i := by omega
      have hne : a ≠ a + (i + 1) := by omega
      simp only [Memory.ofBytes]
      split
      · rw [e, ih]; simp
      · simp only [Memory.read, hne, if_false]
        rw [e, ih]; simp

@[simp] theorem Memory.readMany_length (m : Memory) (a n : Nat) : (m.readMany a n).length = n := by
  induction n generalizing a with
  | zero => rfl
  | succ n ih => simp [Memory.readMany, ih]

/-- The bytes of a range, one by one. -/
theorem Memory.readMany_get (m : Memory) (a n i : Nat) :
    (m.readMany a n)[i]? = if i < n then some (m.read (a + i)) else none := by
  induction n generalizing a i with
  | zero => simp [Memory.readMany]
  | succ n ih =>
    cases i with
    | zero => simp [Memory.readMany]
    | succ i =>
      have e : a + 1 + i = a + (i + 1) := by omega
      simp [Memory.readMany, ih, e]

/-- A range that holds a list of bytes reads as that list. -/
theorem Memory.readMany_eq (m : Memory) (a : Nat) (bs : List Byte)
    (h : ∀ j b, bs[j]? = some b → m.read (a + j) = b) : m.readMany a bs.length = bs := by
  apply List.ext_getElem?
  intro i
  rw [Memory.readMany_get]
  split
  · next hi =>
    rw [List.getElem?_eq_getElem hi, h i bs[i] (List.getElem?_eq_getElem hi)]
  · next hi => rw [List.getElem?_eq_none (by omega)]

/-! ### The sequence memory -/

/-- No byte of the memory of a list is at or above its end. -/
theorem Memory.read_ofBytes_above (a c : Nat) (bs : List Byte) (h : a + bs.length ≤ c) :
    (Memory.ofBytes a bs).read c = unlistedByte := by
  have := Memory.read_ofBytes a (c - a) bs
  rw [show a + (c - a) = c by omega, List.getElem?_eq_none (by omega)] at this
  exact this

/-- Canonical memories one above the other join to a canonical one. -/
theorem Memory.wfFrom_append {m n : Memory} {lo hi : Nat} (hm : Memory.wfFrom lo m = true) (hn : Memory.wfFrom hi n = true)
    (hb : ∀ c ∈ m, c.1 < hi) (hl : lo ≤ hi) : Memory.wfFrom lo (m ++ n) = true := by
  induction m generalizing lo with
  | nil => exact Memory.wfFrom_mono hl hn
  | cons c m ih =>
    obtain ⟨k, b⟩ := c
    simp only [List.cons_append, Memory.wfFrom, Bool.and_eq_true, decide_eq_true_eq] at hm ⊢
    have hk : k < hi := hb (k, b) (by simp)
    exact ⟨hm.1, ih hm.2 (fun c hc => hb c (by simp [hc])) (by omega)⟩

/-- The addresses of the memory of a list. -/
theorem Memory.ofBytes_lt (a : Nat) (bs : List Byte) : ∀ c ∈ Memory.ofBytes a bs, c.1 < a + bs.length := by
  induction bs generalizing a with
  | nil => simp [Memory.ofBytes]
  | cons b bs ih =>
    intro c hc
    simp only [Memory.ofBytes] at hc
    split at hc
    · have := ih (a + 1) c hc
      simp only [List.length_cons]; omega
    · rcases List.mem_cons.mp hc with rfl | hc
      · simp only [List.length_cons]; omega
      · have := ih (a + 1) c hc
        simp only [List.length_cons]; omega

/-- Reading a joined memory. -/
theorem Memory.read_append_left {m n : Memory} {lo hi a : Nat} (hn : Memory.wfFrom hi n = true) (ha : a < hi)
    (hm : Memory.wfFrom lo m = true) : Memory.read (m ++ n) a = Memory.read m a := by
  induction m generalizing lo with
  | nil => exact Memory.read_below hn ha
  | cons c m ih =>
    obtain ⟨k, b⟩ := c
    simp only [Memory.wfFrom, Bool.and_eq_true, decide_eq_true_eq] at hm
    simp only [List.cons_append, Memory.read]
    rw [ih hm.2]

/-- Reading a joined memory above its first part. -/
theorem Memory.read_append_right {m n : Memory} {hi a : Nat} (hb : ∀ c ∈ m, c.1 < hi) (ha : hi ≤ a) :
    Memory.read (m ++ n) a = Memory.read n a := by
  induction m with
  | nil => rfl
  | cons c m ih =>
    obtain ⟨k, b⟩ := c
    have hk : k < hi := hb (k, b) (by simp)
    have hne : k ≠ a := by omega
    simp only [List.cons_append, Memory.read, hne, if_false]
    exact ih fun c hc => hb c (by simp [hc])

/-- The sequence memory of sequences of at most 256 bytes is canonical. -/
theorem seqMemOf_wf (k : Nat) (ss : List (List Byte)) (h : ∀ s ∈ ss, s.length ≤ 256) :
    Memory.wfFrom (256 * k) (seqMemOf k ss) = true := by
  induction ss generalizing k with
  | nil => rfl
  | cons s ss ih =>
    have hs : s.length ≤ 256 := h s (by simp)
    refine Memory.wfFrom_append (Memory.ofBytes_wfFrom _ _) (ih (k + 1) fun q hq => h q (by simp [hq])) ?_ (by omega)
    intro c hc
    have := Memory.ofBytes_lt _ _ c hc
    omega

/-- Byte `i` of sequence `n` in the sequence memory. -/
theorem read_seqMemOf (k n i : Nat) (ss : List (List Byte)) (s : List Byte) (b : Byte)
    (h : ∀ s ∈ ss, s.length ≤ 256) (hs : ss[n]? = some s) (hb : s[i]? = some b) :
    (seqMemOf k ss).read (256 * (k + n) + i) = b := by
  induction ss generalizing k n with
  | nil => simp at hs
  | cons q ss ih =>
    have hq : q.length ≤ 256 := h q (by simp)
    have hss : ∀ s ∈ ss, s.length ≤ 256 := fun s hs => h s (by simp [hs])
    cases n with
    | zero =>
      simp only [List.getElem?_cons_zero, Option.some.injEq] at hs
      subst hs
      have hi : i < q.length := (List.getElem?_eq_some_iff.mp hb).1
      simp only [seqMemOf, Nat.add_zero]
      rw [Memory.read_append_left (seqMemOf_wf (k + 1) ss hss) (by omega) (Memory.ofBytes_wfFrom _ _),
        Memory.read_ofBytes, hb]
      rfl
    | succ n =>
      simp only [List.getElem?_cons_succ] at hs
      simp only [seqMemOf]
      rw [Memory.read_append_right (hi := 256 * (k + 1)) (fun c hc => by
        have := Memory.ofBytes_lt _ _ c hc
        omega) (by omega)]
      have := ih (k + 1) n hss hs
      rw [show k + 1 + n = k + (n + 1) by omega] at this
      exact this

/-- A loaded sequence reads back byte for byte. -/
theorem Rom.seqBytes_ofSeqs (ft : Vector Word 12) (am : Vector Byte 16) (seqs : List (List Byte)) (k : Byte)
    (q : List Byte) (h : ∀ s ∈ seqs, s.length ≤ 255) (hq : seqs[k.toNat]? = some q) :
    (Rom.ofSeqs ft am seqs).seqBytes k = q := by
  have hlen : q.length ≤ 255 := h q (List.mem_of_getElem? hq)
  have hn : (BitVec.ofNat 8 q.length).toNat = q.length := by
    rw [BitVec.toNat_ofNat]; omega
  simp only [Rom.seqBytes, Rom.ofSeqs, List.getElem?_map, hq, Option.map_some, hn]
  apply Memory.readMany_eq
  intro j b hj
  have := read_seqMemOf 0 k.toNat j seqs q b (fun s hs => Nat.le_succ_of_le (h s hs)) hq hj
  simpa [seqBase] using this

end Sys2Proof.Machine
end

