-- ==== Sys2Proof/Laws/Stepper.lean ====
section
/-! SUPPORT. The sequence stepper: what the derived quantities say byte by byte, and that a scan of a validated sequence
yields within its bound. -/

namespace Sys2Proof.Machine

/-! ### The bytes of a sequence -/

/-- A sequence of the sequence memory has `SEQ_LEN[k]` bytes. -/
theorem Rom.seqBytes_length {r : Rom} {k n : Byte} (h : r.seqLen[k.toNat]? = some n) :
    (r.seqBytes k).length = n.toNat := by simp [Rom.seqBytes, h]

/-- The length of a prefix that stops at the first `z` is the first index of `z`. -/
theorem takeWhile_ne_index (z : Byte) (l : List Byte) :
    (∀ i, i < (l.takeWhile (· != z)).length → l[i]? ≠ some z ∧ l[i]? = (l.takeWhile (· != z))[i]?) ∧
      (z ∈ l → l[(l.takeWhile (· != z)).length]? = some z) := by
  induction l with
  | nil => simp
  | cons b l ih =>
    by_cases hb : b = z
    · subst hb; simp
    · have e : (b :: l).takeWhile (· != z) = b :: l.takeWhile (· != z) := by simp [hb]
      rw [e]
      refine ⟨fun i hi => ?_, fun h => ?_⟩
      · cases i with
        | zero => simp [hb]
        | succ i => simpa using ih.1 i (by simpa using hi)
      · have : z ∈ l := by simpa [Ne.symm hb] using h
        simpa using ih.2 this

/-- A byte before the first end marker is that of the body, and no end marker. -/
theorem Rom.seqRead_body (r : Rom) (k : Byte) (i : Nat) (h : i < r.endIdx k) :
    r.seqRead k i = (r.seqBody k)[i]? ∧ r.seqRead k i ≠ some Config.seqEnd :=
  ⟨((takeWhile_ne_index Config.seqEnd (r.seqBytes k)).1 i h).2,
    ((takeWhile_ne_index Config.seqEnd (r.seqBytes k)).1 i h).1⟩

/-- What validation says, byte by byte: the first end marker is there, and a looping sequence has a data byte before
the place where it branches back. -/
theorem Rom.seqValid_spec {r : Rom} {k : Byte} (h : r.seqValid k = true) :
    r.seqRead k (r.endIdx k) = some Config.seqEnd ∧ r.endIdx k < 255 ∧
      (r.hasLoop k = true → ∃ d x, d < r.loopEnd k ∧ r.seqRead k d = some x ∧ isData x = true) := by
  simp only [Rom.seqValid, Bool.and_eq_true, decide_eq_true_eq, List.contains_iff_mem, Bool.or_eq_true,
    Bool.not_eq_true'] at h
  obtain ⟨⟨⟨⟨hk, he⟩, -⟩, -⟩, hd⟩ := h
  have h1 : r.seqRead k (r.endIdx k) = some Config.seqEnd := (takeWhile_ne_index Config.seqEnd _).2 he
  have hlen : (r.seqBytes k).length = (r.seqLen[k.toNat]).toNat :=
    Rom.seqBytes_length (List.getElem?_eq_getElem hk)
  have h2 : r.endIdx k < (r.seqBytes k).length := (List.getElem?_eq_some_iff.mp h1).1
  have h3 := (r.seqLen[k.toNat]).isLt
  refine ⟨h1, by omega, fun hl => ?_⟩
  rcases hd with hd | hd
  · simp [hl] at hd
  · obtain ⟨x, hx, hdx⟩ := List.any_eq_true.mp hd
    obtain ⟨i, hi, e⟩ := List.getElem_of_mem hx
    have hlt : i < r.loopEnd k ∧ i < (r.seqBody k).length := by
      simp only [List.length_take] at hi; omega
    refine ⟨i, x, hlt.1, ?_, hdx⟩
    rw [(r.seqRead_body k i hlt.2).1, List.getElem?_eq_getElem hlt.2, ← e, List.getElem_take]

/-- No byte before `RelIdx` is a release marker, and `RelIdx` is before the end marker. -/
theorem Rom.relIdx_spec {r : Rom} {k : Byte} {i : Nat} (h : r.relIdx k = some i) :
    i < r.endIdx k ∧ r.seqRead k i = some Config.seqRel ∧ ∀ j, j < i → r.seqRead k j ≠ some Config.seqRel := by
  obtain ⟨hi, h1, h2⟩ := List.findIdx?_eq_some_iff_getElem.mp h
  refine ⟨hi, ?_, fun j hj e => ?_⟩
  · rw [(r.seqRead_body k i hi).1, List.getElem?_eq_getElem hi]
    simpa using h1
  · have := h2 j hj
    rw [(r.seqRead_body k j (by simp only [Rom.endIdx]; omega)).1, List.getElem?_eq_getElem (by omega)] at e
    simp_all

/-- With no `RelIdx`, no byte before the end marker is a release marker. -/
theorem Rom.relIdx_none {r : Rom} {k : Byte} (h : r.relIdx k = none) (j : Nat) (hj : j < r.endIdx k) :
    r.seqRead k j ≠ some Config.seqRel := by
  rw [(r.seqRead_body k j hj).1]
  intro e
  have := List.findIdx?_eq_none_iff.mp h Config.seqRel (List.mem_of_getElem? e)
  simp at this

/-- `LoopEnd` is at or before the end marker, and no byte before it is a release marker. -/
theorem Rom.loopEnd_spec (r : Rom) (k : Byte) :
    r.loopEnd k ≤ r.endIdx k ∧ ∀ j, j < r.loopEnd k → r.seqRead k j ≠ some Config.seqRel := by
  cases h : r.relIdx k with
  | none => simpa [Rom.loopEnd, h] using Rom.relIdx_none h
  | some i =>
    have := Rom.relIdx_spec h
    simp only [Rom.loopEnd, h, Option.getD_some]
    exact ⟨by omega, this.2.2⟩

/-! ### One turn, and the scan -/

/-- What one turn at a place of a validated sequence can do: go on to the next byte, go back to byte 0, hold at the end
marker, or yield a data byte. -/
theorem Rom.envScan_cases {r : Rom} {e : Env} (hv : r.seqValid e.idx = true) (hp : e.pos.toNat ≤ r.endIdx e.idx) :
    (e.pos.toNat < r.endIdx e.idx ∧ ∃ b, (b = e.rel ∨ (b = true ∧ r.hasLoop e.idx = false)) ∧
        r.envScan e = .goesOn { e with rel := b, pos := e.pos + 1 } ∧
        ∀ x, r.seqRead e.idx e.pos.toNat = some x → isData x = false) ∨
      (e.rel = false ∧ r.hasLoop e.idx = true ∧ r.loopEnd e.idx ≤ e.pos.toNat ∧
        r.envScan e = .goesOn { e with pos := 0 }) ∨
      ((e.rel = true ∨ r.hasLoop e.idx = false) ∧ r.seqRead e.idx e.pos.toNat = some Config.seqEnd ∧
        r.envScan e = .yields e) ∨
      (e.pos.toNat < r.endIdx e.idx ∧ ∃ x, r.seqRead e.idx e.pos.toNat = some x ∧ isData x = true ∧
        r.envScan e = .yields { e with val := x, pos := e.pos + 1 }) := by
  obtain ⟨h1, h2, -⟩ := Rom.seqValid_spec hv
  have hle := r.loopEnd_spec e.idx
  by_cases hE : e.pos.toNat = r.endIdx e.idx
  · have hr : r.seqRead e.idx e.pos.toNat = some Config.seqEnd := by rw [hE]; exact h1
    cases hrel : e.rel <;> cases hl : r.hasLoop e.idx
    · right; right; left
      exact ⟨.inr rfl, hr, by simp [Rom.envScan, hr, hl, Config.seqEnd, Config.seqLoop, Config.seqRel]⟩
    · right; left
      exact ⟨rfl, rfl, by omega, by simp [Rom.envScan, hr, hrel, hl, Config.seqEnd, Config.seqLoop, Config.seqRel]⟩
    · right; right; left
      exact ⟨.inl rfl, hr, by simp [Rom.envScan, hr, hl, Config.seqEnd, Config.seqLoop, Config.seqRel]⟩
    · right; right; left
      exact ⟨.inl rfl, hr, by simp [Rom.envScan, hr, hrel, Config.seqEnd, Config.seqLoop, Config.seqRel]⟩
  · have hlt : e.pos.toNat < r.endIdx e.idx := by omega
    obtain ⟨hb, hne⟩ := r.seqRead_body e.idx _ hlt
    rw [List.getElem?_eq_getElem hlt] at hb
    generalize (r.seqBody e.idx)[e.pos.toNat] = x at hb
    by_cases hx : x = Config.seqLoop
    · left
      subst hx
      exact ⟨hlt, e.rel, .inl rfl, by simp [Rom.envScan, hb], by simp [hb, isData]⟩
    · by_cases hy : x = Config.seqRel
      · subst hy
        have hge : r.loopEnd e.idx ≤ e.pos.toNat := by
          by_contra hc
          exact hle.2 _ (by omega) hb
        cases hrel : e.rel <;> cases hl : r.hasLoop e.idx
        · left
          exact ⟨hlt, true, .inr ⟨rfl, rfl⟩, by simp [Rom.envScan, hb, hl, Config.seqLoop, Config.seqRel],
            by simp [hb, isData]⟩
        · right; left
          exact ⟨rfl, rfl, hge, by simp [Rom.envScan, hb, hrel, hl, Config.seqLoop, Config.seqRel]⟩
        · left
          exact ⟨hlt, true, .inl rfl, by simp [Rom.envScan, hb, hl, Config.seqLoop, Config.seqRel],
            by simp [hb, isData]⟩
        · left
          exact ⟨hlt, true, .inl rfl, by simp [Rom.envScan, hb, hrel, Config.seqLoop, Config.seqRel],
            by simp [hb, isData]⟩
      · right; right; right
        have hz : x ≠ Config.seqEnd := fun c => hne (by rw [hb, c])
        exact ⟨hlt, x, hb, by simp [isData, hx, hy, hz], by simp [Rom.envScan, hb, hx, hy, hz]⟩

/-- What a scan leaves: the selection as it was, a place at or before the end marker, and a value that is data or the
one held before. -/
def Rom.Kept (r : Rom) (e e' : Env) : Prop :=
  e'.sel = e.sel ∧ e'.idx = e.idx ∧ e'.pos.toNat ≤ r.endIdx e.idx ∧ (e'.val = e.val ∨ isData e'.val = true)

/-- A scan that cannot branch back yields within the bytes that are left. -/
theorem Rom.envTurns_forward {r : Rom} (n : Nat) (e : Env) (hv : r.seqValid e.idx = true)
    (hp : e.pos.toNat ≤ r.endIdx e.idx) (hr : e.rel = true ∨ r.hasLoop e.idx = false)
    (hn : r.endIdx e.idx - e.pos.toNat < n) : ∃ e', r.envTurns n e = .ok e' ∧ r.Kept e e' := by
  obtain ⟨-, h2, -⟩ := Rom.seqValid_spec hv
  induction n generalizing e with
  | zero => omega
  | succ n ih =>
    rcases Rom.envScan_cases hv hp with ⟨hlt, b, hb, hs, -⟩ | ⟨hf, hl, -⟩ | ⟨-, -, hs⟩ | ⟨hlt, x, -, hd, hs⟩
    · have hpos : (e.pos + 1).toNat = e.pos.toNat + 1 := by rw [BitVec.toNat_add]; simp; omega
      have hr' : b = true ∨ r.hasLoop e.idx = false := by
        rcases hb with rfl | ⟨rfl, -⟩
        · exact hr
        · exact .inl rfl
      obtain ⟨e', h, hk⟩ := ih { e with rel := b, pos := e.pos + 1 } hv (by simp only [hpos]; omega) hr'
        (by simp only [hpos]; omega) h2
      refine ⟨e', ?_, hk⟩
      simp only [Rom.envTurns, hs, h]
    · rcases hr with hr | hr
      · rw [hf] at hr; cases hr
      · rw [hl] at hr; cases hr
    · exact ⟨e, by simp only [Rom.envTurns, hs], rfl, rfl, hp, .inl rfl⟩
    · refine ⟨{ e with val := x, pos := e.pos + 1 }, by simp only [Rom.envTurns, hs], rfl, rfl, ?_, .inr hd⟩
      have : (e.pos + 1).toNat = e.pos.toNat + 1 := by rw [BitVec.toNat_add]; simp; omega
      simp only [this]; omega

/-- An unreleased scan of a looping sequence yields at the latest at a data byte that lies before the place where it
branches back. -/
theorem Rom.envTurns_toData {r : Rom} (n : Nat) (e : Env) (d : Nat) (x : Byte) (hv : r.seqValid e.idx = true)
    (hd : d < r.loopEnd e.idx) (hx : r.seqRead e.idx d = some x) (hdx : isData x = true) (hp : e.pos.toNat ≤ d)
    (hl : r.hasLoop e.idx = true) (hn : d - e.pos.toNat < n) : ∃ e', r.envTurns n e = .ok e' ∧ r.Kept e e' := by
  obtain ⟨-, h2, -⟩ := Rom.seqValid_spec hv
  have hle := (r.loopEnd_spec e.idx).1
  induction n generalizing e with
  | zero => omega
  | succ n ih =>
    rcases Rom.envScan_cases hv (by omega) with ⟨hlt, b, hb, hs, hnd⟩ | ⟨-, -, hge, -⟩ | ⟨-, hE, -⟩ | ⟨hlt, y, -, hdy, hs⟩
    · have hpos : (e.pos + 1).toNat = e.pos.toNat + 1 := by rw [BitVec.toNat_add]; simp; omega
      have hne : e.pos.toNat ≠ d := by
        intro c
        rw [c] at hnd
        have := hnd x hx
        rw [hdx] at this; cases this
      obtain ⟨e', h, hk⟩ := ih { e with rel := b, pos := e.pos + 1 } hv hd hx (by simp only [hpos]; omega) hl
        (by simp only [hpos]; omega) h2 hle
      refine ⟨e', ?_, hk⟩
      simp only [Rom.envTurns, hs, h]
    · omega
    · exact absurd hE (r.seqRead_body e.idx _ (by omega)).2
    · refine ⟨{ e with val := y, pos := e.pos + 1 }, by simp only [Rom.envTurns, hs], rfl, rfl, ?_, .inr hdy⟩
      have : (e.pos + 1).toNat = e.pos.toNat + 1 := by rw [BitVec.toNat_add]; simp; omega
      simp only [this]; omega

/-- Every scan of a validated sequence yields within `2 · EndIdx + 1` turns. -/
theorem Rom.envTurns_yields {r : Rom} (n : Nat) (e : Env) (hv : r.seqValid e.idx = true)
    (hp : e.pos.toNat ≤ r.endIdx e.idx) (hn : 2 * r.endIdx e.idx - e.pos.toNat < n) :
    ∃ e', r.envTurns n e = .ok e' ∧ r.Kept e e' := by
  obtain ⟨-, h2, h3⟩ := Rom.seqValid_spec hv
  have hle := (r.loopEnd_spec e.idx).1
  by_cases hr : e.rel = true ∨ r.hasLoop e.idx = false
  · exact Rom.envTurns_forward n e hv hp hr (by omega)
  · have hl : r.hasLoop e.idx = true := by
      cases h : r.hasLoop e.idx
      · exact absurd (.inr h) hr
      · rfl
    obtain ⟨d, x, hd, hx, hdx⟩ := h3 hl
    induction n generalizing e with
    | zero => omega
    | succ n ih =>
      rcases Rom.envScan_cases hv hp with ⟨hlt, b, hb, hs, -⟩ | ⟨-, -, hge, hs⟩ | ⟨hc, -, -⟩ | ⟨hlt, y, -, hdy, hs⟩
      · have hpos : (e.pos + 1).toNat = e.pos.toNat + 1 := by rw [BitVec.toNat_add]; simp; omega
        rcases hb with rfl | ⟨rfl, hf⟩
        · obtain ⟨e', h, hk⟩ := ih { e with rel := e.rel, pos := e.pos + 1 } hv (by simp only [hpos]; omega)
            (by simp only [hpos]; omega) h2 h3 hle hr hl hd hx
          refine ⟨e', ?_, hk⟩
          simp only [Rom.envTurns, hs, h]
        · rw [hl] at hf; cases hf
      · obtain ⟨e', h, hk⟩ := Rom.envTurns_toData n { e with pos := 0 } d x hv hd hx hdx (by simp) hl
          (by simp only; have : (0 : Byte).toNat = 0 := rfl; omega)
        refine ⟨e', ?_, hk⟩
        simp only [Rom.envTurns, hs, h]
      · exact absurd hc hr
      · refine ⟨{ e with val := y, pos := e.pos + 1 }, by simp only [Rom.envTurns, hs], rfl, rfl, ?_, .inr hdy⟩
        have : (e.pos + 1).toNat = e.pos.toNat + 1 := by rw [BitVec.toNat_add]; simp; omega
        simp only [this]; omega

/-- More turns do not change what a scan yields. -/
theorem Rom.envTurns_mono {r : Rom} {n m : Nat} {e e' : Env} (h : r.envTurns n e = .ok e') (hm : n ≤ m) :
    r.envTurns m e = .ok e' := by
  induction n generalizing m e with
  | zero => simp [Rom.envTurns] at h
  | succ n ih =>
    obtain ⟨m, rfl⟩ : ∃ k, m = k + 1 := ⟨m - 1, by omega⟩
    simp only [Rom.envTurns] at h ⊢
    split at h
    · exact h
    · exact ih h (by omega)
    · cases h

/-- `EnvStep` on a validated sequence answers, without a fault. -/
theorem Rom.envStep_ok {r : Rom} {e : Env} (hv : r.seqValid e.idx = true) (hp : e.pos.toNat ≤ r.endIdx e.idx) :
    ∃ e', r.envStep e = .ok e' ∧ r.Kept e e' := by
  obtain ⟨-, h2, -⟩ := Rom.seqValid_spec hv
  exact Rom.envTurns_yields envFuel e hv hp (by simp only [envFuel]; omega)

/-- One turn of `EnvStep` changes neither whether an instance is selected nor its sequence. -/
theorem Rom.envScan_selection {r : Rom} {e e' : Env} (h : r.envScan e = .yields e' ∨ r.envScan e = .goesOn e') :
    e'.sel = e.sel ∧ e'.idx = e.idx := by
  rcases h with h | h <;> unfold Rom.envScan at h <;> repeat' split at h
  all_goals first | (cases h; done) | (cases h; exact ⟨rfl, rfl⟩)

/-- `EnvStep` changes neither whether an instance is selected nor its sequence. -/
theorem Rom.envTurns_selection {r : Rom} {n : Nat} {e e' : Env} (h : r.envTurns n e = .ok e') :
    e'.sel = e.sel ∧ e'.idx = e.idx := by
  induction n generalizing e with
  | zero => cases h
  | succ n ih =>
    rw [Rom.envTurns] at h
    split at h
    · next hx => cases h; exact Rom.envScan_selection (.inl hx)
    · next hx =>
      obtain ⟨h1, h2⟩ := ih h
      obtain ⟨h3, h4⟩ := Rom.envScan_selection (.inr hx)
      exact ⟨h1.trans h3, h2.trans h4⟩
    · cases h

/-- A turn that goes on is followed by the other turns. -/
theorem Rom.envTurns_goesOn {r : Rom} {e e1 : Env} (n : Nat) (hs : r.envScan e = .goesOn e1) :
    r.envTurns (n + 1) e = r.envTurns n e1 := by simp only [Rom.envTurns, hs]

/-- A turn that yields ends the scan. -/
theorem Rom.envStep_yields {r : Rom} {e e1 : Env} (hs : r.envScan e = .yields e1) : r.envStep e = .ok e1 := by
  have : ∀ n, r.envTurns (n + 1) e = .ok e1 := fun n => by simp only [Rom.envTurns, hs]
  exact this 511

/-- A turn that goes on leaves what the rest of the scan yields. -/
theorem Rom.envStep_goesOn {r : Rom} {e e1 : Env} (hs : r.envScan e = .goesOn e1) (hv : r.seqValid e1.idx = true)
    (hp : e1.pos.toNat ≤ r.endIdx e1.idx) : r.envStep e = r.envStep e1 := by
  obtain ⟨-, h2, -⟩ := Rom.seqValid_spec hv
  obtain ⟨e', h, -⟩ := Rom.envTurns_yields 511 e1 hv hp (by omega)
  have h1 : r.envStep e = r.envTurns 511 e1 := Rom.envTurns_goesOn 511 hs
  rw [h1, h]
  exact (Rom.envTurns_mono h (by simp [envFuel])).symm

/-- Release keeps the selection and the value, and the place at or before the end marker. -/
theorem Rom.envRelease_kept (r : Rom) (e : Env) (hv : r.seqValid e.idx = true) (hp : e.pos.toNat ≤ r.endIdx e.idx) :
    (r.envRelease e).sel = e.sel ∧ (r.envRelease e).idx = e.idx ∧ (r.envRelease e).val = e.val ∧
      (r.envRelease e).pos.toNat ≤ r.endIdx e.idx ∧ (r.envRelease e).rel = true := by
  obtain ⟨-, h2, -⟩ := Rom.seqValid_spec hv
  unfold Rom.envRelease
  split
  · next h => exact ⟨rfl, rfl, rfl, hp, h⟩
  · split
    · exact ⟨rfl, rfl, rfl, hp, rfl⟩
    · next i hi =>
      have := (Rom.relIdx_spec hi).1
      split
      · refine ⟨rfl, rfl, rfl, ?_, rfl⟩
        simp only [BitVec.toNat_ofNat]; omega
      · exact ⟨rfl, rfl, rfl, hp, rfl⟩

/-! ### The four instances -/

/-- An operation on each instance answers when it answers on all four. -/
theorem Envs.each_ok {f : Env → Except Fault Env} {es : Envs} (h : ∀ c, ∃ e', f (es.get c) = .ok e') :
    ∃ es', es.each f = .ok es' := by
  obtain ⟨a, ha⟩ := h .vol
  obtain ⟨b, hb⟩ := h .note
  obtain ⟨c, hc⟩ := h .timb
  obtain ⟨d, hd⟩ := h .pitch
  simp only [Envs.get] at ha hb hc hd
  exact ⟨_, by simp only [Envs.each, ha, hb, hc, hd]; rfl⟩

/-- What an operation on each instance leaves is what it answers on each. -/
theorem Envs.each_get {f : Env → Except Fault Env} {es es' : Envs} (h : es.each f = .ok es') (c : EnvClass) :
    f (es.get c) = .ok (es'.get c) := by
  unfold Envs.each at h
  split at h
  · cases h
  · next a ha =>
    split at h
    · cases h
    · next b hb =>
      split at h
      · cases h
      · next d hd =>
        split at h
        · cases h
        · next e he => cases h; cases c <;> assumption

end Sys2Proof.Machine
end

