-- ==== Sys2Proof/Laws/Step.lean ====
section
/-! SUPPORT. What one step of the block can do to one voice, and what it leaves of the rest; what one tick's first three
steps can do; how pending writes become visible. -/

namespace Sys2Proof.Machine

/-! ### Pending writes -/

/-- Applying the oldest write to a register first does not change what all writes together give. -/
theorem takeFirst_foldl {f : OscField} {ws : List OscWrite} {w : OscWrite} {rest : List OscWrite}
    (h : takeFirst f ws = some (w, rest)) (o : Shown) :
    rest.foldl Shown.apply (o.apply w) = ws.foldl Shown.apply o ∧ w.field = f := by
  induction ws generalizing o rest with
  | nil => simp [takeFirst] at h
  | cons x ws ih =>
    simp only [takeFirst] at h
    split at h
    · next hx =>
      simp only [Option.some.injEq, Prod.mk.injEq] at h
      obtain ⟨rfl, rfl⟩ := h
      exact ⟨rfl, hx⟩
    · next hx =>
      split at h
      · cases h
      · next y r hy =>
        simp only [Option.some.injEq, Prod.mk.injEq] at h
        obtain ⟨rfl, rfl⟩ := h
        obtain ⟨h1, h2⟩ := ih hy (o.apply x)
        refine ⟨?_, h2⟩
        simp only [List.foldl_cons]
        rw [← h1]
        congr 1
        cases x <;> cases y <;> simp_all [Shown.apply, OscWrite.field]

/-- What is left after the oldest write to a register is taken is a part of the writes, in their order. -/
theorem takeFirst_sublist {f : OscField} {ws : List OscWrite} {w : OscWrite} {rest : List OscWrite}
    (h : takeFirst f ws = some (w, rest)) : rest.Sublist ws := by
  induction ws generalizing w rest with
  | nil => simp [takeFirst] at h
  | cons x ws ih =>
    simp only [takeFirst] at h
    split at h
    · simp only [Option.some.injEq, Prod.mk.injEq] at h
      obtain ⟨-, rfl⟩ := h
      exact List.sublist_cons_self _ _
    · split at h
      · cases h
      · next y r hy =>
        simp only [Option.some.injEq, Prod.mk.injEq] at h
        obtain ⟨-, rfl⟩ := h
        exact (ih hy).cons_cons x

/-- No write to a register is found exactly when none is there. -/
theorem takeFirst_none {f : OscField} {ws : List OscWrite} : takeFirst f ws = none ↔ ∀ w ∈ ws, w.field ≠ f := by
  induction ws with
  | nil => simp [takeFirst]
  | cons x ws ih =>
    simp only [takeFirst, List.forall_mem_cons]
    by_cases hx : x.field = f
    · simp [hx]
    · rw [if_neg hx, ← ih]
      cases takeFirst f ws <;> simp [hx]

/-- The oldest write to a register is the one before which no other stands. -/
theorem takeFirst_split {f : OscField} {before after : List OscWrite} {w : OscWrite} (hw : w.field = f)
    (hb : ∀ x ∈ before, x.field ≠ f) : takeFirst f (before ++ w :: after) = some (w, before ++ after) := by
  induction before with
  | nil => simp [takeFirst, hw]
  | cons x before ih =>
    rw [List.forall_mem_cons] at hb
    simp only [List.cons_append, takeFirst, if_neg hb.1, ih hb.2]

/-- Taking a write to a register leaves one fewer to it and as many to every other. -/
theorem takeFirst_count {f : OscField} {ws : List OscWrite} {w : OscWrite} {rest : List OscWrite}
    (h : takeFirst f ws = some (w, rest)) (g : OscField) :
    (ws.map OscWrite.field).count g = (rest.map OscWrite.field).count g + if g = f then 1 else 0 := by
  induction ws generalizing rest with
  | nil => simp [takeFirst] at h
  | cons x ws ih =>
    simp only [takeFirst] at h
    split at h
    · next hx =>
      simp only [Option.some.injEq, Prod.mk.injEq] at h
      obtain ⟨rfl, rfl⟩ := h
      simp only [List.map_cons, List.count_cons, hx, beq_iff_eq, eq_comm (a := g)]
    · split at h
      · cases h
      · next y r hy =>
        simp only [Option.some.injEq, Prod.mk.injEq] at h
        obtain ⟨rfl, rfl⟩ := h
        simp only [List.map_cons, List.count_cons, ih hy]
        omega

/-- `settleSome` finds nothing exactly when no write is pending. -/
theorem settleSome_none {vs : List Voice} : settleSome vs = none ↔ ∀ vc ∈ vs, vc.pending = [] := by
  induction vs with
  | nil => simp [settleSome]
  | cons vc vs ih =>
    simp only [settleSome]
    split
    · next h => simp [h, ih]
    · next h => simp [h]

/-- `settleSome` applies the oldest pending write of one voice. -/
theorem settleSome_some {vs ws : List Voice} (h : settleSome vs = some ws) :
    ∃ v vc w rest, vs[v]? = some vc ∧ vc.pending = w :: rest ∧
      ws = vs.set v { vc with shown := vc.shown.apply w, pending := rest } := by
  induction vs generalizing ws with
  | nil => simp [settleSome] at h
  | cons vc vs ih =>
    simp only [settleSome] at h
    split at h
    · simp only [Option.map_eq_some_iff] at h
      obtain ⟨a, ha, rfl⟩ := h
      obtain ⟨v, vc', w, rest, h1, h2, h3⟩ := ih ha
      exact ⟨v + 1, vc', w, rest, by simpa using h1, h2, by simp [h3]⟩
    · next w rest hp =>
      simp only [Option.some.injEq] at h
      subst h
      exact ⟨0, vc, w, rest, rfl, hp, by simp [Voice.settleOldest, hp]⟩

/-! ### The first three steps of a tick -/

/-- Quantization writes the counter, and when the counter reaches 0 the gate and the envelopes. -/
theorem Rom.quantize_cases (r : Rom) (vc : Voice) :
    (∃ q, r.quantize vc = { vc with qlenC := q }) ∨
      r.quantize vc = { vc with qlenC := 0, gate := false, pending := vc.pending ++ [.gate false] } ∨
      (vc.playing = true ∧ r.quantize vc =
        { vc with
          qlenC := 0, gate := false, pending := vc.pending ++ [.gate false], env := r.releaseAll vc.env }) := by
  unfold Rom.quantize
  split
  · exact .inl ⟨vc.qlenC, rfl⟩
  · split
    · dsimp only [Voice.writeGate]
      split
      · next h => exact .inr (.inr ⟨h, rfl⟩)
      · exact .inr (.inl rfl)
    · exact .inl ⟨_, rfl⟩

/-- What SweepStep writes. -/
theorem Voice.sweepTick_cases (vc : Voice) :
    vc.sweepTick = vc ∨ (0 < vc.sweepRem.toNat ∧ vc.sweepTick =
      { vc with sweepAcc := vc.sweepAcc + vc.sweepStep.signExtend 16, sweepRem := vc.sweepRem - 1 }) := by
  unfold Voice.sweepTick
  split
  · next h => exact .inr ⟨h, rfl⟩
  · exact .inl rfl

/-- How the first three steps of a tick can end: idle; a decode pass; a sustain tick of a rest; a sustain tick of a note,
with or without Publish. -/
theorem Rom.tickFront_cases {r : Rom} {vc : Voice} {f : Front} (h : r.tickFront vc = .ok f) :
    (vc.finished = true ∧ f = .over vc.tickOver) ∨
      (vc.finished = false ∧ (r.quantize vc).nlenC.toNat ≤ 1 ∧ f = .fetches { r.quantize vc with nlenC := 0 }) ∨
      (vc.finished = false ∧ 2 ≤ (r.quantize vc).nlenC.toNat ∧ (r.quantize vc).playing = false ∧
        f = .over (Voice.tickOver { r.quantize vc with nlenC := (r.quantize vc).nlenC - 1 })) ∨
      (vc.finished = false ∧ 2 ≤ (r.quantize vc).nlenC.toNat ∧ (r.quantize vc).playing = true ∧
        ∃ es w, (r.quantize vc).env.each r.stepSelected = .ok es ∧
          w = Voice.sweepTick { r.quantize vc with nlenC := (r.quantize vc).nlenC - 1, env := es } ∧
          f = .over (Voice.tickOver (if w.gate then r.publish w else w))) := by
  unfold Rom.tickFront at h
  split at h
  · next hf => exact .inl ⟨hf, by cases h; rfl⟩
  · next hf =>
    have hf' : vc.finished = false := by simpa using hf
    right
    dsimp only at h
    split at h
    · next h0 =>
      refine .inl ⟨hf', by omega, ?_⟩
      have h1 : (r.quantize vc).nlenC = 0 := by
        apply BitVec.eq_of_toNat_eq
        simpa using h0
      rw [← h1]
      cases h; rfl
    · next h0 =>
      split at h
      · next h1 =>
        have hn : (r.quantize vc).nlenC.toNat = 1 := by
          rw [BitVec.toNat_sub] at h1
          have := (r.quantize vc).nlenC.isLt
          simp at h1; omega
        have h2 : (r.quantize vc).nlenC - 1 = 0 := by
          apply BitVec.eq_of_toNat_eq
          simpa using h1
        refine .inl ⟨hf', by omega, ?_⟩
        rw [← h2]
        cases h; rfl
      · next h1 =>
        have hn : 2 ≤ (r.quantize vc).nlenC.toNat := by
          by_contra hc
          have h2 : (r.quantize vc).nlenC.toNat = 1 := by omega
          apply h1
          rw [BitVec.toNat_sub, h2]; rfl
        right
        split at h
        · cases h
        · next v3 hs =>
          simp only [Except.ok.injEq] at h
          subst h
          unfold Rom.sustain at hs
          split at hs
          · next hp =>
            split at hs
            · cases hs
            · next es hes =>
              simp only [Except.ok.injEq] at hs
              subst hs
              exact .inr ⟨hf', hn, hp, es, _, hes, rfl, rfl⟩
          · next hp =>
            simp only [Except.ok.injEq] at hs
            subst hs
            exact .inl ⟨hf', hn, by simpa using hp, rfl⟩

/-! ### One step and one voice -/

/-- What a step can do to the record of a voice. -/
inductive VoiceStep (s : State) (v : Nat) (vc vc' : Voice) (t : State) : Prop where
  /-- nothing -/
  | same (h : vc' = vc)
  /-- its decode pass raises the fetch's error -/
  | raises (p : Pass) (k : ErrKind) (he : s.engine = .pass p) (hp : p.voice = v)
      (hf : vc.fetch s.deploy.wideOrder = .raises k) (ht : t = s.raise p vc k)
  /-- its decode pass executes an instruction -/
  | runs (p : Pass) (i : Instr) (he : s.engine = .pass p) (hp : p.voice = v)
      (hf : vc.fetch s.deploy.wideOrder = .instr i) (ht : exec i s = .next t)
  /-- its tick runs and is over -/
  | ticks (todo : List Nat) (he : s.engine = .between (v :: todo)) (hf : s.rom.tickFront vc = .ok (.over vc'))
      (ht : t = { s.setVoice v vc' with engine := .between todo })
  /-- its tick runs and a decode pass starts -/
  | fetches (todo : List Nat) (he : s.engine = .between (v :: todo)) (hf : s.rom.tickFront vc = .ok (.fetches vc'))
      (ht : t = { s.setVoice v vc' with engine := .pass { voice := v, restarted := false, todo := todo } })
  /-- its oldest pending write becomes visible -/
  | oldest (w : OscWrite) (rest : List OscWrite) (he : s.engine = .between []) (hp : vc.pending = w :: rest)
      (h : vc' = { vc with shown := vc.shown.apply w, pending := rest }) (ht : t = s.setVoice v vc')
  /-- its oldest pending write to one register becomes visible -/
  | settles (f : OscField) (rest : List Input) (he : s.engine = .between []) (hi : s.inputs = .settle v f :: rest)
      (h : vc' = vc.settle f) (ht : t = { s.setVoice v vc' with inputs := rest })
  /-- it renders a sample -/
  | samples (rest : List Input) (he : s.engine = .between []) (hi : s.inputs = .sample v :: rest)
      (h : vc' = vc.renderSample) (ht : t = { s.setVoice v vc' with inputs := rest })
  /-- it is initialised -/
  | inits (stream : List Byte) (len : Word) (rest : List Input) (he : s.engine = .between [])
      (hi : s.inputs = .init v stream len :: rest) (hl : len.toNat ≤ stream.length) (hp : vc.pending = [])
      (h : vc' = vc.init s.deploy stream len) (ht : t = { s.setVoice v vc' with inputs := rest })

/-- Changing one record leaves the others. -/
theorem set_voice_cases {vs : List Voice} {v u : Nat} {vc new old : Voice} (hv : vs[v]? = some vc)
    (hu : vs[u]? = some old) :
    ∃ vc', (vs.set u new)[v]? = some vc' ∧ (vc' = vc ∨ (u = v ∧ old = vc ∧ vc' = new)) := by
  by_cases h : u = v
  · subst h
    rw [hv] at hu; cases hu
    exact ⟨new, by simp [(List.getElem?_eq_some_iff.mp hv).1], .inr ⟨rfl, rfl, rfl⟩⟩
  · exact ⟨vc, by simp [h, hv], .inl rfl⟩

/-- What one step can do to one voice. -/
theorem step_voice {s t : State} {v : Nat} {vc : Voice} (hv : s.voices[v]? = some vc) (h : step s = .next t) :
    ∃ vc', t.voices[v]? = some vc' ∧ VoiceStep s v vc vc' t := by
  cases he : s.engine with
  | pass p =>
    rw [step_pass he] at h
    obtain ⟨p', w, h1, h2, h3⟩ := passStep_next h
    rw [he] at h1; cases h1
    rcases h3 with ⟨k, hk, rfl⟩ | ⟨i, hi, hx⟩
    · obtain ⟨vc', h4, rfl | ⟨rfl, rfl, rfl⟩⟩ :=
        set_voice_cases (new := { w.raise k with result := { active := false, error := some k } }) hv h2
      · exact ⟨vc', h4, .same rfl⟩
      · exact ⟨_, h4, .raises p k he rfl hk rfl⟩
    · obtain ⟨p', x, new, h4, h5, h6, -⟩ := exec_frame hx
      rw [he] at h4; cases h4
      obtain ⟨vc', h7, rfl | ⟨rfl, rfl, rfl⟩⟩ := set_voice_cases (new := new) hv h5
      · exact ⟨vc', by rw [h6]; exact h7, .same rfl⟩
      · rw [h2] at h5; cases h5
        exact ⟨vc', by rw [h6]; exact h7, .runs p i he rfl hi hx⟩
  | between l =>
    cases l with
    | cons u todo =>
      rw [step_tick he] at h
      rcases startTick_next h with ⟨-, rfl⟩ | ⟨w, h1, ⟨w', h2, rfl⟩ | ⟨w', h2, rfl⟩⟩
      · exact ⟨vc, hv, .same rfl⟩
      · obtain ⟨vc', h3, rfl | ⟨rfl, rfl, rfl⟩⟩ := set_voice_cases (new := w') hv h1
        · exact ⟨vc', h3, .same rfl⟩
        · exact ⟨vc', h3, .ticks todo he h2 rfl⟩
      · obtain ⟨vc', h3, rfl | ⟨rfl, rfl, rfl⟩⟩ := set_voice_cases (new := w') hv h1
        · exact ⟨vc', h3, .same rfl⟩
        · exact ⟨vc', h3, .fetches todo he h2 rfl⟩
    | nil =>
      rw [step_serve he] at h
      unfold serve at h
      split at h
      · simp only [Host.Outcome.next.injEq] at h
        subst h
        unfold idle
        split
        · next vs hs =>
          obtain ⟨u, w, x, rest, h1, h2, rfl⟩ := settleSome_some hs
          obtain ⟨vc', h3, rfl | ⟨rfl, rfl, rfl⟩⟩ :=
            set_voice_cases (new := { w with shown := w.shown.apply x, pending := rest }) hv h1
          · exact ⟨vc', h3, .same rfl⟩
          · exact ⟨_, h3, .oldest x rest he h2 rfl rfl⟩
        · exact ⟨vc, hv, .same rfl⟩
      · simp only [Host.Outcome.next.injEq] at h
        subst h
        unfold serveTick
        split
        · next vs hs =>
          obtain ⟨u, w, x, rest, h1, h2, rfl⟩ := settleSome_some hs
          obtain ⟨vc', h3, rfl | ⟨rfl, rfl, rfl⟩⟩ :=
            set_voice_cases (new := { w with shown := w.shown.apply x, pending := rest }) hv h1
          · exact ⟨vc', h3, .same rfl⟩
          · exact ⟨_, h3, .oldest x rest he h2 rfl rfl⟩
        · exact ⟨vc, hv, .same rfl⟩
      · next u stream len rest hi =>
        unfold serveInit at h
        split at h
        · cases h
        · next w hu =>
          split at h
          · cases h
          · next hl =>
            split at h
            · next hp =>
              simp only [Host.Outcome.next.injEq] at h
              subst h
              obtain ⟨vc', h3, rfl | ⟨rfl, rfl, rfl⟩⟩ := set_voice_cases (new := w.init s.deploy stream len) hv hu
              · exact ⟨vc', h3, .same rfl⟩
              · exact ⟨_, h3, .inits stream len rest he hi (by omega) (by simpa using hp) rfl rfl⟩
            · next hp =>
              simp only [Host.Outcome.next.injEq] at h
              subst h
              obtain ⟨vc', h3, rfl | ⟨rfl, rfl, rfl⟩⟩ := set_voice_cases (new := w.settleOldest) hv hu
              · exact ⟨vc', h3, .same rfl⟩
              · cases hq : w.pending with
                | nil => simp [hq] at hp
                | cons x r => exact ⟨_, h3, .oldest x r he hq (by simp [Voice.settleOldest, hq]) rfl⟩
      · next u rest hi =>
        unfold serveSample at h
        split at h
        · cases h
        · next w hu =>
          simp only [Host.Outcome.next.injEq] at h
          subst h
          obtain ⟨vc', h3, rfl | ⟨rfl, rfl, rfl⟩⟩ := set_voice_cases (new := w.renderSample) hv hu
          · exact ⟨vc', h3, .same rfl⟩
          · exact ⟨_, h3, .samples rest he hi rfl rfl⟩
      · next u f rest hi =>
        simp only [Host.Outcome.next.injEq] at h
        subst h
        unfold serveSettle
        split
        · exact ⟨vc, hv, .same rfl⟩
        · next w hu =>
          obtain ⟨vc', h3, rfl | ⟨rfl, rfl, rfl⟩⟩ := set_voice_cases (new := w.settle f) hv hu
          · exact ⟨vc', h3, .same rfl⟩
          · exact ⟨_, h3, .settles f rest he hi rfl rfl⟩
      · unfold serveLoad at h
        split at h
        · cases h
        · split at h
          · cases h
          · simp only [Host.Outcome.next.injEq] at h
            subst h
            exact ⟨vc, hv, .same rfl⟩

/-! ### One step and the rest of the state -/

/-- A step changes no parameter and the number of no voice; it changes the read-only memories only by a load, while every
voice is finished. -/
theorem step_rest {s t : State} (h : step s = .next t) :
    t.deploy = s.deploy ∧ t.voices.length = s.voices.length ∧
      (t.rom = s.rom ∨ (s.engine = .between [] ∧ (∀ vc ∈ s.voices, vc.finished = true) ∧ t.voices = s.voices ∧
        t.engine = .between [] ∧
        ∃ ft am seqs, seqsInRange seqs = true ∧ t.rom = Rom.ofSeqs ft am seqs)) := by
  cases he : s.engine with
  | pass p =>
    rw [step_pass he] at h
    obtain ⟨p', w, -, -, ⟨k, -, rfl⟩ | ⟨i, -, hx⟩⟩ := passStep_next h
    · exact ⟨rfl, by simp, .inl rfl⟩
    · obtain ⟨p', x, new, -, -, h6, -⟩ := exec_frame hx
      rw [h6]
      exact ⟨rfl, by simp, .inl rfl⟩
  | between l =>
    cases l with
    | cons u todo =>
      rw [step_tick he] at h
      rcases startTick_next h with ⟨-, rfl⟩ | ⟨w, -, ⟨w', -, rfl⟩ | ⟨w', -, rfl⟩⟩
      · exact ⟨rfl, rfl, .inl rfl⟩
      · exact ⟨rfl, by simp, .inl rfl⟩
      · exact ⟨rfl, by simp, .inl rfl⟩
    | nil =>
      rw [step_serve he] at h
      unfold serve at h
      split at h
      · simp only [Host.Outcome.next.injEq] at h
        subst h
        unfold idle
        split
        · next vs hs =>
          obtain ⟨u, w, x, rest, -, -, rfl⟩ := settleSome_some hs
          exact ⟨rfl, by simp, .inl rfl⟩
        · exact ⟨rfl, rfl, .inl rfl⟩
      · simp only [Host.Outcome.next.injEq] at h
        subst h
        unfold serveTick
        split
        · next vs hs =>
          obtain ⟨u, w, x, rest, -, -, rfl⟩ := settleSome_some hs
          exact ⟨rfl, by simp, .inl rfl⟩
        · exact ⟨rfl, rfl, .inl rfl⟩
      · unfold serveInit at h
        split at h
        · cases h
        · split at h
          · cases h
          · split at h <;> (simp only [Host.Outcome.next.injEq] at h; subst h; exact ⟨rfl, by simp, .inl rfl⟩)
      · unfold serveSample at h
        split at h
        · cases h
        · simp only [Host.Outcome.next.injEq] at h
          subst h
          exact ⟨rfl, by simp, .inl rfl⟩
      · simp only [Host.Outcome.next.injEq] at h
        subst h
        unfold serveSettle
        split
        · exact ⟨rfl, rfl, .inl rfl⟩
        · exact ⟨rfl, by simp, .inl rfl⟩
      · next ft am seqs rest hi =>
        unfold serveLoad at h
        split at h
        · cases h
        · next hf =>
          split at h
          · cases h
          · next hr =>
            simp only [Host.Outcome.next.injEq] at h
            subst h
            exact ⟨rfl, rfl, .inr ⟨rfl, by simpa using hf, rfl, he, ft, am, seqs, by simpa using hr, rfl⟩⟩

/-- How a step moves the engine: a decode pass goes on, restarts or ends; a tick ends or starts a decode pass; between
TickEvents nothing runs until one begins, which waits until no write is pending. -/
theorem step_engine {s t : State} (h : step s = .next t) :
    (∃ p, s.engine = .pass p ∧
      (t.engine = .between p.todo ∨ t.engine = .pass p ∨ t.engine = .pass { p with restarted := true })) ∨
    (∃ v todo, s.engine = .between (v :: todo) ∧
      (t.engine = .between todo ∨
        (v < s.voices.length ∧ t.engine = .pass { voice := v, restarted := false, todo := todo }))) ∨
    (s.engine = .between [] ∧
      (t.engine = .between [] ∨
        (t.engine = .between (List.range s.voices.length) ∧ t.voices = s.voices ∧
          ∀ vc ∈ s.voices, vc.pending = []))) := by
  cases he : s.engine with
  | pass p =>
    rw [step_pass he] at h
    obtain ⟨p', w, h1, -, ⟨k, -, rfl⟩ | ⟨i, -, hx⟩⟩ := passStep_next h
    · rw [he] at h1; cases h1
      exact .inl ⟨p, rfl, .inl rfl⟩
    · obtain ⟨p', x, new, h4, -, -, h6, -⟩ := exec_frame hx
      rw [he] at h4; cases h4
      exact .inl ⟨p, rfl, h6⟩
  | between l =>
    cases l with
    | cons u todo =>
      rw [step_tick he] at h
      rcases startTick_next h with ⟨-, rfl⟩ | ⟨w, hw, ⟨w', -, rfl⟩ | ⟨w', -, rfl⟩⟩
      · exact .inr (.inl ⟨u, todo, rfl, .inl rfl⟩)
      · exact .inr (.inl ⟨u, todo, rfl, .inl rfl⟩)
      · exact .inr (.inl ⟨u, todo, rfl, .inr ⟨(List.getElem?_eq_some_iff.mp hw).1, rfl⟩⟩)
    | nil =>
      refine .inr (.inr ⟨rfl, ?_⟩)
      rw [step_serve he] at h
      unfold serve at h
      split at h
      · simp only [Host.Outcome.next.injEq] at h
        subst h
        unfold idle
        split <;> exact .inl he
      · simp only [Host.Outcome.next.injEq] at h
        subst h
        unfold serveTick
        split
        · exact .inl he
        · next hs => exact .inr ⟨rfl, rfl, settleSome_none.mp hs⟩
      · unfold serveInit at h
        split at h
        · cases h
        · split at h
          · cases h
          · split at h <;> (simp only [Host.Outcome.next.injEq] at h; subst h; exact .inl he)
      · unfold serveSample at h
        split at h
        · cases h
        · simp only [Host.Outcome.next.injEq] at h
          subst h
          exact .inl he
      · simp only [Host.Outcome.next.injEq] at h
        subst h
        unfold serveSettle
        split <;> exact .inl he
      · unfold serveLoad at h
        split at h
        · cases h
        · split at h
          · cases h
          · simp only [Host.Outcome.next.injEq] at h
            subst h
            exact .inl he

end Sys2Proof.Machine
end

