-- ==== Sys2Proof/Laws/Invariant.lean ====
section
/-! SUPPORT. Towards the invariant: what the execution of an instruction leaves of the voice's record, a rule for properties
of every voice, and how the parts of the invariant pass through the shared operations. -/

namespace Sys2Proof.Machine

/-! ### A decode pass and its voice -/

theorem onPass_inPass {s : State} {p : Pass} {vc : Voice} (h : InPass s p vc)
    (f : Pass → Voice → Host.Outcome State Fault Refusal) : onPass s f = f p vc := onPass_eq h.1 h.2 f

theorem InPass.unique {s : State} {p p' : Pass} {vc vc' : Voice} (h : InPass s p vc) (h1 : s.engine = .pass p')
    (h2 : s.voices[p'.voice]? = some vc') : p' = p ∧ vc' = vc := by
  obtain ⟨a, b⟩ := h
  rw [a] at h1; cases h1
  rw [b] at h2; cases h2
  exact ⟨rfl, rfl⟩

theorem InPass.lt {s : State} {p : Pass} {vc : Voice} (h : InPass s p vc) : p.voice < s.voices.length :=
  (List.getElem?_eq_some_iff.mp h.2).1

/-- A property of every voice, by number. -/
theorem State.all_iff {s : State} {P : Voice → Prop} :
    s.all P ↔ ∀ (v : Nat) (vc : Voice), s.voices[v]? = some vc → P vc := by
  constructor
  · intro h v vc hv
    exact h vc (List.mem_of_getElem? hv)
  · intro h vc hm
    obtain ⟨i, hi, e⟩ := List.getElem_of_mem hm
    exact h i vc (by rw [List.getElem?_eq_getElem hi, e])

/-- A property of every voice that survives whatever a step can do to one voice survives the step. -/
theorem step_forall {P : State → Voice → Prop} {s t : State} (h : step s = .next t)
    (hs : ∀ (v : Nat) (vc : Voice), s.voices[v]? = some vc → P s vc)
    (k : ∀ (v : Nat) (vc vc' : Voice), s.voices[v]? = some vc → t.voices[v]? = some vc' → P s vc →
      VoiceStep s v vc vc' t → P t vc') :
    ∀ (v : Nat) (vc : Voice), t.voices[v]? = some vc → P t vc := by
  intro v vc hv
  have hlt := (List.getElem?_eq_some_iff.mp hv).1
  rw [(step_rest h).2.1] at hlt
  obtain ⟨vc', h1, h2⟩ := step_voice (List.getElem?_eq_getElem hlt) h
  rw [hv] at h1; cases h1
  exact k v _ vc (List.getElem?_eq_getElem hlt) hv (hs v _ (List.getElem?_eq_getElem hlt)) h2

/-- What the execution of an instruction leaves of the voice's record: registers, cursor and loop frames changed; an
envelope selected; an error; the stream's end; a rest; or a note. -/
theorem exec_voice {i : Instr} {s t : State} {p : Pass} {vc vc' : Voice} (hp : InPass s p vc) (h : exec i s = .next t)
    (hv : t.voices[p.voice]? = some vc') :
    ((t.engine = .pass p ∨ t.engine = .pass { p with restarted := true }) ∧
      ∃ nl ql oc vo tr de ti sl ss cu ts tl ls lp, vc' =
        { vc with
          noteLen := nl, quantLen := ql, octave := oc, volume := vo, transpose := tr, detune := de, timbre := ti,
          sweepLen := sl, sweepStep := ss, cursor := cu, tlpSet := ts, tlp := tl, ls := ls, lsp := lp }) ∨
    (t.engine = .pass p ∧ ∃ c k, s.rom.seqValid k = true ∧
      vc' = { vc with env := vc.env.put c ((vc.env.get c).select k), cursor := vc.after 2 }) ∨
    (t.engine = .between p.todo ∧ ∃ k, vc' = { vc.raise k with result := { active := false, error := some k } }) ∨
    (t.engine = .between p.todo ∧ vc' = { vc.finish with result := { active := false, error := none } }) ∨
    (t.engine = .between p.todo ∧ ∃ cu nl, vc' =
      { Voice.writeGate { vc with cursor := cu, nlenC := nl, qlenC := 0, playing := false } false with
        result := { active := !vc.finished, error := none } }) ∨
    (t.engine = .between p.todo ∧ ∃ semi a es, vc.env.each s.rom.startSelected = .ok es ∧
      vc' = { s.rom.publish { vc.startNote semi a with env := es, sweepRem := vc.sweepLen, sweepAcc := 0 } with
        result := { active := !vc.finished, error := none } }) := by
  have hlt := hp.lt
  have uniq := fun {p' : Pass} {w : Voice} (h1 : s.engine = .pass p') (h2 : s.voices[p'.voice]? = some w) =>
    InPass.unique hp h1 h2
  rcases exec_shape i with rfl | ⟨semi, a, hn⟩ | ⟨a, rfl⟩ | rfl | ⟨u, rfl⟩ | rfl | ⟨c, k, he⟩ | ⟨f, he, hf⟩
  · obtain ⟨p', w, h1, h2, h3⟩ := execEnd_next h
    obtain ⟨rfl, rfl⟩ := uniq h1 h2
    rcases h3 with ⟨-, -, rfl⟩ | ⟨-, -, rfl⟩ | ⟨-, rfl⟩
    · simp [hlt] at hv; subst hv; exact .inr (.inr (.inl ⟨rfl, _, rfl⟩))
    · simp [hlt] at hv; subst hv
      exact .inl ⟨.inr rfl, w.noteLen, w.quantLen, w.octave, w.volume, w.transpose, w.detune, w.timbre, w.sweepLen,
        w.sweepStep, w.tlp, w.tlpSet, w.tlp, w.ls, w.lsp, rfl⟩
    · simp [hlt] at hv; subst hv; exact .inr (.inr (.inr (.inl ⟨rfl, rfl⟩)))
  · obtain ⟨semi', -, he⟩ := exec_noteOf (by omega) hn
    rw [he] at h
    obtain ⟨p', w, es, h1, h2, h3, rfl⟩ := playNote_next h
    obtain ⟨rfl, rfl⟩ := uniq h1 h2
    simp only [State.endTick_voices, List.getElem?_set_self hlt, Option.some.injEq] at hv; subst hv
    exact .inr (.inr (.inr (.inr (.inr ⟨rfl, _, _, _, h3, rfl⟩))))
  · obtain ⟨p', w, h1, h2, rfl⟩ := execRest_next h
    obtain ⟨rfl, rfl⟩ := uniq h1 h2
    simp only [State.endTick_voices, List.getElem?_set_self hlt, Option.some.injEq] at hv; subst hv
    exact .inr (.inr (.inr (.inr (.inl ⟨rfl, _, _, rfl⟩))))
  · obtain ⟨p', w, h1, h2, rfl⟩ := controlOp_next h
    obtain ⟨rfl, rfl⟩ := uniq h1 h2
    simp only [State.setVoice_voices, List.getElem?_set_self hlt, Option.some.injEq] at hv; subst hv
    exact .inl ⟨.inl h1, _, _, _, _, _, _, _, _, _, _, _, _, _, _, rfl⟩
  · obtain ⟨p', w, h1, h2, h3⟩ := execLoopStart_next h
    obtain ⟨rfl, rfl⟩ := uniq h1 h2
    rcases h3 with ⟨hl, rfl⟩ | ⟨-, rfl⟩
    · simp only [State.setVoice_voices, List.getElem?_set_self hlt, Option.some.injEq] at hv; subst hv
      exact .inl ⟨.inl h1, _, _, _, _, _, _, _, _, _, _, _, _, _, _, rfl⟩
    · simp [hlt] at hv; subst hv; exact .inr (.inr (.inl ⟨rfl, _, rfl⟩))
  · obtain ⟨p', w, h1, h2, h3⟩ := execLoopEnd_next h
    obtain ⟨rfl, rfl⟩ := uniq h1 h2
    rcases h3 with ⟨j, hj, hl, ⟨-, rfl⟩ | ⟨-, rfl⟩⟩ | ⟨-, rfl⟩
    · simp only [State.setVoice_voices, List.getElem?_set_self hlt, Option.some.injEq] at hv; subst hv
      exact .inl ⟨.inl h1, _, _, _, _, _, _, _, _, _, _, _, _, _, _, rfl⟩
    · simp only [State.setVoice_voices, List.getElem?_set_self hlt, Option.some.injEq] at hv; subst hv
      exact .inl ⟨.inl h1, _, _, _, _, _, _, _, _, _, _, _, _, _, _, rfl⟩
    · simp [hlt] at hv; subst hv; exact .inr (.inr (.inl ⟨rfl, _, rfl⟩))
  · rw [he] at h
    obtain ⟨p', w, h1, h2, h3⟩ := selectEnv_next h
    obtain ⟨rfl, rfl⟩ := uniq h1 h2
    rcases h3 with ⟨hk, rfl⟩ | ⟨-, rfl⟩
    · simp only [State.setVoice_voices, List.getElem?_set_self hlt, Option.some.injEq] at hv; subst hv
      exact .inr (.inl ⟨h1, c, k, hk, rfl⟩)
    · simp [hlt] at hv; subst hv; exact .inr (.inr (.inl ⟨rfl, _, rfl⟩))
  · rw [he] at h
    obtain ⟨p', w, h1, h2, rfl⟩ := controlOp_next h
    obtain ⟨rfl, rfl⟩ := uniq h1 h2
    obtain ⟨nl, ql, oc, vo, tr, de, ti, sl, ss, cu, e⟩ := hf w
    simp only [State.setVoice_voices, List.getElem?_set_self hlt, Option.some.injEq] at hv; subst hv
    exact .inl ⟨.inl h1, _, _, _, _, _, _, _, _, _, _, _, _, _, _, e⟩

/-! ### Selected envelopes -/

/-- Replacing one instance by a sound one keeps the instances sound. -/
theorem Rom.envsOk_put {r : Rom} {es : Envs} {c : EnvClass} {e : Env} (h : r.envsOk es) (he : r.envOk e) : r.envsOk (es.put c e) := by
  obtain ⟨a, b, d, f⟩ := h
  cases c
  · exact ⟨he, b, d, f⟩
  · exact ⟨a, he, d, f⟩
  · exact ⟨a, b, he, f⟩
  · exact ⟨a, b, d, he⟩

/-- The instances are sound when each is. -/
theorem Rom.envsOk_iff {r : Rom} {es : Envs} : r.envsOk es ↔ ∀ c, r.envOk (es.get c) := by
  constructor
  · rintro ⟨a, b, c, d⟩ x; cases x <;> assumption
  · intro h; exact ⟨h .vol, h .note, h .timb, h .pitch⟩

/-- EnvStep keeps a selected instance sound. -/
theorem Rom.envStep_envOk {r : Rom} {e e' : Env} (h : r.envOk e) (hs : e.sel = true) (h2 : r.envStep e = .ok e') : r.envOk e' := by
  obtain ⟨hv, hp⟩ := h.1 hs
  obtain ⟨e1, h3, hk⟩ := Rom.envStep_ok hv hp
  rw [h2] at h3; cases h3
  refine ⟨fun _ => by rw [hk.2.1]; exact ⟨hv, hk.2.2.1⟩, ?_⟩
  rcases hk.2.2.2 with e | e
  · rw [e]; exact h.2
  · exact e

/-- Stepping the selected instances keeps them sound. -/
theorem Rom.each_stepSelected {r : Rom} {es es'} (h : r.envsOk es) (h2 : es.each r.stepSelected = .ok es') : r.envsOk es' := by
  rw [Rom.envsOk_iff] at h ⊢
  intro c
  have := Envs.each_get h2 c
  unfold Rom.stepSelected at this
  split at this
  · next hs => exact Rom.envStep_envOk (h c) hs this
  · rw [← Except.ok.inj this]; exact h c

/-- Restarting and stepping the selected instances keeps them sound. -/
theorem Rom.each_startSelected {r : Rom} {es es'} (h : r.envsOk es) (h2 : es.each r.startSelected = .ok es') : r.envsOk es' := by
  rw [Rom.envsOk_iff] at h ⊢
  intro c
  have := Envs.each_get h2 c
  unfold Rom.startSelected at this
  split at this
  · next hs => exact Rom.envStep_envOk (e := (es.get c).restart) ⟨fun _ => ⟨((h c).1 hs).1, by simp [Env.restart]⟩, by show isData 0 = true; decide⟩ hs this
  · rw [← Except.ok.inj this]; exact h c

/-- Releasing the selected instances keeps them sound. -/
theorem Rom.releaseAll_envsOk {r : Rom} {es} (h : r.envsOk es) : r.envsOk (r.releaseAll es) := by
  have one : ∀ e, r.envOk e → r.envOk (r.releaseSelected e) := by
    intro e he
    unfold Rom.releaseSelected
    split
    · next hs =>
      obtain ⟨hv, hp⟩ := he.1 hs
      obtain ⟨a, b, c, d, -⟩ := r.envRelease_kept e hv hp
      exact ⟨fun _ => by rw [b]; exact ⟨hv, d⟩, by rw [c]; exact he.2⟩
    · exact he
  exact ⟨one _ h.1, one _ h.2.1, one _ h.2.2.1, one _ h.2.2.2⟩

/-! ### Publish, sweep and visibility -/

/-- A clamped value lies between its bounds. -/
theorem clamp_bounds (x : Int) {lo hi : Int} (h : lo ≤ hi) : lo ≤ clamp x lo hi ∧ clamp x lo hi ≤ hi := by
  simp only [clamp]; omega

/-- A phase step is what was clamped, as a number. -/
theorem toNat_ofInt_clamp (x : Int) : ((BitVec.ofInt 16 (clamp x 0 65535)).toNat : Int) = clamp x 0 65535 := by
  have := clamp_bounds x (lo := 0) (hi := 65535) (by omega)
  rw [BitVec.toNat_ofInt]; omega

/-- A pulse width is 256 times what was clamped, as a number. -/
theorem toInt_ofInt_clamp (x : Int) :
    (BitVec.ofInt 16 (256 * clamp x (-128) 127)).toInt = 256 * clamp x (-128) 127 := by
  have := clamp_bounds x (lo := -128) (hi := 127) (by omega)
  rw [BitVec.toInt_ofInt]; simp only [Int.bmod_def]; omega

/-- Publish leaves a pulse width that is a multiple of 256. -/
theorem Voice.pubPw_mod (vc : Voice) : vc.pubPw.toNat % 256 = 0 := by
  unfold Voice.pubPw
  have := clamp_bounds (vc.timbre.toInt + vc.env.timb.offset) (lo := -128) (hi := 127) (by omega)
  rw [BitVec.toNat_ofInt]; omega

/-- A write of the gate keeps the visibility law. -/
theorem Voice.writeGate_oscOk {vc : Voice} (h : vc.oscOk) (g : Bool) : (vc.writeGate g).oscOk := by
  unfold Voice.oscOk Voice.registers at *
  simp [Voice.writeGate, h, Shown.apply]

/-- Publish keeps the visibility law. -/
theorem Rom.publish_oscOk {vc : Voice} (r : Rom) (h : vc.oscOk) : (r.publish vc).oscOk := by
  unfold Voice.oscOk Voice.registers at *
  simp [Rom.publish, Voice.writeFreq, Voice.writeAmp, Voice.writePw, h, Shown.apply]

/-- Applying a pending write keeps the visibility law and changes nothing else. -/
theorem Voice.settle_oscOk {vc : Voice} (f : OscField) (h : vc.oscOk) :
    (vc.settle f).oscOk ∧ ∃ sh pd, vc.settle f = { vc with shown := sh, pending := pd } := by
  unfold Voice.settle
  split
  · exact ⟨h, vc.shown, vc.pending, rfl⟩
  · next w rest e =>
    refine ⟨?_, _, _, rfl⟩
    have := (takeFirst_foldl e vc.shown).1
    unfold Voice.oscOk at h ⊢
    simp only [Voice.registers] at h ⊢
    rw [this, h]

/-- One step of the ramp adds the step's value, without wrapping, and keeps the ramp in its bounds. -/
theorem Voice.sweepTick_sweepOk {vc : Voice} (h : vc.sweepOk) : vc.sweepTick.sweepOk := by
  rcases vc.sweepTick_cases with e | ⟨hr, e⟩ <;> rw [e]
  · exact h
  · unfold Voice.sweepOk at *
    simp only
    have hs1 := vc.sweepStep.toInt_lt
    have hs2 := vc.sweepStep.le_toInt
    have e1 : ((vc.sweepRem - 1).toNat : Int) = vc.sweepRem.toNat - 1 := by bv_omega
    have hl := vc.sweepRem.isLt
    have e2 : (vc.sweepAcc + vc.sweepStep.signExtend 16).toInt = vc.sweepAcc.toInt + vc.sweepStep.toInt := by
      rw [BitVec.toInt_add, BitVec.toInt_signExtend_of_le (by omega), Int.bmod_def]; simp at *; omega
    rw [e1, e2]; simp at *; omega

/-- What steps 1 to 3 of a tick leave alone. -/
theorem Rom.tickFront_frame {r : Rom} {vc vc' : Voice} {f : Front} (h : r.tickFront vc = .ok f)
    (h2 : f = .over vc' ∨ f = .fetches vc') :
    vc'.cursor = vc.cursor ∧ vc'.len = vc.len ∧ vc'.tlp = vc.tlp ∧ vc'.ls = vc.ls ∧ vc'.stream = vc.stream ∧
      vc'.err = vc.err ∧ vc'.shown = vc.shown ∧ vc'.finished = vc.finished ∧ vc'.phase = vc.phase := by
  have hq : ∃ q g pd env, r.quantize vc = { vc with qlenC := q, gate := g, pending := pd, env := env } := by
    rcases r.quantize_cases vc with ⟨q, e⟩ | e | ⟨-, e⟩
    · exact ⟨q, vc.gate, vc.pending, vc.env, e⟩
    · exact ⟨_, _, _, vc.env, e⟩
    · exact ⟨_, _, _, _, e⟩
  obtain ⟨q, g, pd, env, hq⟩ := hq
  rcases Rom.tickFront_cases h with ⟨-, e⟩ | ⟨-, -, e⟩ | ⟨-, -, -, e⟩ | ⟨-, -, -, es, w, -, ew, e⟩ <;>
    rcases h2 with h2 | h2 <;> rw [h2] at e <;> cases e
  · simp
  · rw [hq]; simp
  · rw [hq]; simp
  · rw [hq] at ew
    have : w.cursor = vc.cursor ∧ w.len = vc.len ∧ w.tlp = vc.tlp ∧ w.ls = vc.ls ∧ w.stream = vc.stream ∧
        w.err = vc.err ∧ w.shown = vc.shown ∧ w.finished = vc.finished ∧ w.phase = vc.phase := by
      rw [ew]; unfold Voice.sweepTick; split <;> simp
    split <;> simpa using this

end Sys2Proof.Machine
end

