-- ==== Sys2Proof/Laws/PerInstr.lean ====
section
/-! SUPPORT. A family of statements about every instruction as syntax: its encoding has the instruction's length, and the
first byte of the encoding tells that length (30_encoding.md R112). -/

namespace Sys2Proof.Laws.EncodedLength

/-- The bytes of an instruction are as many as its length, and its first byte alone tells how many. -/
def Statement (i : Instr) : Prop :=
  ∀ o : WideOrder, (encode o i).length = i.length ∧ ∃ b rest, encode o i = b :: rest ∧ instrLength b = some i.length

/-- The family for a NOTE or REST. -/
theorem of_noteOf {n : Nat} {a : NoteArgs} {i : Instr} (h : noteOf n a = some i) : Statement i := by
  intro o
  obtain ⟨h1, h2, e, -, l⟩ := encode_noteOf o h
  rw [e, l]
  exact ⟨noteBytes_length o n a, _, _, rfl, instrLength_noteByte n a h1 h2⟩

/-- The family for a first byte followed by the two bytes of a word. -/
theorem of_wide {b : Byte} {w : Word} {i : Instr} (he : ∀ o, encode o i = b :: wideBytes o w) (hl : i.length = 3)
    (hb : instrLength b = some 3) : Statement i := by
  intro o
  rw [he, hl]
  exact ⟨by simp, _, _, rfl, hb⟩

theorem endStream : Statement .endStream := fun _ => ⟨rfl, _, _, rfl, rfl⟩
theorem noteC (a : NoteArgs) : Statement (.noteC a) := of_noteOf (n := 1) rfl
theorem noteCS (a : NoteArgs) : Statement (.noteCS a) := of_noteOf (n := 2) rfl
theorem noteD (a : NoteArgs) : Statement (.noteD a) := of_noteOf (n := 3) rfl
theorem noteDS (a : NoteArgs) : Statement (.noteDS a) := of_noteOf (n := 4) rfl
theorem noteE (a : NoteArgs) : Statement (.noteE a) := of_noteOf (n := 5) rfl
theorem noteF (a : NoteArgs) : Statement (.noteF a) := of_noteOf (n := 6) rfl
theorem noteFS (a : NoteArgs) : Statement (.noteFS a) := of_noteOf (n := 7) rfl
theorem noteG (a : NoteArgs) : Statement (.noteG a) := of_noteOf (n := 8) rfl
theorem noteGS (a : NoteArgs) : Statement (.noteGS a) := of_noteOf (n := 9) rfl
theorem noteA (a : NoteArgs) : Statement (.noteA a) := of_noteOf (n := 10) rfl
theorem noteAS (a : NoteArgs) : Statement (.noteAS a) := of_noteOf (n := 11) rfl
theorem noteB (a : NoteArgs) : Statement (.noteB a) := of_noteOf (n := 12) rfl
theorem rest (a : NoteArgs) : Statement (.rest a) := of_noteOf (n := 13) rfl
theorem trackLoop : Statement .trackLoop := fun _ => ⟨rfl, _, _, rfl, rfl⟩
theorem loopStart (u : Byte) : Statement (.loopStart u) := fun _ => ⟨rfl, _, _, rfl, rfl⟩
theorem loopEnd : Statement .loopEnd := fun _ => ⟨rfl, _, _, rfl, rfl⟩
theorem noteLen (u : Byte) : Statement (.noteLen u) := fun _ => ⟨rfl, _, _, rfl, rfl⟩
theorem noteLenW (w : Word) : Statement (.noteLenW w) := of_wide (fun _ => rfl) rfl rfl
theorem quantLen (u : Byte) : Statement (.quantLen u) := fun _ => ⟨rfl, _, _, rfl, rfl⟩
theorem quantLenW (w : Word) : Statement (.quantLenW w) := of_wide (fun _ => rfl) rfl rfl
theorem octave (u : Byte) : Statement (.octave u) := fun _ => ⟨rfl, _, _, rfl, rfl⟩
theorem octaveUp : Statement .octaveUp := fun _ => ⟨rfl, _, _, rfl, rfl⟩
theorem octaveDown : Statement .octaveDown := fun _ => ⟨rfl, _, _, rfl, rfl⟩
theorem transpose (s : Byte) : Statement (.transpose s) := fun _ => ⟨rfl, _, _, rfl, rfl⟩
theorem detune (s : Byte) : Statement (.detune s) := fun _ => ⟨rfl, _, _, rfl, rfl⟩
theorem timbre (s : Byte) : Statement (.timbre s) := fun _ => ⟨rfl, _, _, rfl, rfl⟩
theorem volume (u : Byte) : Statement (.volume u) := fun _ => ⟨rfl, _, _, rfl, rfl⟩
theorem volumeUp : Statement .volumeUp := fun _ => ⟨rfl, _, _, rfl, rfl⟩
theorem volumeDown : Statement .volumeDown := fun _ => ⟨rfl, _, _, rfl, rfl⟩
theorem pitchSweep (len step : Byte) : Statement (.pitchSweep len step) := fun _ => ⟨rfl, _, _, rfl, rfl⟩
theorem envVolume (k : Byte) : Statement (.envVolume k) := fun _ => ⟨rfl, _, _, rfl, rfl⟩
theorem envNote (k : Byte) : Statement (.envNote k) := fun _ => ⟨rfl, _, _, rfl, rfl⟩
theorem envTimbre (k : Byte) : Statement (.envTimbre k) := fun _ => ⟨rfl, _, _, rfl, rfl⟩
theorem envPitch (k : Byte) : Statement (.envPitch k) := fun _ => ⟨rfl, _, _, rfl, rfl⟩

end Sys2Proof.Laws.EncodedLength
end

