-- ==== Sys2Proof/Laws/Run.lean ====
section
/-! SUPPORT. Runs of several steps: one step and the rest, and a run over events that apply pending writes. -/

namespace Sys2Proof.Machine

/-- A run of no step. -/
@[simp] theorem run_zero (s : State) : run 0 s = .next s := rfl

/-- A run is a step and the rest of the run. -/
theorem run_succ {s t : State} (n : Nat) (h : step s = .next t) : run (n + 1) s = run n t := by
  have h' : Sys2Proof.core.step s = .next t := h
  show Host.Core.run Sys2Proof.core (n + 1) s = _
  simp only [Host.Core.run, h']
  rfl

/-- The events `settle v f` for the registers of `order` apply `Voice.settle` to voice `v` in that order. -/
theorem run_settles {s : State} {v : Nat} {vc : Voice} {order : List OscField} {rest : List Input}
    (he : s.engine = .between []) (hi : s.inputs = order.map (Input.settle v) ++ rest)
    (hv : s.voices[v]? = some vc) :
    run order.length s =
      .next { s with inputs := rest, voices := s.voices.set v (order.foldl Voice.settle vc) } := by
  induction order generalizing s vc with
  | nil =>
    obtain ⟨-, rfl⟩ := List.getElem?_eq_some_iff.mp hv
    simp only [List.map_nil, List.nil_append] at hi
    simp [← hi]
  | cons f order ih =>
    have hs : step s = .next
        { s with inputs := order.map (Input.settle v) ++ rest, voices := s.voices.set v (vc.settle f) } := by
      rw [step_serve he]
      simp only [serve, hi, List.map_cons, List.cons_append, serveSettle, hv]
      rfl
    have hv' : (s.voices.set v (vc.settle f))[v]? = some (vc.settle f) := by
      simp [(List.getElem?_eq_some_iff.mp hv).1]
    rw [List.length_cons, run_succ _ hs]
    have rest_run := ih (s := { s with inputs := order.map (Input.settle v) ++ rest,
                                       voices := s.voices.set v (vc.settle f) }) he rfl hv'
    rw [rest_run]
    simp

end Sys2Proof.Machine
end

