-- ==== Sys2Proof/Tests/Slice0.lean ====
section
/-! SUPPORT. Tests: ill-formed terms refused, words written out from the encoding tables, one step of each instruction with
the value the spec's own example gives, and a state that meets the hypotheses of each statement. -/

namespace Sys2Proof.Tests

open Sys2Proof.Machine

/-! ### Well-formedness -/

theorem test_wf_refuses_narrow_duration : (Instr.noteC ⟨false, some 256, none⟩).wf = false := by decide
theorem test_wf_refuses_narrow_quantization : (Instr.rest ⟨false, some 1, some 300⟩).wf = false := by decide
theorem test_wf_admits_narrow_boundary : (Instr.noteC ⟨false, some 255, some 255⟩).wf = true := by decide
theorem test_wf_admits_wide_boundary : (Instr.noteB ⟨true, some 65535, some 256⟩).wf = true := by decide
theorem test_wf_each_note_refuses : ∀ n ∈ List.range 14, ∀ i ∈ noteOf n ⟨false, none, some 256⟩, i.wf = false := by decide

/-! ### Words written out from 30_encoding.md R110, R111, R114 -/

theorem test_decode_end : decode .le [0x00] = .ok (.endStream, []) := rfl
theorem test_decode_noteC : decode .le [0x01] = .ok (.noteC ⟨false, none, none⟩, []) := rfl
theorem test_decode_noteCS : decode .le [0x12, 0xff] = .ok (.noteCS ⟨false, some 255, none⟩, []) := rfl
theorem test_decode_noteD : decode .le [0x23, 0x05] = .ok (.noteD ⟨false, none, some 5⟩, []) := rfl
theorem test_decode_noteDS : decode .le [0x34, 0x06, 0x07] = .ok (.noteDS ⟨false, some 6, some 7⟩, []) := rfl
theorem test_decode_noteE : decode .le [0x45] = .ok (.noteE ⟨true, none, none⟩, []) := rfl
theorem test_decode_noteF : decode .le [0x56, 0x01, 0x02] = .ok (.noteF ⟨true, some 513, none⟩, []) := rfl
theorem test_decode_noteFS : decode .be [0x67, 0x01, 0x02] = .ok (.noteFS ⟨true, none, some 258⟩, []) := rfl
theorem test_decode_noteG : decode .be [0x78, 0, 1, 2, 0] = .ok (.noteG ⟨true, some 1, some 512⟩, []) := rfl
theorem test_decode_noteGS : decode .le [0x09, 0x00] = .ok (.noteGS ⟨false, none, none⟩, [0x00]) := rfl
theorem test_decode_noteA : decode .le [0x0a] = .ok (.noteA ⟨false, none, none⟩, []) := rfl
theorem test_decode_noteAS : decode .le [0x0b] = .ok (.noteAS ⟨false, none, none⟩, []) := rfl
theorem test_decode_noteB : decode .le [0x0c] = .ok (.noteB ⟨false, none, none⟩, []) := rfl
theorem test_decode_rest : decode .le [0x1d, 0x02] = .ok (.rest ⟨false, some 2, none⟩, []) := rfl
theorem test_decode_trackLoop : decode .le [0x80] = .ok (.trackLoop, []) := rfl
theorem test_decode_loopStart : decode .le [0x81, 0x03] = .ok (.loopStart 3, []) := rfl
theorem test_decode_loopEnd : decode .le [0x82] = .ok (.loopEnd, []) := rfl
theorem test_decode_noteLen : decode .le [0x83, 0x04] = .ok (.noteLen 4, []) := rfl
theorem test_decode_noteLenW : decode .le [0x84, 0x2c, 0x01] = .ok (.noteLenW 300, []) := rfl
theorem test_decode_quantLen : decode .le [0x85, 0x02] = .ok (.quantLen 2, []) := rfl
theorem test_decode_quantLenW : decode .be [0x86, 0x00, 0x10] = .ok (.quantLenW 16, []) := rfl
theorem test_decode_octave : decode .le [0x87, 0x09] = .ok (.octave 9, []) := rfl
theorem test_decode_octaveUp : decode .le [0x88] = .ok (.octaveUp, []) := rfl
theorem test_decode_octaveDown : decode .le [0x89] = .ok (.octaveDown, []) := rfl
theorem test_decode_transpose : decode .le [0x8a, 0xfe] = .ok (.transpose 0xfe, []) := rfl
theorem test_decode_detune : decode .le [0x8b, 0x05] = .ok (.detune 5, []) := rfl
theorem test_decode_timbre : decode .le [0x8c, 0x40] = .ok (.timbre 64, []) := rfl
theorem test_decode_volume : decode .le [0x8d, 0x0a] = .ok (.volume 10, []) := rfl
theorem test_decode_volumeUp : decode .le [0x8e] = .ok (.volumeUp, []) := rfl
theorem test_decode_volumeDown : decode .le [0x8f] = .ok (.volumeDown, []) := rfl
theorem test_decode_pitchSweep : decode .le [0x90, 0x04, 0x0a] = .ok (.pitchSweep 4 10, []) := rfl
theorem test_decode_envVolume : decode .le [0x91, 0x00] = .ok (.envVolume 0, []) := rfl
theorem test_decode_envNote : decode .le [0x92, 0x01] = .ok (.envNote 1, []) := rfl
theorem test_decode_envTimbre : decode .le [0x93, 0x02] = .ok (.envTimbre 2, []) := rfl
theorem test_decode_envPitch : decode .le [0x94, 0x03] = .ok (.envPitch 3, []) := rfl
/-- 30_encoding.md R119: a byte just below and just above the legal ones. -/
theorem test_decode_illegal : decode .le [0x0e] = .error (.unknownOpcode 0x0e) ∧
    decode .le [0x70] = .error (.unknownOpcode 0x70) ∧ decode .le [0x95] = .error (.unknownOpcode 0x95) :=
  ⟨rfl, rfl, rfl⟩
theorem test_decode_truncated : decode .le [0x71, 0, 0, 0] = .error (.truncated 0x71) := rfl
theorem test_encode_note : encode .be (.noteC ⟨true, some 4, some 512⟩) = [0x71, 0, 4, 2, 0] := by decide
theorem test_table_word : decodeTableWord 8 0x71 = some (.noteC ⟨true, some 0, some 0⟩) := by decide

/-! ### Small states -/

/-- The sequences of 95_test_vectors.md and of the rules' examples. -/
def rom : Rom :=
  Rom.ofSeqs Config.testFreqTable Config.testAmpTable
    [[0x00, 0xfd, 0xfa, 0x80], [0x00, 0x04, 0x07, 0x81, 0x80], [0x40, 0x00, 0x80], [0x02, 0xfe, 0x81, 0x80],
     [0x02, 0x04, 0x81, 0x06, 0x08, 0x82, 0x0a, 0x80], [0x81, 0x80]]

/-- A voice just initialised with a stream. -/
def voice (bs : List Byte) : Voice :=
  (Voice.powerOn (Config.deployment .le)).init (Config.deployment .le) bs (BitVec.ofNat 16 bs.length)

/-- The decode pass of voice 0. -/
def pass : Pass := { voice := 0, restarted := false, todo := [] }

/-- A block of one voice in its decode pass. -/
def inPass (vc : Voice) : State :=
  { deploy := Config.deployment .le, rom := rom, voices := [vc], engine := .pass pass, inputs := [] }

/-- A block of one voice with no tick running. -/
def waiting (vc : Voice) (inputs : List Input) : State :=
  { deploy := Config.deployment .le, rom := rom, voices := [vc], engine := .between [], inputs := inputs }

/-- Voice 0 after an outcome. -/
def voice0 : Host.Outcome State Fault Refusal → Option Voice
  | .next t => t.voices[0]?
  | _ => none

/-- Voice 0 after one instruction of its decode pass. -/
def after (i : Instr) (vc : Voice) : Option Voice := voice0 (exec i (inPass vc))

/-! ### One step of each instruction (the values of the rules' examples) -/

theorem test_end_finishes :
    (after .endStream { voice [0x00] with playing := true, gate := true }).map (fun v => (v.finished, v.gate, v.cursor))
      = some (true, false, 0) := by decide
theorem test_end_restarts :
    (after .endStream { voice [0x80, 0x01, 0x00] with tlpSet := true, tlp := 1, cursor := 2 }).map (fun v =>
      (v.finished, v.cursor)) = some (false, 1) := by decide
theorem test_noteC : (after (.noteC ⟨false, some 8, some 3⟩) (voice [0x31, 0x08, 0x03])).map
    (fun v => (v.cursor, v.nlenC, v.qlenC, v.gate)) = some (3, 8, 3, true) := by decide
theorem test_noteC_publishes : (after (.noteC ⟨false, some 8, some 3⟩) (voice [0x31, 0x08, 0x03])).map
    (fun v => (v.freq, v.amp, v.pw)) = some (857, 255, 0) := by decide
theorem test_noteCS : (after (.noteCS ⟨false, none, none⟩) (voice [])).map (fun v => (v.semi, v.freq)) = some (1, 908) := by
  decide
theorem test_noteD : (after (.noteD ⟨false, none, none⟩) (voice [])).map (fun v => (v.semi, v.freq)) = some (2, 962) := by
  decide
theorem test_noteDS : (after (.noteDS ⟨false, none, none⟩) (voice [])).map (fun v => (v.semi, v.freq)) = some (3, 1019) := by
  decide
theorem test_noteE : (after (.noteE ⟨false, none, none⟩) (voice [])).map (fun v => (v.semi, v.freq)) = some (4, 1080) := by
  decide
theorem test_noteF : (after (.noteF ⟨false, none, none⟩) (voice [])).map (fun v => (v.semi, v.freq)) = some (5, 1144) := by
  decide
theorem test_noteFS : (after (.noteFS ⟨false, none, none⟩) (voice [])).map (fun v => (v.semi, v.freq)) = some (6, 1212) := by
  decide
theorem test_noteG : (after (.noteG ⟨false, none, none⟩) (voice [])).map (fun v => (v.semi, v.freq)) = some (7, 1284) := by
  decide
theorem test_noteGS : (after (.noteGS ⟨false, none, none⟩) (voice [])).map (fun v => (v.semi, v.freq)) = some (8, 1360) := by
  decide
theorem test_noteA : (after (.noteA ⟨false, none, none⟩) (voice [])).map (fun v => (v.semi, v.freq)) = some (9, 1441) := by
  decide
theorem test_noteAS : (after (.noteAS ⟨false, none, none⟩) (voice [])).map (fun v => (v.semi, v.freq)) = some (10, 1527) := by
  decide
theorem test_noteB : (after (.noteB ⟨false, none, none⟩) (voice [])).map (fun v => (v.semi, v.freq)) = some (11, 1618) := by
  decide
/-- 95_test_vectors.md W5d: an octave above 7 saturates. -/
theorem test_noteB_saturates : (after (.noteB ⟨false, none, none⟩) { voice [] with transpose := 127, octave := 7 }).map
    Voice.freq = some 65535 := by decide
theorem test_rest : (after (.rest ⟨false, some 2, some 9⟩)
    { voice (List.replicate 8 0) with cursor := 5, gate := true, playing := true, qlenC := 4 }).map
    (fun v => (v.cursor, v.nlenC, v.qlenC, v.gate, v.playing)) = some (8, 2, 0, false, false) := by decide
theorem test_trackLoop : (after .trackLoop (voice [0x80, 0x01, 0x00])).map (fun v => (v.tlp, v.tlpSet, v.cursor))
    = some (1, true, 1) := by decide
theorem test_loopStart : (after (.loopStart 3) { voice (List.replicate 8 0) with cursor := 4 }).map
    (fun v => (v.ls[0], v.lsp, v.cursor)) = some (⟨6, 3⟩, 1, 6) := by decide
theorem test_loopStart_overflow : (after (.loopStart 1) { voice (List.replicate 12 0) with cursor := 8, lsp := 4 }).map
    (fun v => (v.finished, v.err, v.cursor, v.lsp)) = some (true, some .loopStackOverflow, 8, 4) := by decide
theorem test_loopEnd_branches : (after .loopEnd
    { voice (List.replicate 12 0) with cursor := 9, lsp := 1, ls := #v[⟨6, 3⟩, ⟨0, 0⟩, ⟨0, 0⟩, ⟨0, 0⟩] }).map
    (fun v => (v.ls[0], v.lsp, v.cursor)) = some (⟨6, 2⟩, 1, 6) := by decide
theorem test_loopEnd_pops : (after .loopEnd
    { voice (List.replicate 12 0) with cursor := 9, lsp := 1, ls := #v[⟨6, 1⟩, ⟨0, 0⟩, ⟨0, 0⟩, ⟨0, 0⟩] }).map
    (fun v => (v.lsp, v.cursor)) = some (0, 10) := by decide
theorem test_noteLen : (after (.noteLen 4) (voice [0x83, 4])).map (fun v => (v.noteLen, v.cursor)) = some (4, 2) := by decide
theorem test_noteLenW : (after (.noteLenW 300) (voice [0x84, 0x2c, 1])).map (fun v => (v.noteLen, v.cursor))
    = some (300, 3) := by decide
theorem test_quantLen : (after (.quantLen 2) (voice [0x85, 2])).map (fun v => (v.quantLen, v.cursor)) = some (2, 2) := by
  decide
theorem test_quantLenW : (after (.quantLenW 4096) (voice [0x86, 0, 0x10])).map (fun v => (v.quantLen, v.cursor))
    = some (4096, 3) := by decide
theorem test_octave : (after (.octave 9) (voice [0x87, 9])).map (fun v => (v.octave, v.cursor)) = some (7, 2) := by decide
theorem test_octaveUp : (after .octaveUp (voice [0x88])).map (fun v => (v.octave, v.cursor)) = some (5, 1) := by decide
theorem test_octaveUp_saturates : (after .octaveUp { voice [0x88] with octave := 7 }).map Voice.octave = some 7 := by decide
theorem test_octaveDown : (after .octaveDown (voice [0x89])).map (fun v => (v.octave, v.cursor)) = some (3, 1) := by decide
theorem test_octaveDown_saturates : (after .octaveDown { voice [0x89] with octave := 0 }).map Voice.octave = some 0 := by
  decide
theorem test_transpose : (after (.transpose 0xfe) (voice [0x8a, 0xfe])).map (fun v => (v.transpose.toInt, v.cursor))
    = some (-2, 2) := by decide
theorem test_detune : (after (.detune 5) (voice [0x8b, 5])).map (fun v => (v.detune.toInt, v.cursor)) = some (5, 2) := by
  decide
theorem test_timbre : (after (.timbre 0x40) (voice [0x8c, 0x40])).map (fun v => (v.timbre.toInt, v.cursor))
    = some (64, 2) := by decide
/-- 43_register_set.md R229: timbre 64 publishes a pulse width of 16384. -/
theorem test_timbre_published : (after (.noteC ⟨false, none, none⟩) { voice [] with timbre := 0x40 }).map
    (fun v => v.pw.toInt) = some 16384 := by decide
theorem test_volume : (after (.volume 10) (voice [0x8d, 10])).map (fun v => (v.volume, v.cursor)) = some (10, 2) := by decide
theorem test_volume_saturates : (after (.volume 16) (voice [0x8d, 16])).map Voice.volume = some 15 := by decide
theorem test_volumeUp : (after .volumeUp { voice [0x8e] with volume := 10 }).map (fun v => (v.volume, v.cursor))
    = some (11, 1) := by decide
theorem test_volumeUp_saturates : (after .volumeUp (voice [0x8e])).map Voice.volume = some 15 := by decide
theorem test_volumeDown : (after .volumeDown { voice [0x8f] with volume := 10 }).map (fun v => (v.volume, v.cursor))
    = some (9, 1) := by decide
theorem test_volumeDown_saturates : (after .volumeDown { voice [0x8f] with volume := 0 }).map Voice.volume = some 0 := by
  decide
theorem test_pitchSweep : (after (.pitchSweep 4 0xf6) (voice [0x90, 4, 0xf6])).map
    (fun v => (v.sweepLen, v.sweepStep.toInt, v.cursor)) = some (4, -10, 3) := by decide
theorem test_envVolume : (after (.envVolume 0) (voice [0x91, 0])).map (fun v => (v.env.vol, v.cursor))
    = some (⟨true, 0, 0, false, 0⟩, 2) := by decide
/-- 45_sequence_stepper.md R274: a loop marker with no data byte before it. -/
theorem test_envVolume_invalid : (after (.envVolume 5) (voice [0x91, 5])).map (fun v => (v.env.vol.sel, v.err, v.cursor))
    = some (false, some .invalidEnvelopeIndex, 0) := by decide
theorem test_envNote : (after (.envNote 1) (voice [0x92, 1])).map (fun v => (v.env.note, v.cursor))
    = some (⟨true, 1, 0, false, 0⟩, 2) := by decide
theorem test_envTimbre : (after (.envTimbre 2) (voice [0x93, 2])).map (fun v => (v.env.timb, v.cursor))
    = some (⟨true, 2, 0, false, 0⟩, 2) := by decide
theorem test_envPitch : (after (.envPitch 3) (voice [0x94, 3])).map (fun v => (v.env.pitch, v.cursor))
    = some (⟨true, 3, 0, false, 0⟩, 2) := by decide

/-! ### The fetch, the tick, the stepper and the oscillator -/

theorem test_step_fetches : (voice0 (step (inPass (voice [0x8d, 0x0a, 0x01])))).map (fun v => (v.volume, v.cursor))
    = some (10, 2) := by decide
/-- 60_exceptions.md R324: an illegal byte at the last offset. -/
theorem test_step_unknown_opcode : (voice0 (step (inPass (voice [0x95])))).map Voice.err = some (some .unknownOpcode) := by
  decide
/-- 60_exceptions.md R324: a LOOP_START whose operand lies past the end, with four frames open. -/
theorem test_step_bounds_before_overflow : (voice0 (step (inPass { voice [0x81] with lsp := 4 }))).map Voice.err
    = some (some .streamBoundsExceeded) := by decide
/-- 45_sequence_stepper.md R280: the release of `[2, 4, LOOP, 6, 8, REL, 10, END]` at position 1. -/
theorem test_release : rom.envRelease ⟨true, 4, 1, false, 2⟩ = ⟨true, 4, 6, true, 2⟩ := by decide
/-- 46_oscillator.md R300: two of the example's samples. -/
theorem test_sample : ((Voice.renderSample^[2]) { voice [] with shown := ⟨true, 16384, 255, 0⟩ }).phase.toInt = -32768 ∧
    ((Voice.renderSample^[2]) { voice [] with shown := ⟨true, 16384, 255, 0⟩ }).sample.toInt = -255 := by decide
/-- 40_interpreter_tick.md R162: one octave up, and a negative note number. -/
theorem test_noteFreq : rom.noteFreq 107 = 25894 ∧ rom.noteFreq (-128) = 0 ∧ rom.noteFreq 57 = 1441 := by decide
theorem test_with_fetch_word : (voice0 (step (State.reset.withFetchWord 8 0x88))).map Voice.octave = some 5 := by decide
theorem test_reset_memory_wf : State.reset.rom.seqMem.wf = true := by decide

/-! ### States that meet the hypotheses of the statements

`witness_X` meets every hypothesis of the statement `X`; a suffix names the clause or the boundary it is for. -/

theorem in_pass (vc : Voice) : InPass (inPass vc) pass vc := ⟨rfl, rfl⟩

/-- A voice with a volume and a pitch envelope selected, in the middle of a stream. -/
def selected : Voice :=
  { voice [0x01, 0x82, 0x00] with
    env := { Envs.unset with vol := ⟨true, 0, 3, false, 0xfa⟩, pitch := ⟨true, 3, 0, false, 0⟩ } }

theorem selected_envsOk : rom.envsOk selected.env := by
  unfold Rom.envsOk Rom.envOk; decide

theorem witness_DecodeInvertsEncode : (Instr.rest ⟨false, some 255, some 0⟩).wf = true ∧
    (Instr.noteB ⟨true, some 65535, none⟩).wf = true ∧ (Instr.pitchSweep 255 0x80).wf = true := by decide
theorem witness_EncodeInvertsDecode : decode .be [0x1c, 0xff, 0x80] = .ok (.noteB ⟨false, some 255, none⟩, [0x80]) := rfl
theorem witness_FirstByteFixesLength : decode .le [0x00, 1] = .ok (.endStream, [1]) ∧
    decode .le [0x94, 3] = .ok (.envPitch 3, []) ∧ decode .le [0x90, 1, 2] = .ok (.pitchSweep 1 2, []) ∧
    decode .le [0x7d, 1, 0, 2, 0] = .ok (.rest ⟨true, some 1, some 2⟩, []) ∧
    decode .le [0x4c, 7] = .ok (.noteB ⟨true, none, none⟩, [7]) := ⟨rfl, rfl, rfl, rfl, rfl⟩
theorem witness_FirstByteFixesLength_wide :
    noteOf 12 { wide := true, dur := none, quant := none } = some (.noteB ⟨true, none, none⟩) ∧
    noteOf 12 { wide := false, dur := none, quant := none } = some (.noteB ⟨false, none, none⟩) ∧
    noteOf 13 { wide := true, dur := none, quant := none } = some (.rest ⟨true, none, none⟩) ∧
    noteOf 13 { wide := false, dur := none, quant := none } = some (.rest ⟨false, none, none⟩) := ⟨rfl, rfl, rfl, rfl⟩
theorem witness_StepRunsDecodedInstruction : InPass (inPass (voice [0x31, 8, 3])) pass (voice [0x31, 8, 3]) ∧
    (voice [0x31, 8, 3]).stream = some (Memory.ofBytes 0 [0x31, 8, 3]) ∧
    (Instr.noteC ⟨false, some 8, some 3⟩).wf = true ∧
    (voice [0x31, 8, 3]).cursor.toNat + (encode .le (.noteC ⟨false, some 8, some 3⟩)).length = 3 ∧
    (voice [0x31, 8, 3]).len.toNat = 3 ∧
    ∀ (j : Nat) (b : Byte), (encode .le (.noteC ⟨false, some 8, some 3⟩))[j]? = some b →
      (Memory.ofBytes 0 [0x31, 8, 3]).read (0 + j) = b := by
  refine ⟨in_pass _, rfl, by decide, by decide, by decide, fun j b h => ?_⟩
  rw [Memory.read_ofBytes, show ([0x31, 8, 3] : List Byte) = encode .le (.noteC ⟨false, some 8, some 3⟩) by decide, h]
  rfl
theorem witness_FetchChecksInOrder_empty : InPass (inPass (voice [])) pass (voice []) ∧
    (voice []).stream = some [] ∧ (voice []).len.toNat ≤ (voice []).cursor.toNat := ⟨in_pass _, rfl, by decide⟩
theorem witness_FetchChecksInOrder_illegal : InPass (inPass (voice [0x95])) pass (voice [0x95]) ∧
    (voice [0x95]).stream = some [(0, 0x95)] ∧ (voice [0x95]).cursor.toNat < (voice [0x95]).len.toNat ∧
    instrLength (Memory.read [(0, 0x95)] (voice [0x95]).cursor.toNat) = none := ⟨in_pass _, rfl, by decide, by decide⟩
theorem witness_FetchChecksInOrder_truncated : InPass (inPass (voice [0x81])) pass (voice [0x81]) ∧
    (voice [0x81]).stream = some [(0, 0x81)] ∧ (voice [0x81]).cursor.toNat < (voice [0x81]).len.toNat ∧
    instrLength (Memory.read [(0, 0x81)] (voice [0x81]).cursor.toNat) = some 2 ∧
    (voice [0x81]).len.toNat < (voice [0x81]).cursor.toNat + 2 := ⟨in_pass _, rfl, by decide, by decide, by decide⟩
theorem witness_ErrorsArePrecise : ∃ t vc', InPass (inPass (voice [0x82])) pass (voice [0x82]) ∧
    exec .loopEnd (inPass (voice [0x82])) = .next t ∧ t.engine = .between pass.todo ∧
    t.voices[pass.voice]? = some vc' ∧ vc'.result.error = some .loopStackUnderflow :=
  ⟨_, _, in_pass _, rfl, rfl, rfl, rfl⟩
theorem witness_ErrorsArePrecise_fetch : ∃ t vc', InPass (inPass (voice [])) pass (voice []) ∧
    step (inPass (voice [])) = .next t ∧ t.engine = .between pass.todo ∧
    t.voices[pass.voice]? = some vc' ∧ vc'.result.error = some .streamBoundsExceeded :=
  ⟨_, _, in_pass _, rfl, rfl, rfl, rfl⟩
theorem witness_EndFinishesOrRestarts_finishes : InPass (inPass (voice [0])) pass (voice [0]) ∧
    (voice [0]).tlpSet = false := ⟨in_pass _, rfl⟩
/-- A voice with a track loop point. -/
def looping : Voice := { voice [0x80, 0x00] with tlpSet := true, tlp := 1, cursor := 1 }
theorem witness_EndFinishesOrRestarts_restarts : InPass (inPass looping) pass looping ∧ looping.tlpSet = true ∧
    pass.restarted = false := ⟨in_pass _, rfl, rfl⟩
theorem witness_EndFinishesOrRestarts_empty : InPass
    { inPass looping with engine := .pass { pass with restarted := true } } { pass with restarted := true } looping ∧
    looping.tlpSet = true ∧ ({ pass with restarted := true } : Pass).restarted = true := ⟨⟨rfl, rfl⟩, rfl, rfl⟩
theorem witness_NoteStartsTheNote_lowest : InPass (inPass selected) pass selected ∧
    noteOf ((0 : Fin 12).val + 1) ⟨true, some 65535, none⟩ = some (.noteC ⟨true, some 65535, none⟩) ∧
    (inPass selected).rom.envsOk selected.env := ⟨in_pass _, rfl, selected_envsOk⟩
theorem witness_NoteStartsTheNote_highest : InPass (inPass selected) pass selected ∧
    noteOf ((11 : Fin 12).val + 1) ⟨false, none, some 0⟩ = some (.noteB ⟨false, none, some 0⟩) ∧
    (inPass selected).rom.envsOk selected.env := ⟨in_pass _, rfl, selected_envsOk⟩
/-- One state meets the only hypothesis, a running decode pass, of the statements about REST, TRACK_LOOP, the lengths, the
octave, the modifiers, the volume and PITCH_SWEEP. -/
theorem witness_in_pass : InPass (inPass selected) pass selected := in_pass _
theorem witness_RestSilences : InPass (inPass selected) pass selected := in_pass _
theorem witness_TrackLoopMarksNextInstruction : InPass (inPass selected) pass selected := in_pass _
theorem witness_LengthsSetTheirRegister : InPass (inPass selected) pass selected := in_pass _
theorem witness_WideLengthsFollowByteOrder : InPass (inPass selected) pass selected := in_pass _
theorem witness_OctaveSaturates : InPass (inPass { selected with octave := 7 }) pass { selected with octave := 7 } :=
  in_pass _
theorem witness_ModifiersAreReplaced : InPass (inPass selected) pass selected := in_pass _
theorem witness_VolumeSaturates : InPass (inPass { selected with volume := 0 }) pass { selected with volume := 0 } :=
  in_pass _
theorem witness_PitchSweepSetsTheSweep : InPass (inPass selected) pass selected := in_pass _
/-- A voice with loop frames open, the innermost with `rem` 1 or 2. -/
def framed (n : Fin 5) (rem : Byte) : Voice :=
  { voice (List.replicate 12 0x82) with lsp := n, ls := #v[⟨2, rem⟩, ⟨4, rem⟩, ⟨6, rem⟩, ⟨8, rem⟩], cursor := 9 }
theorem witness_LoopStartPushesFrame_pushes : InPass (inPass (framed 3 1)) pass (framed 3 1) ∧ (framed 3 1).lsp.val < 4 :=
  ⟨in_pass _, by decide⟩
theorem witness_LoopStartPushesFrame_overflows : InPass (inPass (framed 4 1)) pass (framed 4 1) ∧
    (framed 4 1).lsp.val = 4 := ⟨in_pass _, rfl⟩
theorem witness_LoopEndBranchesOrPops_pops : InPass (inPass (framed 4 1)) pass (framed 4 1) ∧
    (framed 4 1).lsp.val = (3 : Fin 4).val + 1 ∧ (framed 4 1).ls[(3 : Fin 4)].rem.toNat ≤ 1 :=
  ⟨in_pass _, rfl, by decide⟩
theorem witness_LoopEndBranchesOrPops_branches : InPass (inPass (framed 1 2)) pass (framed 1 2) ∧
    (framed 1 2).lsp.val = (0 : Fin 4).val + 1 ∧ 2 ≤ (framed 1 2).ls[(0 : Fin 4)].rem.toNat :=
  ⟨in_pass _, rfl, by decide⟩
theorem witness_LoopEndBranchesOrPops_underflows : InPass (inPass (framed 0 2)) pass (framed 0 2) ∧
    (framed 0 2).lsp.val = 0 := ⟨in_pass _, rfl⟩
theorem witness_RegistersHaveTheirWriters : ∃ t vc', InPass (inPass (voice [0x88])) pass (voice [0x88]) ∧
    exec .octaveUp (inPass (voice [0x88])) = .next t ∧ t.voices[pass.voice]? = some vc' ∧
    vc'.octave ≠ (voice [0x88]).octave := ⟨_, _, in_pass _, rfl, rfl, by decide⟩
theorem witness_RegistersHaveTheirWriters_selection : ∃ t vc', InPass (inPass (voice [0x92, 4])) pass (voice [0x92, 4]) ∧
    exec (.envNote 4) (inPass (voice [0x92, 4])) = .next t ∧ t.voices[pass.voice]? = some vc' ∧
    (vc'.env.get .note).sel ≠ ((voice [0x92, 4]).env.get .note).sel := ⟨_, _, in_pass _, rfl, rfl, by decide⟩
/-- A voice whose selected note envelope has been released. -/
def released : Voice := { voice [0x01] with env := { Envs.unset with note := ⟨true, 4, 7, true, 10⟩ } }
theorem witness_RegistersHaveTheirWriters_release : ∃ t vc', InPass (inPass released) pass released ∧
    exec (.noteC ⟨false, none, none⟩) (inPass released) = .next t ∧ t.voices[pass.voice]? = some vc' ∧
    (vc'.env.get .note).rel ≠ (released.env.get .note).rel := ⟨_, _, in_pass _, rfl, rfl, by decide⟩
theorem witness_ControlOpcodesAreSilent : ∃ t vc', isControl .trackLoop = true ∧ isControl (.envPitch 0) = true ∧
    InPass (inPass (voice [0x80])) pass (voice [0x80]) ∧ exec .trackLoop (inPass (voice [0x80])) = .next t ∧
    t.engine = .pass pass ∧ t.voices[pass.voice]? = some vc' :=
  ⟨_, _, by decide, by decide, in_pass _, rfl, rfl, rfl⟩
theorem witness_SweepRampIsLinear : ({ voice [] with sweepLen := 255, sweepStep := 0x80, sweepRem := 255 } : Voice).sweepRem
    = ({ voice [] with sweepLen := 255, sweepStep := 0x80, sweepRem := 255 } : Voice).sweepLen ∧
    ({ voice [] with sweepLen := 255, sweepStep := 0x80, sweepRem := 255 } : Voice).sweepAcc = 0 := ⟨rfl, rfl⟩
theorem witness_EnvelopeSelection_valid : InPass (inPass (voice [0x91, 4])) pass (voice [0x91, 4]) ∧
    (inPass (voice [0x91, 4])).rom.seqValid 4 = true := ⟨in_pass _, by decide⟩
theorem witness_EnvelopeSelection_invalid : InPass (inPass (voice [0x91, 5])) pass (voice [0x91, 5]) ∧
    (inPass (voice [0x91, 5])).rom.seqValid 5 = false ∧ (inPass (voice [0x91, 5])).rom.seqValid 6 = false :=
  ⟨in_pass _, by decide, by decide⟩
/-- An instance of sequence 4, `[2, 4, LOOP, 6, 8, REL, 10, END]`. -/
def env4 (pos : Byte) (rel : Bool) : Env := ⟨true, 4, pos, rel, 0⟩
theorem env4_ok : ∀ p ∈ ([0, 2, 5, 7] : List Byte), ∀ b : Bool, rom.envOk (env4 p b) := by
  unfold Rom.envOk; decide
theorem witness_EnvStepByMarker_loop : rom.envOk (env4 2 false) ∧ (env4 2 false).sel = true ∧
    rom.seqRead (env4 2 false).idx (env4 2 false).pos.toNat = some 0x81 := ⟨env4_ok _ (by decide) _, rfl, by decide⟩
theorem witness_EnvStepByMarker_release : rom.envOk (env4 5 false) ∧ (env4 5 false).sel = true ∧
    rom.seqRead (env4 5 false).idx (env4 5 false).pos.toNat = some 0x82 ∧ (env4 5 false).rel = false ∧
    rom.hasLoop (env4 5 false).idx = true ∧ rom.envOk (env4 5 true) ∧ (env4 5 true).rel = true :=
  ⟨env4_ok _ (by decide) _, rfl, by decide, rfl, by decide, env4_ok _ (by decide) _, rfl⟩
theorem witness_EnvStepByMarker_end : rom.envOk (env4 7 false) ∧
    rom.seqRead (env4 7 false).idx (env4 7 false).pos.toNat = some 0x80 ∧ (env4 7 false).rel = false ∧
    rom.hasLoop (env4 7 false).idx = true ∧ rom.envOk (env4 7 true) ∧ (env4 7 true).rel = true :=
  ⟨env4_ok _ (by decide) _, by decide, rfl, by decide, env4_ok _ (by decide) _, rfl⟩
theorem witness_EnvStepByMarker_data : rom.envOk (env4 0 false) ∧ (env4 0 false).sel = true ∧
    rom.seqRead (env4 0 false).idx (env4 0 false).pos.toNat = some 2 := ⟨env4_ok _ (by decide) _, rfl, by decide⟩
theorem witness_EnvStepEnds : rom.envOk (env4 7 false) ∧ (env4 7 false).sel = true ∧
    rom.seqLen[(env4 7 false).idx.toNat]? = some 8 := ⟨env4_ok _ (by decide) _, rfl, by decide⟩
theorem witness_EnvStepHoldsAtEnd : rom.seqRead (env4 7 true).idx (env4 7 true).pos.toNat = some 0x80 ∧
    (env4 7 true).rel = true := ⟨by decide, rfl⟩
theorem witness_ReleaseJumpsToTail_jumps : rom.seqValid (env4 5 false).idx = true ∧ (env4 5 false).rel = false ∧
    5 < rom.endIdx (env4 5 false).idx ∧ rom.seqRead (env4 5 false).idx 5 = some 0x82 ∧ (env4 5 false).pos.toNat ≤ 5 := by
  decide
theorem witness_ReleaseJumpsToTail_released : rom.seqValid (env4 5 true).idx = true ∧ (env4 5 true).rel = true := by
  decide
theorem witness_ReleaseJumpsToTail_stays : rom.seqValid (env4 7 false).idx = true ∧ (env4 7 false).rel = false ∧
    ∀ i, i < rom.endIdx (env4 7 false).idx → rom.seqRead (env4 7 false).idx i = some 0x82 →
      i < (env4 7 false).pos.toNat := by decide
theorem witness_ReleaseLaw : rom.seqBytes (env4 0 false).idx = [0x02, 0x04, 0x81, 0x06, 0x08, 0x82, 0x0a, 0x80] := by
  decide

/-! Ticks. -/

/-- A block of one voice whose tick is to come. -/
def ticking (vc : Voice) : State :=
  { deploy := Config.deployment .le, rom := rom, voices := [vc], engine := .between [0], inputs := [] }
/-- A voice in a note with the given counters. -/
def sounding (nlen qlen : Word) (play : Bool) : Voice :=
  { selected with nlenC := nlen, qlenC := qlen, playing := play, gate := play }

theorem witness_FinishedVoiceIdles : (ticking { selected with finished := true }).engine = .between (0 :: []) ∧
    (ticking { selected with finished := true }).voices[0]? = some { selected with finished := true } ∧
    ({ selected with finished := true } : Voice).finished = true := ⟨rfl, rfl, rfl⟩
theorem witness_QuantizationCountdown : (sounding 4 0 true).qlenC.toNat = 0 ∧ (sounding 4 1 true).qlenC.toNat = 1 ∧
    2 ≤ (sounding 4 2 true).qlenC.toNat := by decide
theorem witness_TickSustainsOrDecodes_decodes : (ticking (sounding 1 1 true)).engine = .between (0 :: []) ∧
    (ticking (sounding 1 1 true)).voices[0]? = some (sounding 1 1 true) ∧ (sounding 1 1 true).finished = false ∧
    (rom.quantize (sounding 1 1 true)).nlenC.toNat ≤ 1 := ⟨rfl, rfl, rfl, by decide⟩
theorem witness_TickSustainsOrDecodes_rests : (ticking (sounding 2 0 false)).voices[0]? = some (sounding 2 0 false) ∧
    (sounding 2 0 false).finished = false ∧ 2 ≤ (rom.quantize (sounding 2 0 false)).nlenC.toNat ∧
    (rom.quantize (sounding 2 0 false)).playing = false := ⟨rfl, rfl, by decide, by decide⟩
theorem witness_TickSustainsOrDecodes_sustains : (ticking (sounding 2 2 true)).voices[0]? = some (sounding 2 2 true) ∧
    (sounding 2 2 true).finished = false ∧ 2 ≤ (rom.quantize (sounding 2 2 true)).nlenC.toNat ∧
    (rom.quantize (sounding 2 2 true)).playing = true ∧ rom.envsOk (rom.quantize (sounding 2 2 true)).env :=
  ⟨rfl, rfl, by decide, by decide, selected_envsOk⟩
theorem witness_QuantizationLaw : InPass (inPass selected) pass selected ∧
    noteOf 12 ⟨false, some 2, some 1⟩ = some (.noteB ⟨false, some 2, some 1⟩) ∧
    (inPass selected).rom.envsOk selected.env ∧ selected.finished = false ∧
    ((some 2 : Option Word).getD selected.noteLen).toNat = 2 ∧
    ((some 1 : Option Word).getD selected.quantLen).toNat = 1 ∧ 0 < 1 ∧ 1 < 2 :=
  ⟨in_pass _, rfl, selected_envsOk, rfl, rfl, rfl, by decide, by decide⟩
theorem witness_TickEventWaitsThenRunsEveryVoice_runs : (waiting selected [.tick]).engine = .between [] ∧
    (waiting selected [.tick]).inputs = .tick :: [] ∧ ∀ vc ∈ (waiting selected [.tick]).voices, vc.pending = [] := by
  decide
theorem witness_TickEventWaitsThenRunsEveryVoice_waits :
    (waiting { selected with pending := [.gate true, .amp 9] } [.tick]).engine = .between [] ∧
    ∃ vc ∈ (waiting { selected with pending := [.gate true, .amp 9] } [.tick]).voices, vc.pending ≠ [] := by decide
theorem witness_TickResultIsNotFinished : ∃ t vc', (inPass (voice [0x00])).engine = .pass pass ∧ pass.voice = 0 ∧
    pass.todo = [] ∧ step (inPass (voice [0x00])) = .next t ∧ t.engine = .between [] ∧ t.voices[0]? = some vc' :=
  ⟨_, _, rfl, rfl, rfl, rfl, rfl, rfl⟩
theorem witness_ErrorChannelReportsTheTick_pass : ∃ t vc', (inPass (voice [0x82])).voices[0]? = some (voice [0x82]) ∧
    step (inPass (voice [0x82])) = .next t ∧ t.engine = .between [] ∧ t.voices[0]? = some vc' ∧
    (inPass (voice [0x82])).engine = .pass pass ∧ pass.voice = 0 ∧ pass.todo = [] ∧ (voice [0x82]).err = none :=
  ⟨_, _, rfl, rfl, rfl, rfl, rfl, rfl, rfl, rfl⟩
/-- A voice an error has stopped. -/
def failed : Voice := (voice [0x82]).stopped .loopStackUnderflow
theorem witness_ErrorChannelReportsTheTick_later : ∃ t vc', (ticking failed).voices[0]? = some failed ∧
    step (ticking failed) = .next t ∧ t.engine = .between [] ∧ t.voices[0]? = some vc' ∧
    (ticking failed).engine = .between (0 :: []) ∧ failed.err = some .loopStackUnderflow :=
  ⟨_, _, rfl, rfl, rfl, rfl, rfl, rfl⟩
theorem witness_VoicesShareNoState : InPass (inPass selected) pass selected ∧
    InPass { inPass selected with voices := [selected, looping], inputs := [.tick] } pass selected ∧
    ∃ t, step (inPass selected) = .next t := ⟨in_pass _, ⟨rfl, rfl⟩, _, rfl⟩
/-- A block of two finished voices. -/
def two : State := State.powerOn (Config.deployment .le) rom 2
/-- The tick of a finished voice changes nothing, so that this state is its own `t` and `u`. -/
theorem witness_VoiceOrderIsIrrelevant : two.engine = .between [] ∧ 0 ≠ 1 ∧ two.runsTick 0 two ∧ two.runsTick 1 two := by
  have one : ∀ v, v < 2 → two.runsTick v two := by
    intro v hv
    refine ⟨1, ?_, rfl, fun m hm u h => ?_⟩
    · have : v = 0 ∨ v = 1 := by omega
      rcases this with rfl | rfl <;> rfl
    · obtain rfl : m = 0 := by omega
      cases h
      simp [State.tickOf]
  exact ⟨rfl, by decide, one 0 (by decide), one 1 (by decide)⟩

/-! The oscillator, Init and the host. -/

theorem witness_NoteFreqByOctave : (7 : Int) ≤ 7 ∧ (7 : Int) < 8 := by decide
theorem witness_RenderSampleFollowsTheWave : (waiting selected [.sample 0]).engine = .between [] ∧
    (waiting selected [.sample 0]).inputs = .sample 0 :: [] ∧ (waiting selected [.sample 0]).voices[0]? = some selected :=
  ⟨rfl, rfl, rfl⟩
theorem witness_PhaseAdvancesOnlyOnSamples : (waiting selected [.sample 0]).voices[0]? = some selected ∧
    ∃ t, step (waiting selected [.sample 0]) = .next t := ⟨rfl, _, rfl⟩
theorem witness_PulseDutyCycle : ({ selected with shown := ⟨true, 1, 1, 0x8000⟩ } : Voice).shown.gate = true ∧
    ({ selected with shown := ⟨true, 1, 1, 0x8000⟩ } : Voice).shown.freq.toNat % 2 = 1 ∧
    ({ selected with shown := ⟨true, 1, 1, 0x8000⟩ } : Voice).shown.amp ≠ 0 := by decide
/-- A voice right after the Publish of a note. -/
def published : Voice := rom.publish (selected.writeGate true)
theorem witness_AnyWriteOrderEndsAlike :
    (waiting published ([OscField.pw, .amp, .gate, .freq].map (Input.settle 0) ++ [.sample 0])).engine = .between [] ∧
    (waiting published ([OscField.pw, .amp, .gate, .freq].map (Input.settle 0) ++ [.sample 0])).voices[0]? =
      some published ∧ published.oscOk ∧
    ∀ f : OscField, (published.pending.map OscWrite.field).count f ≤ [OscField.pw, .amp, .gate, .freq].count f :=
  ⟨rfl, rfl, by unfold Voice.oscOk; decide, fun f => by cases f <;> decide⟩
theorem witness_EveryTornMixIsReachable : selected.pending = [] ∧
    (waiting (rom.publish selected) [.sample 0]).engine = .between [] ∧
    (waiting (rom.publish selected) [.sample 0]).voices[0]? =
      some ((waiting (rom.publish selected) [.sample 0]).rom.publish selected) := ⟨rfl, rfl, rfl⟩
theorem witness_PendingWritesBecomeVisible_settle : (waiting published [.settle 0 .amp]).voices[0]? = some published ∧
    (waiting published [.settle 0 .amp]).inputs = .settle 0 .amp :: [] ∧
    published.pending = [.gate true, .freq published.freq] ++ .amp published.amp :: [.pw published.pw] ∧
    (OscWrite.amp published.amp).field = .amp ∧
    ∀ x ∈ [OscWrite.gate true, .freq published.freq], x.field ≠ .amp := ⟨rfl, rfl, rfl, rfl, by decide⟩
theorem witness_PendingWritesBecomeVisible_absent : (waiting selected [.settle 0 .pw]).voices[0]? = some selected ∧
    (waiting selected [.settle 0 .pw]).inputs = .settle 0 .pw :: [] ∧ ∀ w ∈ selected.pending, w.field ≠ .pw :=
  ⟨rfl, rfl, by decide⟩
theorem witness_PendingWritesBecomeVisible_idle : (waiting selected []).inputs = [] ∧
    ∀ x ∈ (waiting selected []).voices, x.pending = [] := ⟨rfl, by decide⟩
theorem witness_PendingWritesBecomeVisible_oldest : ({ waiting selected [] with voices := [selected, published] } :
      State).voices[1]? = some published ∧ published.pending = .gate true :: published.pending.tail ∧
    ∀ (u : Nat) (x : Voice), u < 1 → [selected, published][u]? = some x → x.pending = [] := by
  refine ⟨rfl, rfl, fun u x hu hx => ?_⟩
  obtain rfl : u = 0 := by omega
  cases hx
  rfl
theorem witness_PendingWritesBecomeVisible_init : (waiting published [.init 0 [0x00] 1]).inputs =
      .init 0 [0x00] 1 :: [] ∧ published.pending = .gate true :: published.pending.tail ∧
    (1 : Word).toNat ≤ ([0x00] : List Byte).length := ⟨rfl, rfl, by decide⟩
theorem witness_InitWritesTheRecord : (waiting selected [.init 0 [0x01, 0x00] 2]).engine = .between [] ∧
    (waiting selected [.init 0 [0x01, 0x00] 2]).inputs = .init 0 [0x01, 0x00] 2 :: [] ∧
    (waiting selected [.init 0 [0x01, 0x00] 2]).voices[0]? = some selected ∧
    (2 : Word).toNat ≤ ([0x01, 0x00] : List Byte).length ∧ selected.pending = [] := ⟨rfl, rfl, rfl, by decide, rfl⟩
theorem witness_HostDutiesAreRefused : (waiting selected [.init 1 [] 0]).voices.length ≤ 1 ∧
    0 < (waiting selected [.init 0 [] 1]).voices.length ∧ ([] : List Byte).length < (1 : Word).toNat ∧
    ∃ vc ∈ (waiting selected []).voices, vc.finished = false := by decide
theorem witness_LoadFillsTheReadOnlyMemories : State.reset.engine = .between [] ∧
    (∀ vc ∈ State.reset.voices, vc.finished = true) ∧
    ([List.replicate 255 0x80, [0x80]] : List (List Byte)).length ≤ 256 ∧
    ∀ q ∈ ([List.replicate 255 0x80, [0x80]] : List (List Byte)), 1 ≤ q.length ∧ q.length ≤ 255 := by
  refine ⟨rfl, by decide, by decide, ?_⟩
  intro q hq
  simp only [List.mem_cons, List.not_mem_nil, or_false] at hq
  rcases hq with rfl | rfl
  · rw [List.length_replicate]; decide
  · decide
theorem witness_PowerOnState : 0 < 1 ∧ 1 < 2 := by decide
theorem two_engineOk : two.engineOk := by simp [State.engineOk, two, State.powerOn]
theorem witness_UninitialisedVoiceIsSilent : ∃ t, State.engineOk { two with inputs := [.sample 1] } ∧
    two.voices[1]? = some (Voice.powerOn (Config.deployment .le)) ∧
    (Voice.powerOn (Config.deployment .le)).finished = true ∧
    (Voice.powerOn (Config.deployment .le)).shown.gate = false ∧
    (Voice.powerOn (Config.deployment .le)).pending = [] ∧ step { two with inputs := [.sample 1] } = .next t :=
  ⟨_, two_engineOk, rfl, rfl, rfl, rfl, rfl⟩
theorem witness_FinishedUntilInit : ∃ t, State.engineOk { two with inputs := [.tick] } ∧
    two.voices[0]? = some (Voice.powerOn (Config.deployment .le)) ∧
    (Voice.powerOn (Config.deployment .le)).finished = true ∧ step { two with inputs := [.tick] } = .next t :=
  ⟨_, two_engineOk, rfl, rfl, rfl⟩
theorem witness_FinishedUntilInit_init : ∃ t, State.engineOk { two with inputs := [.init 0 [] 0] } ∧
    two.voices[0]? = some (Voice.powerOn (Config.deployment .le)) ∧
    (Voice.powerOn (Config.deployment .le)).pending = [] ∧ step { two with inputs := [.init 0 [] 0] } = .next t :=
  ⟨_, two_engineOk, rfl, rfl, rfl⟩
theorem witness_MemoryIsNeverWritten : ∃ t, exec .volumeDown (inPass selected) = .next t := ⟨_, rfl⟩

theorem witness_MemoryIsNeverWritten_step : ∃ t, step (waiting selected [.tick]) = .next t ∧
    (waiting selected [.tick]).engine = .between [] ∧
    (∀ v stream len, (waiting selected [.tick]).inputs.head? ≠ some (.init v stream len)) ∧
    ∀ ft am seqs, (waiting selected [.tick]).inputs.head? ≠ some (.load ft am seqs) :=
  ⟨_, rfl, rfl, (by intro _ _ _ h; cases h), (by intro _ _ _ h; cases h)⟩

/-! Invariants. -/

theorem rom_ok : rom.ok := by
  refine ⟨by decide, by decide, ?_⟩
  simp only [rom, Rom.ofSeqs]; decide

/-- The state of a decode pass with envelopes selected meets the invariant. -/
theorem inPass_inv : (inPass selected).inv := by
  refine ⟨rom_ok, ?_, ?_, ?_, ?_, ?_, ?_, ?_, ?_, ?_⟩
  · unfold State.all Voice.offsetsOk; decide
  · unfold State.all Voice.sweepOk; decide
  · unfold State.all Voice.flagsOk; decide
  · unfold State.all Voice.oscOk; decide
  · unfold State.all Voice.pwOk; decide
  · intro vc hm
    simp only [inPass, List.mem_singleton] at hm
    subst hm
    refine ⟨by decide, fun m hm => ?_⟩
    simp only [selected, voice, Voice.init, Option.some.injEq] at hm
    subst hm
    exact Memory.ofBytes_wf 0 _
  · intro vc hm _
    simp only [inPass, List.mem_singleton] at hm
    subst hm
    exact selected_envsOk
  · exact ⟨by decide, by decide, selected, rfl, rfl, rfl⟩
  · intro v vc hv
    obtain ⟨h, rfl⟩ : v = 0 ∧ vc = selected := by
      cases v with
      | zero => simp only [inPass, List.getElem?_cons_zero, Option.some.injEq] at hv; exact ⟨rfl, hv.symm⟩
      | succ v => simp [inPass] at hv
    exact ⟨by unfold writesOk; decide, fun _ => rfl, fun _ _ _ => .inl rfl⟩

theorem witness_EveryDecodePassEnds : (inPass selected).inv ∧ (inPass selected).engine = .pass pass := ⟨inPass_inv, rfl⟩
theorem witness_OffsetsStayInTheStream : ∃ t, (inPass selected).all Voice.offsetsOk ∧ step (inPass selected) = .next t :=
  ⟨_, inPass_inv.2.1, rfl⟩
/-- A voice at the last byte below the greatest offset. -/
def farthest : Voice := { voice [] with stream := some [(65534, 0x88)], len := 65535, cursor := 65534 }
theorem witness_OffsetsStayInTheStream_advances : ∃ t vc', InPass (inPass farthest) pass farthest ∧
    farthest.stream = some [(65534, 0x88)] ∧ step (inPass farthest) = .next t ∧ t.voices[pass.voice]? = some vc' ∧
    vc'.cursor.toNat = farthest.cursor.toNat + 1 := ⟨_, _, in_pass _, rfl, rfl, rfl, by decide⟩
theorem witness_OffsetsStayInTheStream_stops : ∃ t vc', InPass (inPass (voice [])) pass (voice []) ∧
    (voice []).stream = some [] ∧ step (inPass (voice [])) = .next t ∧ t.voices[pass.voice]? = some vc' :=
  ⟨_, _, in_pass _, rfl, rfl, rfl⟩
theorem witness_OffsetsStayInTheStream_end : ∃ t vc', InPass (inPass looping) pass looping ∧
    looping.stream = some [(0, 0x80)] ∧ step (inPass looping) = .next t ∧ t.voices[pass.voice]? = some vc' ∧
    vc'.cursor = looping.tlp := ⟨_, _, in_pass _, rfl, rfl, rfl, rfl⟩
theorem witness_OffsetsStayInTheStream_back : ∃ t vc', InPass (inPass (framed 1 2)) pass (framed 1 2) ∧
    (framed 1 2).stream = some (Memory.ofBytes 0 (List.replicate 12 0x82)) ∧ step (inPass (framed 1 2)) = .next t ∧
    t.voices[pass.voice]? = some vc' ∧ vc'.cursor = (framed 1 2).ls[(0 : Fin 4)].start :=
  ⟨_, _, in_pass _, rfl, rfl, rfl, rfl⟩
theorem witness_SelectedEnvelopesStayValid : ∃ t,
    ((inPass selected).all fun vc => vc.finished = false → (inPass selected).rom.envsOk vc.env) ∧
    step (inPass selected) = .next t := ⟨_, inPass_inv.2.2.2.2.2.2.2.1, rfl⟩
theorem witness_InvariantIsKept : ∃ t, (inPass selected).inv ∧ step (inPass selected) = .next t := ⟨_, inPass_inv, rfl⟩
theorem witness_InvariantAtPowerOn : rom.ok := rom_ok
theorem witness_NothingStopsTheBlock : (inPass selected).inv := inPass_inv

end Sys2Proof.Tests
end

section
/-! SUPPORT. What a fetch answers: decoding is undone by encoding, so a fetched instruction lies within the declared length
and its first byte stands at the cursor. -/

namespace Sys2Proof

/-! ### Decoding is undone by encoding -/

theorem take0_ok {i j : Instr} {bs rest : List Byte} (h : take0 i bs = .ok (j, rest)) : j = i ∧ bs = rest := by
  cases h; exact ⟨rfl, rfl⟩

theorem take1_ok {b : Byte} {f : Byte → Instr} {bs rest : List Byte} {i : Instr} (h : take1 b f bs = .ok (i, rest)) :
    ∃ u, i = f u ∧ bs = u :: rest := by
  cases bs with
  | nil => cases h
  | cons u bs => cases h; exact ⟨u, rfl, rfl⟩

theorem take2_ok {b : Byte} {f : Byte → Byte → Instr} {bs rest : List Byte} {i : Instr}
    (h : take2 b f bs = .ok (i, rest)) : ∃ x y, i = f x y ∧ bs = x :: y :: rest := by
  match bs, h with
  | x :: y :: bs, h => cases h; exact ⟨x, y, rfl, rfl⟩

/-- A note byte and the operands read after it are the encoding of the NOTE or REST they decode to. -/
theorem decodeNote_ok {o : WideOrder} {b : Byte} {bs rest : List Byte} {i : Instr} (hb : b.toNat < 0x80)
    (h : decodeNote o b bs = .ok (i, rest)) : b :: bs = encode o i ++ rest := by
  unfold decodeNote takeNoteArgs at h
  split at h
  · cases hd : takeOperand o (flagW b) (flagD b) bs with
    | none => simp [hd] at h
    | some d =>
      obtain ⟨d, bs1⟩ := d
      cases hq : takeOperand o (flagW b) (flagQ b) bs1 with
      | none => simp [hd, hq] at h
      | some q =>
        obtain ⟨q, bs2⟩ := q
        obtain ⟨hds, -, rfl⟩ := takeOperand_some hd
        obtain ⟨hqs, -, rfl⟩ := takeOperand_some hq
        simp only [hd, hq] at h
        split at h
        · cases h
        · next j hj =>
          cases h
          obtain ⟨-, -, he, -⟩ := encode_noteOf o hj
          have hbyte := noteByte_of_fields b hb ⟨flagW b, d, q⟩ rfl hds hqs
          simp [he, noteBytes, hbyte]
  · cases h

/-- A control opcode and its operands are the encoding of the instruction they decode to. -/
theorem decodeControl_ok {o : WideOrder} {b : Byte} {bs rest : List Byte} {i : Instr}
    (h : decodeControl o b bs = .ok (i, rest)) : b :: bs = encode o i ++ rest := by
  have byte : ∀ {n : Nat}, b.toNat = n → b = BitVec.ofNat 8 n := fun hn => by simp [← hn]
  unfold decodeControl at h
  split at h
  case h_22 => cases h
  all_goals obtain rfl := byte ‹b.toNat = _›
  case h_1 | h_3 | h_9 | h_10 | h_15 | h_16 =>
    obtain ⟨rfl, rfl⟩ := take0_ok h; rfl
  case h_5 | h_7 =>
    obtain ⟨x, y, rfl, rfl⟩ := take2_ok h
    simp [encode, wideBytes_assemble]
  case h_17 => obtain ⟨x, y, rfl, rfl⟩ := take2_ok h; rfl
  all_goals obtain ⟨u, rfl, rfl⟩ := take1_ok h; rfl

/-- 30_encoding.md R113: the bytes that decode to an instruction are its encoding and what follows. -/
theorem decode_ok {o : WideOrder} {bs rest : List Byte} {i : Instr} (h : decode o bs = .ok (i, rest)) :
    bs = encode o i ++ rest := by
  cases bs with
  | nil => cases h
  | cons b bs =>
    rw [decode] at h
    split at h
    · next hb => subst hb; obtain ⟨rfl, rfl⟩ := take0_ok h; rfl
    · split at h
      · next hb => exact decodeNote_ok hb h
      · exact decodeControl_ok h

/-- Every instruction's encoding starts with a byte that tells the instruction's length. -/
theorem Laws.EncodedLength.all (i : Instr) : Laws.EncodedLength.Statement i := by
  cases i with
  | endStream => exact endStream
  | noteC a => exact noteC a
  | noteCS a => exact noteCS a
  | noteD a => exact noteD a
  | noteDS a => exact noteDS a
  | noteE a => exact noteE a
  | noteF a => exact noteF a
  | noteFS a => exact noteFS a
  | noteG a => exact noteG a
  | noteGS a => exact noteGS a
  | noteA a => exact noteA a
  | noteAS a => exact noteAS a
  | noteB a => exact noteB a
  | rest a => exact rest a
  | trackLoop => exact trackLoop
  | loopStart u => exact loopStart u
  | loopEnd => exact loopEnd
  | noteLen u => exact noteLen u
  | noteLenW w => exact noteLenW w
  | quantLen u => exact quantLen u
  | quantLenW w => exact quantLenW w
  | octave u => exact octave u
  | octaveUp => exact octaveUp
  | octaveDown => exact octaveDown
  | transpose x => exact transpose x
  | detune x => exact detune x
  | timbre x => exact timbre x
  | volume u => exact volume u
  | volumeUp => exact volumeUp
  | volumeDown => exact volumeDown
  | pitchSweep len step => exact pitchSweep len step
  | envVolume k => exact envVolume k
  | envNote k => exact envNote k
  | envTimbre k => exact envTimbre k
  | envPitch k => exact envPitch k

end Sys2Proof

namespace Sys2Proof.Machine

/-- A fetched instruction has its first byte at the cursor and lies within the declared length
(40_interpreter_tick.md R155). -/
theorem Voice.fetch_instr {o : WideOrder} {vc : Voice} {i : Instr} (h : vc.fetch o = .instr i) :
    ∃ m rest, vc.stream = some m ∧ encode o i = m.read vc.cursor.toNat :: rest ∧
      instrLength (m.read vc.cursor.toNat) = some i.length ∧ vc.cursor.toNat + i.length ≤ vc.len.toNat := by
  unfold Voice.fetch at h
  split at h
  · cases h
  · next m hm =>
    split at h
    · cases h
    · split at h
      · cases h
      · next n hn =>
        split at h
        · cases h
        · next hlen =>
          split at h
          · next j after hd =>
            cases h
            obtain ⟨k, rfl⟩ : ∃ k, n = k + 1 := ⟨n - 1, by have := (instrLength_bounds hn).1; omega⟩
            obtain ⟨-, b, rest, he, hl⟩ := Laws.EncodedLength.all i o
            have hbytes := decode_ok hd
            rw [he, Memory.readMany, List.cons_append, List.cons.injEq] at hbytes
            obtain ⟨rfl, -⟩ := hbytes
            have hk : k + 1 = i.length := Option.some.inj (hn.symm.trans hl)
            exact ⟨m, rest, hm, he, hl, by omega⟩
          · cases h
          · cases h

end Sys2Proof.Machine
end

section
/-! SUPPORT. The shapes of an instruction with the writes of the register-setting opcodes spelled out, and what an
instruction does to the offsets a voice holds; settles O55. -/

namespace Sys2Proof.Machine

/-! ### Register-setting opcodes and envelope selections by name -/

/-- The record update of a register-setting opcode, 0x83 to 0x90 (43_register_set.md, 44_sweep_envelope_select.md R250);
none for the other instructions. -/
def registerWrite : Instr → Option (Voice → Voice)
  | .noteLen u => some fun vc => { vc with noteLen := zext16 u, cursor := vc.after 2 }
  | .noteLenW w => some fun vc => { vc with noteLen := w, cursor := vc.after 3 }
  | .quantLen u => some fun vc => { vc with quantLen := zext16 u, cursor := vc.after 2 }
  | .quantLenW w => some fun vc => { vc with quantLen := w, cursor := vc.after 3 }
  | .octave u => some fun vc => { vc with octave := satOctave u.toNat, cursor := vc.after 2 }
  | .octaveUp => some fun vc => { vc with octave := satOctave (vc.octave.toNat + 1), cursor := vc.after 1 }
  | .octaveDown => some fun vc => { vc with octave := satOctave (vc.octave.toNat - 1), cursor := vc.after 1 }
  | .transpose x => some fun vc => { vc with transpose := x, cursor := vc.after 2 }
  | .detune x => some fun vc => { vc with detune := x, cursor := vc.after 2 }
  | .timbre x => some fun vc => { vc with timbre := x, cursor := vc.after 2 }
  | .volume u => some fun vc => { vc with volume := satVolume u.toNat, cursor := vc.after 2 }
  | .volumeUp => some fun vc => { vc with volume := satVolume (vc.volume.toNat + 1), cursor := vc.after 1 }
  | .volumeDown => some fun vc => { vc with volume := satVolume (vc.volume.toNat - 1), cursor := vc.after 1 }
  | .pitchSweep len step => some fun vc => { vc with sweepLen := len, sweepStep := step, cursor := vc.after 3 }
  | _ => none

/-- A register-setting opcode applies its update to the record of the pass's voice. -/
theorem exec_registerWrite {i : Instr} {f : Voice → Voice} (hf : registerWrite i = some f) (s : State) :
    exec i s = controlOp s f := by
  cases i <;> cases hf <;> rfl

/-- A register-setting opcode advances the cursor by its length and leaves the track loop point and the frames. -/
theorem registerWrite_offsets {i : Instr} {f : Voice → Voice} (hf : registerWrite i = some f) (vc : Voice) :
    (f vc).cursor = vc.after i.length ∧ (f vc).tlp = vc.tlp ∧ (f vc).ls = vc.ls := by
  cases i <;> cases hf <;> exact ⟨rfl, rfl, rfl⟩

theorem exec_selectOp (c : EnvClass) (k : Byte) (s : State) : exec (selectOp c k) s = selectEnv c k s := by
  cases c <;> rfl

theorem selectOp_length (c : EnvClass) (k : Byte) : (selectOp c k).length = 2 := by cases c <;> rfl

/-- The shapes of an instruction: END, a NOTE, REST, the three flow-control opcodes, an envelope selection, a
register-setting opcode. -/
inductive Shape : Instr → Prop
  | endStream : Shape .endStream
  | note {i : Instr} (semi : Fin 12) (a : NoteArgs) (h : noteOf (semi.val + 1) a = some i) : Shape i
  | rest (a : NoteArgs) : Shape (.rest a)
  | trackLoop : Shape .trackLoop
  | loopStart (u : Byte) : Shape (.loopStart u)
  | loopEnd : Shape .loopEnd
  | select (c : EnvClass) (k : Byte) : Shape (selectOp c k)
  | register {i : Instr} (f : Voice → Voice) (h : registerWrite i = some f) : Shape i

/-- Every instruction has one of the shapes. -/
theorem Shape.all (i : Instr) : Shape i := by
  cases i with
  | endStream => exact .endStream
  | noteC a => exact .note 0 a rfl
  | noteCS a => exact .note 1 a rfl
  | noteD a => exact .note 2 a rfl
  | noteDS a => exact .note 3 a rfl
  | noteE a => exact .note 4 a rfl
  | noteF a => exact .note 5 a rfl
  | noteFS a => exact .note 6 a rfl
  | noteG a => exact .note 7 a rfl
  | noteGS a => exact .note 8 a rfl
  | noteA a => exact .note 9 a rfl
  | noteAS a => exact .note 10 a rfl
  | noteB a => exact .note 11 a rfl
  | rest a => exact .rest a
  | trackLoop => exact .trackLoop
  | loopStart u => exact .loopStart u
  | loopEnd => exact .loopEnd
  | envVolume k => exact .select .vol k
  | envNote k => exact .select .note k
  | envTimbre k => exact .select .timb k
  | envPitch k => exact .select .pitch k
  | _ => exact .register _ rfl

/-- A NOTE is as long as its arguments say. -/
theorem noteOf_length {n : Nat} {a : NoteArgs} {i : Instr} (h : noteOf n a = some i) : i.length = a.length := by
  obtain ⟨-, -, -, -, hl⟩ := encode_noteOf .le h
  exact hl

/-! ### The record an instruction leaves, instruction by instruction -/

/-- The record of the pass's voice after an update of it. -/
theorem InPass.set_get {s : State} {p : Pass} {vc new vc' : Voice} (hp : InPass s p vc)
    (hv : (s.voices.set p.voice new)[p.voice]? = some vc') : vc' = new := by
  rw [List.getElem?_set_self hp.lt] at hv
  exact (Option.some.inj hv).symm

/-- The record an instruction leaves of the voice of its decode pass, whose record was `vc`. -/
inductive Executed (s t : State) (p : Pass) (vc : Voice) : Instr → Voice → Prop
  /-- an error -/
  | raises {i : Instr} (k : ErrKind) (ht : t = s.raise p vc k) : Executed s t p vc i
      { vc.raise k with result := { active := false, error := some k } }
  /-- END with a track loop point -/
  | restarts (hl : vc.tlpSet = true) : Executed s t p vc .endStream { vc with cursor := vc.tlp }
  /-- END without a track loop point -/
  | ends (hl : vc.tlpSet = false) : Executed s t p vc .endStream
      { vc.finish with result := { active := false, error := none } }
  /-- a NOTE -/
  | plays {i : Instr} {n : Nat} {a : NoteArgs} (hn : n < 13) (hi : noteOf n a = some i) (semi : Fin 12) (es : Envs)
      (he : vc.env.each s.rom.startSelected = .ok es) : Executed s t p vc i
      { s.rom.publish { vc.startNote semi a with env := es, sweepRem := vc.sweepLen, sweepAcc := 0 } with
        result := { active := !vc.finished, error := none } }
  /-- REST -/
  | rests (a : NoteArgs) : Executed s t p vc (.rest a)
      { Voice.writeGate
          { vc with cursor := vc.after a.length, nlenC := vc.noteDuration a, qlenC := 0, playing := false } false with
        result := { active := !vc.finished, error := none } }
  /-- TRACK_LOOP -/
  | marks : Executed s t p vc .trackLoop { vc with tlp := vc.after 1, tlpSet := true, cursor := vc.after 1 }
  /-- LOOP_START with a frame free -/
  | pushes (u : Byte) (hl : vc.lsp.val < 4) : Executed s t p vc (.loopStart u)
      { vc with
        ls := vc.ls.set vc.lsp.val { start := vc.after 2, rem := u }, lsp := ⟨vc.lsp.val + 1, by omega⟩,
        cursor := vc.after 2 }
  /-- LOOP_END that falls through -/
  | pops (j : Nat) (hj : j < 4) (hl : vc.lsp.val = j + 1) : Executed s t p vc .loopEnd
      { vc with lsp := ⟨j, by omega⟩, cursor := vc.after 1 }
  /-- LOOP_END that branches back -/
  | branches (j : Nat) (hj : j < 4) (hl : vc.lsp.val = j + 1) : Executed s t p vc .loopEnd
      { vc with ls := vc.ls.set j { start := vc.ls[j].start, rem := vc.ls[j].rem - 1 }, cursor := vc.ls[j].start }
  /-- an envelope selection of a validated sequence -/
  | selects (c : EnvClass) (k : Byte) : Executed s t p vc (selectOp c k)
      { vc with env := vc.env.put c ((vc.env.get c).select k), cursor := vc.after 2 }
  /-- a register-setting opcode -/
  | sets {i : Instr} (f : Voice → Voice) (hf : registerWrite i = some f) : Executed s t p vc i (f vc)

/-- The execution of an instruction leaves one of these records. -/
theorem exec_executed {i : Instr} {s t : State} {p : Pass} {vc vc' : Voice} (hp : InPass s p vc)
    (h : exec i s = .next t) (hv : t.voices[p.voice]? = some vc') : Executed s t p vc i vc' := by
  cases Shape.all i with
  | endStream =>
    obtain ⟨p', w, h1, h2, h3⟩ := execEnd_next h
    obtain ⟨rfl, rfl⟩ := hp.unique h1 h2
    rcases h3 with ⟨-, -, rfl⟩ | ⟨hl, -, rfl⟩ | ⟨hl, rfl⟩ <;> obtain rfl := hp.set_get hv
    · exact .raises _ rfl
    · exact .restarts hl
    · exact .ends hl
  | note semi a hn =>
    obtain ⟨semi', -, he⟩ := exec_noteOf (by omega) hn
    rw [he] at h
    obtain ⟨p', w, es, h1, h2, hes, rfl⟩ := playNote_next h
    obtain ⟨rfl, rfl⟩ := hp.unique h1 h2
    obtain rfl := hp.set_get hv
    exact .plays (by omega) hn semi' es hes
  | rest a =>
    obtain ⟨p', w, h1, h2, rfl⟩ := execRest_next h
    obtain ⟨rfl, rfl⟩ := hp.unique h1 h2
    obtain rfl := hp.set_get hv
    exact .rests a
  | trackLoop =>
    obtain ⟨p', w, h1, h2, rfl⟩ := controlOp_next h
    obtain ⟨rfl, rfl⟩ := hp.unique h1 h2
    obtain rfl := hp.set_get hv
    exact .marks
  | loopStart u =>
    obtain ⟨p', w, h1, h2, h3⟩ := execLoopStart_next h
    obtain ⟨rfl, rfl⟩ := hp.unique h1 h2
    rcases h3 with ⟨hl, rfl⟩ | ⟨-, rfl⟩ <;> obtain rfl := hp.set_get hv
    · exact .pushes u hl
    · exact .raises _ rfl
  | loopEnd =>
    obtain ⟨p', w, h1, h2, h3⟩ := execLoopEnd_next h
    obtain ⟨rfl, rfl⟩ := hp.unique h1 h2
    rcases h3 with ⟨j, hj, hl, ⟨-, rfl⟩ | ⟨-, rfl⟩⟩ | ⟨-, rfl⟩ <;> obtain rfl := hp.set_get hv
    · exact .pops j hj hl
    · exact .branches j hj hl
    · exact .raises _ rfl
  | select c k =>
    rw [exec_selectOp] at h
    obtain ⟨p', w, h1, h2, h3⟩ := selectEnv_next h
    obtain ⟨rfl, rfl⟩ := hp.unique h1 h2
    rcases h3 with ⟨-, rfl⟩ | ⟨-, rfl⟩ <;> obtain rfl := hp.set_get hv
    · exact .selects c k
    · exact .raises _ rfl
  | register f hf =>
    rw [exec_registerWrite hf] at h
    obtain ⟨p', w, h1, h2, rfl⟩ := controlOp_next h
    obtain ⟨rfl, rfl⟩ := hp.unique h1 h2
    obtain rfl := hp.set_get hv
    exact .sets f hf

/-! ### The offsets a voice holds -/

/-- The track loop point and the frame starts of `vc'` are those of `vc`, or the offset `w`. -/
structure Voice.OffsetsFrom (vc : Voice) (w : Word) (vc' : Voice) : Prop where
  tlp : vc'.tlp = vc.tlp ∨ vc'.tlp = w
  frames : ∀ f ∈ vc'.ls.toList, f.start = w ∨ ∃ g ∈ vc.ls.toList, f.start = g.start

/-- A record with the same track loop point and frames. -/
theorem Voice.OffsetsFrom.of_eq {vc vc' : Voice} (w : Word) (htlp : vc'.tlp = vc.tlp) (hls : vc'.ls = vc.ls) :
    vc.OffsetsFrom w vc' := ⟨.inl htlp, fun f hf => .inr ⟨f, hls ▸ hf, rfl⟩⟩

/-- Replacing one frame by one that starts at `w`, or where a frame of the voice starts. -/
theorem Voice.OffsetsFrom.of_set {vc vc' : Voice} {w : Word} {j : Nat} (hj : j < Config.loopDepth) {fr : Frame}
    (htlp : vc'.tlp = vc.tlp) (hls : vc'.ls = vc.ls.set j fr hj)
    (hfr : fr.start = w ∨ ∃ g ∈ vc.ls.toList, fr.start = g.start) : vc.OffsetsFrom w vc' := by
  refine ⟨.inl htlp, fun f hf => ?_⟩
  rw [hls, Vector.toList_set] at hf
  rcases List.mem_or_eq_of_mem_set hf with hf | rfl
  · exact .inr ⟨f, hf, rfl⟩
  · exact hfr

/-- Where an instruction without an error leaves the offsets of its voice: the cursor goes to the next instruction, or END
takes it to the track loop point or leaves it, or LOOP_END takes it to the start of the innermost frame (10_state.md R36). -/
theorem exec_offsets {i : Instr} {s t : State} {p : Pass} {vc vc' : Voice} (hp : InPass s p vc)
    (h : exec i s = .next t) (hv : t.voices[p.voice]? = some vc') :
    (∃ k, t = s.raise p vc k) ∨
      (vc.OffsetsFrom (vc.after i.length) vc' ∧
        (vc'.cursor = vc.after i.length ∨
          (i = .endStream ∧ vc'.cursor = if vc.tlpSet then vc.tlp else vc.cursor) ∨
          (i = .loopEnd ∧ ∃ j : Fin 4, j.val + 1 = vc.lsp.val ∧ vc'.cursor = vc.ls[j].start))) := by
  cases exec_executed hp h hv with
  | raises k ht => exact .inl ⟨k, ht⟩
  | restarts hl => exact .inr ⟨.of_eq _ rfl rfl, .inr (.inl ⟨rfl, by simp [hl]⟩)⟩
  | ends hl => exact .inr ⟨.of_eq _ rfl rfl, .inr (.inl ⟨rfl, by simp [hl]⟩)⟩
  | plays hn hi semi es he => exact .inr ⟨.of_eq _ rfl rfl, .inl (noteOf_length hi ▸ rfl)⟩
  | rests a => exact .inr ⟨.of_eq _ rfl rfl, .inl rfl⟩
  | marks => exact .inr ⟨⟨.inr rfl, fun f hf => .inr ⟨f, hf, rfl⟩⟩, .inl rfl⟩
  | pushes u hl => exact .inr ⟨.of_set hl rfl rfl (.inl rfl), .inl rfl⟩
  | pops j hj hl => exact .inr ⟨.of_eq _ rfl rfl, .inl rfl⟩
  | branches j hj hl =>
    exact .inr ⟨.of_set hj rfl rfl (.inr ⟨vc.ls[j], by simp, rfl⟩), .inr (.inr ⟨rfl, ⟨j, hj⟩, hl.symm, rfl⟩)⟩
  | selects c k => exact .inr ⟨.of_eq _ rfl rfl, .inl (selectOp_length c k ▸ rfl)⟩
  | sets f hf =>
    obtain ⟨hcursor, htlp, hls⟩ := registerWrite_offsets hf vc
    exact .inr ⟨.of_eq _ htlp hls, .inl hcursor⟩

/-- An advance that stays within the declared length does not wrap (10_state.md R37). -/
theorem Voice.after_toNat {vc : Voice} {n : Nat} (h : vc.cursor.toNat + n ≤ vc.len.toNat) :
    (vc.after n).toNat = vc.cursor.toNat + n := by
  have := vc.len.isLt
  simp only [Voice.after, BitVec.toNat_add, BitVec.toNat_ofNat]
  omega

/-- Offsets taken from a voice whose offsets lie in its stream, or from within that stream, lie in it. -/
theorem Voice.OffsetsFrom.offsetsOk {vc vc' : Voice} {w : Word} (h : vc.OffsetsFrom w vc') (hlen : vc'.len = vc.len)
    (hc : vc'.cursor.toNat ≤ vc.len.toNat) (hw : w.toNat ≤ vc.len.toNat) (ho : vc.offsetsOk) : vc'.offsetsOk := by
  obtain ⟨-, htlp, hframes⟩ := ho
  refine ⟨hlen ▸ hc, ?_, fun f hf => ?_⟩
  · rcases h.tlp with e | e <;> rw [e, hlen] <;> assumption
  · rcases h.frames f hf with e | ⟨g, hg, e⟩ <;> rw [e, hlen]
    · exact hw
    · exact hframes g hg

/-- A record with the same offsets and length. -/
theorem Voice.offsetsOk_of_eq {vc vc' : Voice} (hc : vc'.cursor = vc.cursor) (hl : vc'.len = vc.len)
    (ht : vc'.tlp = vc.tlp) (hs : vc'.ls = vc.ls) (h : vc.offsetsOk) : vc'.offsetsOk := by
  unfold Voice.offsetsOk
  rw [hc, hl, ht, hs]
  exact h

/-- An instruction that lies within the declared length keeps the offsets of its voice in the stream. -/
theorem exec_offsetsOk {i : Instr} {s t : State} {p : Pass} {vc vc' : Voice} (hp : InPass s p vc)
    (h : exec i s = .next t) (hv : t.voices[p.voice]? = some vc') (hi : vc.cursor.toNat + i.length ≤ vc.len.toNat)
    (ho : vc.offsetsOk) : vc'.offsetsOk := by
  obtain ⟨p', w, new, h1, h2, ht, -, -, hlen, -⟩ := exec_frame h
  obtain ⟨rfl, rfl⟩ := hp.unique h1 h2
  rcases exec_offsets hp h hv with ⟨k, rfl⟩ | ⟨hfrom, hc⟩
  · obtain rfl := hp.set_get hv
    exact Voice.offsetsOk_of_eq rfl rfl rfl rfl ho
  · rw [ht] at hv
    obtain rfl := hp.set_get hv
    have hafter := Voice.after_toNat hi
    obtain ⟨hcur, htlp, hframes⟩ := id ho
    refine hfrom.offsetsOk hlen ?_ (by omega) ho
    rcases hc with e | ⟨-, e⟩ | ⟨-, j, -, e⟩ <;> rw [e]
    · omega
    · split <;> assumption
    · exact hframes _ (by simp)

/-- A law of single records that survives whatever a step can do to one voice survives the step. -/
theorem step_all {P : Voice → Prop} {s t : State} (h : step s = .next t) (hs : s.all P)
    (k : ∀ (v : Nat) (vc vc' : Voice), s.voices[v]? = some vc → t.voices[v]? = some vc' → VoiceStep s v vc vc' t →
      P vc → P vc') : t.all P :=
  State.all_iff.mpr (step_forall (P := fun _ => P) h (State.all_iff.mp hs) fun v vc vc' hv hv' hvc hstep =>
    k v vc vc' hv hv' hstep hvc)

/-- A step keeps the offsets of each voice in its stream. -/
theorem VoiceStep.offsetsOk {s t : State} {v : Nat} {vc vc' : Voice} (hs : s.voices[v]? = some vc)
    (ht : t.voices[v]? = some vc') (h : VoiceStep s v vc vc' t) (ho : vc.offsetsOk) : vc'.offsetsOk := by
  cases h with
  | same h => exact h ▸ ho
  | raises p k he hp hf h =>
    subst hp h
    obtain rfl := InPass.set_get ⟨he, hs⟩ ht
    exact Voice.offsetsOk_of_eq rfl rfl rfl rfl ho
  | runs p i he hp hf h =>
    subst hp
    obtain ⟨m, rest, -, -, -, hi⟩ := Voice.fetch_instr hf
    exact exec_offsetsOk ⟨he, hs⟩ h ht hi ho
  | ticks todo he hf h =>
    obtain ⟨hc, hl, htlp, hls, -⟩ := Rom.tickFront_frame hf (.inl rfl)
    exact Voice.offsetsOk_of_eq hc hl htlp hls ho
  | fetches todo he hf h =>
    obtain ⟨hc, hl, htlp, hls, -⟩ := Rom.tickFront_frame hf (.inr rfl)
    exact Voice.offsetsOk_of_eq hc hl htlp hls ho
  | oldest w rest he hp h => subst h; exact ho
  | settles f rest he hi h =>
    subst h
    unfold Voice.settle
    split <;> exact ho
  | samples rest he hi h => subst h; exact ho
  | inits stream len rest he hi hl hp h => subst h; simp [Voice.offsetsOk, Voice.init]

/-- Every step keeps the offsets of every voice in its stream. -/
theorem step_offsetsOk {s t : State} (h : step s = .next t) (ho : s.all Voice.offsetsOk) : t.all Voice.offsetsOk :=
  step_all h ho fun _ _ _ hs ht hstep => hstep.offsetsOk hs ht

/-- A step of a decode pass stops its voice with an error, or the instruction at the cursor lies within the length and the
cursor advances by its length, with the exceptions of END and LOOP_END. -/
theorem pass_advance {s t : State} {p : Pass} {vc vc' : Voice} {m : Memory} (hp : InPass s p vc)
    (hm : vc.stream = some m) (h : step s = .next t) (hv : t.voices[p.voice]? = some vc') :
    (∃ k, t = s.ticked p (vc.stopped k)) ∨
    ∃ n, instrLength (m.read vc.cursor.toNat) = some n ∧ vc.cursor.toNat + n ≤ vc.len.toNat ∧
      (vc'.cursor.toNat = vc.cursor.toNat + n ∨
        (m.read vc.cursor.toNat = 0x00 ∧ vc'.cursor = if vc.tlpSet then vc.tlp else vc.cursor) ∨
        (m.read vc.cursor.toNat = 0x82 ∧ ∃ j : Fin 4, j.val + 1 = vc.lsp.val ∧ vc'.cursor = vc.ls[j].start)) := by
  rw [step_pass hp.1] at h
  obtain ⟨p', w, h1, h2, ⟨k, -, rfl⟩ | ⟨i, hf, hx⟩⟩ := passStep_next h
  · obtain ⟨rfl, rfl⟩ := hp.unique h1 h2
    exact .inl ⟨k, rfl⟩
  · obtain ⟨rfl, rfl⟩ := hp.unique h1 h2
    obtain ⟨m', rest, hm', hbyte, hlen, hi⟩ := Voice.fetch_instr hf
    obtain rfl : m' = m := Option.some.inj (hm'.symm.trans hm)
    rcases exec_offsets hp hx hv with ⟨k, rfl⟩ | ⟨-, hc⟩
    · exact .inl ⟨k, rfl⟩
    · refine .inr ⟨i.length, hlen, hi, ?_⟩
      rcases hc with e | ⟨rfl, e⟩ | ⟨rfl, e⟩
      · exact .inl (by rw [e, Voice.after_toNat hi])
      · exact .inr (.inl ⟨(List.cons.inj hbyte).1.symm, e⟩)
      · exact .inr (.inr ⟨(List.cons.inj hbyte).1.symm, e⟩)

/-- Settles O55. -/
theorem offsetsStayInTheStream : Obligations.OffsetsStayInTheStream :=
  ⟨fun _ _ ho h => step_offsetsOk h ho, fun _ _ _ _ _ _ hp hm h hv => pass_advance hp hm h hv⟩

end Sys2Proof.Machine
end

section
/-! SUPPORT. What a step leaves of the record of one voice, said once with the record it leaves, and the laws of single
records that a step keeps: the ramp, the flags, visibility, the pulse width, the stream and the envelopes; settles O56. -/

namespace Sys2Proof.Machine

/-! ### Quantization and the sweep, field by field -/

/-- Quantization writes its counter, the gate, the pending writes and the envelopes, and nothing else. -/
theorem Rom.quantize_frame (r : Rom) (vc : Voice) :
    ∃ q g ws es, r.quantize vc = { vc with qlenC := q, gate := g, pending := ws, env := es } := by
  rcases r.quantize_cases vc with ⟨q, e⟩ | e | ⟨-, e⟩
  · exact ⟨q, vc.gate, vc.pending, vc.env, e⟩
  · exact ⟨_, _, _, vc.env, e⟩
  · exact ⟨_, _, _, _, e⟩

@[simp] theorem Rom.quantize_stream (r : Rom) (vc : Voice) : (r.quantize vc).stream = vc.stream := by
  obtain ⟨q, g, ws, es, e⟩ := r.quantize_frame vc; rw [e]
@[simp] theorem Rom.quantize_finished (r : Rom) (vc : Voice) : (r.quantize vc).finished = vc.finished := by
  obtain ⟨q, g, ws, es, e⟩ := r.quantize_frame vc; rw [e]
@[simp] theorem Rom.quantize_playing (r : Rom) (vc : Voice) : (r.quantize vc).playing = vc.playing := by
  obtain ⟨q, g, ws, es, e⟩ := r.quantize_frame vc; rw [e]
@[simp] theorem Rom.quantize_err (r : Rom) (vc : Voice) : (r.quantize vc).err = vc.err := by
  obtain ⟨q, g, ws, es, e⟩ := r.quantize_frame vc; rw [e]
@[simp] theorem Rom.quantize_sweepRem (r : Rom) (vc : Voice) : (r.quantize vc).sweepRem = vc.sweepRem := by
  obtain ⟨q, g, ws, es, e⟩ := r.quantize_frame vc; rw [e]
@[simp] theorem Rom.quantize_sweepAcc (r : Rom) (vc : Voice) : (r.quantize vc).sweepAcc = vc.sweepAcc := by
  obtain ⟨q, g, ws, es, e⟩ := r.quantize_frame vc; rw [e]
@[simp] theorem Rom.quantize_pw (r : Rom) (vc : Voice) : (r.quantize vc).pw = vc.pw := by
  obtain ⟨q, g, ws, es, e⟩ := r.quantize_frame vc; rw [e]

/-- Quantization can close the gate, never switch it on. -/
theorem Rom.quantize_gate {r : Rom} {vc : Voice} (h : (r.quantize vc).gate = true) : vc.gate = true := by
  rcases r.quantize_cases vc with ⟨q, e⟩ | e | ⟨-, e⟩ <;> rw [e] at h
  · exact h
  · cases h
  · cases h

/-- Quantization keeps the visibility law. -/
theorem Rom.quantize_oscOk {r : Rom} {vc : Voice} (h : vc.oscOk) : (r.quantize vc).oscOk := by
  rcases r.quantize_cases vc with ⟨q, e⟩ | e | ⟨-, e⟩ <;> rw [e]
  · exact h
  · exact Voice.writeGate_oscOk h false
  · exact Voice.writeGate_oscOk h false

/-- Quantization keeps the envelopes sound. -/
theorem Rom.quantize_envsOk {r : Rom} {vc : Voice} (h : r.envsOk vc.env) : r.envsOk (r.quantize vc).env := by
  rcases r.quantize_cases vc with ⟨q, e⟩ | e | ⟨-, e⟩ <;> rw [e]
  · exact h
  · exact h
  · exact Rom.releaseAll_envsOk h

/-- A sustain tick of a playing note before its Publish: the note counter at `n`, the envelopes stepped to `es`, the sweep
stepped (40_interpreter_tick.md R153). -/
def Voice.swept (n : Word) (es : Envs) (vc : Voice) : Voice := Voice.sweepTick { vc with nlenC := n, env := es }

/-- What a sustain tick of a playing note leaves: the registers are published while the gate is on
(40_interpreter_tick.md R153). -/
def Rom.sustained (r : Rom) (n : Word) (es : Envs) (vc : Voice) : Voice :=
  if (vc.swept n es).gate then r.publish (vc.swept n es) else vc.swept n es

/-- The sweep and the envelopes aside, a sustain tick leaves the record as it was until it publishes. -/
theorem Voice.swept_frame (n : Word) (es : Envs) (vc : Voice) :
    ∃ acc rem, vc.swept n es = { vc with nlenC := n, env := es, sweepAcc := acc, sweepRem := rem } := by
  rcases Voice.sweepTick_cases { vc with nlenC := n, env := es } with e | ⟨-, e⟩
  · exact ⟨vc.sweepAcc, vc.sweepRem, e⟩
  · exact ⟨_, _, e⟩

/-- A sustain tick publishes while the gate is on, and otherwise does not. -/
theorem Rom.sustained_cases (r : Rom) (n : Word) (es : Envs) (vc : Voice) :
    (vc.gate = true ∧ r.sustained n es vc = r.publish (vc.swept n es)) ∨
      (vc.gate = false ∧ r.sustained n es vc = vc.swept n es) := by
  obtain ⟨acc, rem, e⟩ := vc.swept_frame n es
  rw [Rom.sustained, e]
  cases h : vc.gate
  · exact .inr ⟨rfl, by simp⟩
  · exact .inl ⟨rfl, by simp⟩

/-- What a sustain tick does not write, and the envelopes. -/
theorem Rom.sustained_frame (r : Rom) (n : Word) (es : Envs) (vc : Voice) :
    (r.sustained n es vc).stream = vc.stream ∧ (r.sustained n es vc).finished = vc.finished ∧
      (r.sustained n es vc).playing = vc.playing ∧ (r.sustained n es vc).err = vc.err ∧
      (r.sustained n es vc).gate = vc.gate ∧ (r.sustained n es vc).env = es := by
  obtain ⟨acc, rem, e⟩ := vc.swept_frame n es
  rcases r.sustained_cases n es vc with ⟨-, h⟩ | ⟨-, h⟩ <;> rw [h, e] <;> simp

/-- A sustain tick keeps the ramp in its bounds. -/
theorem Rom.sustained_sweepOk {r : Rom} {vc : Voice} (n : Word) (es : Envs) (h : vc.sweepOk) :
    (r.sustained n es vc).sweepOk := by
  have hw : (vc.swept n es).sweepOk := Voice.sweepTick_sweepOk (vc := { vc with nlenC := n, env := es }) h
  rcases r.sustained_cases n es vc with ⟨-, e⟩ | ⟨-, e⟩ <;> rw [e]
  · simpa [Voice.sweepOk] using hw
  · exact hw

/-- A sustain tick keeps the visibility law. -/
theorem Rom.sustained_oscOk {r : Rom} {vc : Voice} (n : Word) (es : Envs) (h : vc.oscOk) :
    (r.sustained n es vc).oscOk := by
  have hw : (vc.swept n es).oscOk := by
    obtain ⟨acc, rem, e⟩ := vc.swept_frame n es
    rw [e]; exact h
  rcases r.sustained_cases n es vc with ⟨-, e⟩ | ⟨-, e⟩ <;> rw [e]
  · exact Rom.publish_oscOk r hw
  · exact hw

/-- A sustain tick keeps the pulse width a multiple of 256. -/
theorem Rom.sustained_pwOk {r : Rom} {vc : Voice} (n : Word) (es : Envs) (h : vc.pwOk) :
    (r.sustained n es vc).pwOk := by
  rcases r.sustained_cases n es vc with ⟨-, e⟩ | ⟨-, e⟩ <;> rw [e]
  · rw [Voice.pwOk, Rom.publish_pw]; exact Voice.pubPw_mod _
  · obtain ⟨acc, rem, e⟩ := vc.swept_frame n es
    rw [e]; exact h

/-! ### The record a step leaves -/

/-- The records one step can leave of a voice with the record `vc`. -/
inductive RecordStep (s : State) (vc : Voice) : Voice → Prop
  /-- nothing changes -/
  | same : RecordStep s vc vc
  /-- an instruction writes registers, the cursor, the track loop point and the frames -/
  | sets {nl ql oc vo tr de ti sl ss cu ts tl ls lp} : RecordStep s vc
      { vc with
        noteLen := nl, quantLen := ql, octave := oc, volume := vo, transpose := tr, detune := de, timbre := ti,
        sweepLen := sl, sweepStep := ss, cursor := cu, tlpSet := ts, tlp := tl, ls := ls, lsp := lp }
  /-- an envelope is selected -/
  | selects (c : EnvClass) (k : Byte) (hk : s.rom.seqValid k = true) : RecordStep s vc
      { vc with env := vc.env.put c ((vc.env.get c).select k), cursor := vc.after 2 }
  /-- an error is raised -/
  | raises (k : ErrKind) : RecordStep s vc { vc.raise k with result := { active := false, error := some k } }
  /-- the stream ends -/
  | ends : RecordStep s vc { vc.finish with result := { active := false, error := none } }
  /-- a rest begins -/
  | rests {cu nl} : RecordStep s vc
      { Voice.writeGate { vc with cursor := cu, nlenC := nl, qlenC := 0, playing := false } false with
        result := { active := !vc.finished, error := none } }
  /-- a note begins -/
  | plays (p : Pass) (semi : Fin 12) (a : NoteArgs) (es : Envs) (hp : InPass s p vc)
      (he : vc.env.each s.rom.startSelected = .ok es) : RecordStep s vc
      { s.rom.publish { vc.startNote semi a with env := es, sweepRem := vc.sweepLen, sweepAcc := 0 } with
        result := { active := !vc.finished, error := none } }
  /-- a finished voice's tick -/
  | idles : RecordStep s vc vc.tickOver
  /-- a tick that starts a decode pass -/
  | fetches : RecordStep s vc { s.rom.quantize vc with nlenC := 0 }
  /-- a sustain tick of a rest -/
  | waits {n} : RecordStep s vc (Voice.tickOver { s.rom.quantize vc with nlenC := n })
  /-- a sustain tick of a note -/
  | sustains (n : Word) (es : Envs) (he : (s.rom.quantize vc).env.each s.rom.stepSelected = .ok es) : RecordStep s vc
      (s.rom.sustained n es (s.rom.quantize vc)).tickOver
  /-- a pending write becomes visible -/
  | settles (f : OscField) : RecordStep s vc (vc.settle f)
  /-- a sample is rendered -/
  | samples : RecordStep s vc vc.renderSample
  /-- the voice is initialised -/
  | inits (stream : List Byte) (len : Word) : RecordStep s vc (vc.init s.deploy stream len)

/-- The record the execution of an instruction leaves. -/
theorem exec_record {i : Instr} {s t : State} {p : Pass} {vc vc' : Voice} (hp : InPass s p vc) (h : exec i s = .next t)
    (hv : t.voices[p.voice]? = some vc') : RecordStep s vc vc' := by
  rcases exec_voice hp h hv with
    ⟨-, _, _, _, _, _, _, _, _, _, _, _, _, _, _, rfl⟩ | ⟨-, c, k, hk, rfl⟩ | ⟨-, k, rfl⟩ | ⟨-, rfl⟩ | ⟨-, _, _, rfl⟩ |
    ⟨-, semi, a, es, he, rfl⟩
  · exact .sets
  · exact .selects c k hk
  · exact .raises k
  · exact .ends
  · exact .rests
  · exact .plays p semi a es hp he

/-- The record the first three steps of a tick leave. -/
theorem Rom.tickFront_record {s : State} {vc vc' : Voice} {f : Front} (h : s.rom.tickFront vc = .ok f)
    (hf : f = .over vc' ∨ f = .fetches vc') : RecordStep s vc vc' := by
  rcases Rom.tickFront_cases h with ⟨-, e⟩ | ⟨-, -, e⟩ | ⟨-, -, -, e⟩ | ⟨-, -, -, es, w, he, rfl, e⟩ <;>
    rcases hf with hf | hf <;> rw [hf] at e <;> cases e
  · exact .idles
  · exact .fetches
  · exact .waits
  · exact .sustains _ es he

/-- Applying the oldest pending write applies the oldest write to its register. -/
theorem Voice.settle_oldest {vc : Voice} {w : OscWrite} {ws : List OscWrite} (h : vc.pending = w :: ws) :
    vc.settle w.field = { vc with shown := vc.shown.apply w, pending := ws } := by
  simp [Voice.settle, takeFirst, h]

/-- The record a step leaves of a voice. -/
theorem VoiceStep.record {s t : State} {v : Nat} {vc vc' : Voice} (hs : s.voices[v]? = some vc)
    (ht : t.voices[v]? = some vc') (h : VoiceStep s v vc vc' t) : RecordStep s vc vc' := by
  cases h with
  | same h => exact h ▸ .same
  | raises p k he hp hf h =>
    subst hp h
    obtain rfl := InPass.set_get ⟨he, hs⟩ ht
    exact .raises k
  | runs p i he hp hf h =>
    subst hp
    exact exec_record ⟨he, hs⟩ h ht
  | ticks todo he hf h => exact Rom.tickFront_record hf (.inl rfl)
  | fetches todo he hf h => exact Rom.tickFront_record hf (.inr rfl)
  | oldest w rest he hp h => exact h ▸ Voice.settle_oldest hp ▸ .settles w.field
  | settles f rest he hi h => exact h ▸ .settles f
  | samples rest he hi h => exact h ▸ .samples
  | inits stream len rest he hi hl hp h => exact h ▸ .inits stream len

/-! ### The laws of single records -/

/-- What the application of a pending write leaves alone. -/
theorem Voice.settle_frame (vc : Voice) (f : OscField) :
    ∃ sh ws, vc.settle f = { vc with shown := sh, pending := ws } ∧ ws.Sublist vc.pending := by
  unfold Voice.settle
  split
  · exact ⟨vc.shown, vc.pending, rfl, .refl _⟩
  · next w rest h => exact ⟨_, _, rfl, takeFirst_sublist h⟩

/-- A step keeps the ramp in its bounds. -/
theorem RecordStep.sweepOk {s : State} {vc vc' : Voice} (h : RecordStep s vc vc') (ho : vc.sweepOk) : vc'.sweepOk := by
  have hq : (s.rom.quantize vc).sweepOk := by simpa [Voice.sweepOk] using ho
  cases h with
  | plays p semi a es hp he =>
    have := vc.sweepLen.isLt
    simp only [Voice.sweepOk, Rom.publish_sweepRem, Rom.publish_sweepAcc]
    simp
    omega
  | fetches => exact hq
  | waits => exact hq
  | sustains n es he => exact Rom.sustained_sweepOk n es hq
  | settles f => obtain ⟨sh, ws, e, -⟩ := vc.settle_frame f; rw [e]; exact ho
  | inits stream len => simp [Voice.sweepOk, Voice.init]
  | _ => exact ho

/-- A step keeps the flag laws, when only a voice that is not finished is in a decode pass. -/
theorem RecordStep.flagsOk {s : State} {vc vc' : Voice} (h : RecordStep s vc vc')
    (hpass : ∀ p, InPass s p vc → vc.finished = false) (ho : vc.flagsOk) : vc'.flagsOk := by
  obtain ⟨hfin, herr, hgate⟩ := id ho
  have hq : (s.rom.quantize vc).flagsOk := by
    refine ⟨fun hf => ?_, by simpa using herr, fun hg => ?_⟩
    · have hoff := hfin (by simpa using hf)
      by_contra hon
      simp [Rom.quantize_gate (by simpa using hon)] at hoff
    · simpa using hgate (Rom.quantize_gate hg)
  cases h with
  | raises k => exact ⟨fun _ => rfl, fun _ => rfl, nofun⟩
  | ends => exact ⟨fun _ => rfl, fun _ => rfl, nofun⟩
  | rests => exact ⟨fun _ => rfl, herr, nofun⟩
  | plays p semi a es hp he =>
    have hf := hpass p hp
    simpa [Voice.flagsOk, Voice.startNote, hf] using herr
  | fetches => exact hq
  | waits => exact hq
  | sustains n es he =>
    obtain ⟨-, e1, e2, e3, e4, -⟩ := s.rom.sustained_frame n es (s.rom.quantize vc)
    simpa [Voice.flagsOk, e1, e2, e3, e4] using hq
  | settles f => obtain ⟨sh, ws, e, -⟩ := vc.settle_frame f; rw [e]; exact ho
  | inits stream len => simp [Voice.flagsOk, Voice.init]
  | _ => exact ho

/-- A step keeps the visibility law. -/
theorem RecordStep.oscOk {s : State} {vc vc' : Voice} (h : RecordStep s vc vc') (ho : vc.oscOk) : vc'.oscOk := by
  have hq : (s.rom.quantize vc).oscOk := Rom.quantize_oscOk ho
  cases h with
  | raises k => exact Voice.writeGate_oscOk ho false
  | ends => exact Voice.writeGate_oscOk ho false
  | rests => exact Voice.writeGate_oscOk (vc := { vc with playing := false }) ho false
  | plays p semi a es hp he =>
    have hstart : Voice.oscOk { vc.startNote semi a with env := es, sweepRem := vc.sweepLen, sweepAcc := 0 } :=
      Voice.writeGate_oscOk (vc := vc) ho true
    exact Rom.publish_oscOk s.rom hstart
  | fetches => exact hq
  | waits => exact hq
  | sustains n es he => exact Rom.sustained_oscOk n es hq
  | settles f => exact (Voice.settle_oscOk f ho).1
  | inits stream len => rfl
  | _ => exact ho

/-- A step keeps the pulse width a multiple of 256. -/
theorem RecordStep.pwOk {s : State} {vc vc' : Voice} (h : RecordStep s vc vc') (ho : vc.pwOk) : vc'.pwOk := by
  have hq : (s.rom.quantize vc).pwOk := by simpa [Voice.pwOk] using ho
  cases h with
  | plays p semi a es hp he => exact Voice.pubPw_mod _
  | fetches => exact hq
  | waits => exact hq
  | sustains n es he => exact Rom.sustained_pwOk n es hq
  | settles f => obtain ⟨sh, ws, e, -⟩ := vc.settle_frame f; rw [e]; exact ho
  | inits stream len => rfl
  | _ => exact ho

/-- A step keeps the stream of a voice and finishes it or leaves it as it is, or initialises it. -/
theorem RecordStep.stream {s : State} {vc vc' : Voice} (h : RecordStep s vc vc') :
    (∃ stream len, vc' = vc.init s.deploy stream len) ∨
      (vc'.stream = vc.stream ∧ (vc'.finished = false → vc.finished = false)) := by
  cases h with
  | raises k => exact .inr ⟨rfl, nofun⟩
  | ends => exact .inr ⟨rfl, nofun⟩
  | fetches => exact .inr (by simp)
  | waits => exact .inr (by simp)
  | sustains n es he =>
    obtain ⟨e1, e2, -⟩ := s.rom.sustained_frame n es (s.rom.quantize vc)
    exact .inr (by simp [e1, e2])
  | settles f => obtain ⟨sh, ws, e, -⟩ := vc.settle_frame f; rw [e]; exact .inr ⟨rfl, id⟩
  | inits stream len => exact .inl ⟨stream, len, rfl⟩
  | _ => exact .inr ⟨rfl, id⟩

/-- A step keeps a voice's stream in canonical form, and present while the voice is not finished. -/
theorem RecordStep.streamOk {s : State} {vc vc' : Voice} (h : RecordStep s vc vc') (ho : vc.streamOk) : vc'.streamOk := by
  rcases h.stream with ⟨stream, len, rfl⟩ | ⟨hs, hf⟩
  · refine ⟨fun _ => by simp [Voice.init], fun m hm => ?_⟩
    obtain rfl := Option.some.inj hm
    exact Memory.ofBytes_wf 0 stream
  · exact ⟨fun h => hs ▸ ho.1 (hf h), hs ▸ ho.2⟩

/-- An unset envelope holds no selection and the data value 0. -/
theorem Rom.envsOk_unset (r : Rom) : r.envsOk .unset :=
  Rom.envsOk_iff.mpr fun c => by cases c <;> exact ⟨nofun, by decide⟩

/-- An envelope just selected on a validated sequence is sound. -/
theorem Rom.envOk_select {r : Rom} {k : Byte} (hk : r.seqValid k = true) (e : Env) : r.envOk (e.select k) :=
  ⟨fun _ => ⟨hk, Nat.zero_le _⟩, show isData 0 = true by decide⟩

/-- A step keeps the selected envelopes of a voice on validated sequences while the voice is not finished. -/
theorem RecordStep.envsOk {s : State} {vc vc' : Voice} (h : RecordStep s vc vc')
    (ho : vc.finished = false → s.rom.envsOk vc.env) (hf : vc'.finished = false) : s.rom.envsOk vc'.env := by
  rcases h.stream with ⟨stream, len, rfl⟩ | ⟨-, hkept⟩
  · exact s.rom.envsOk_unset
  have hok := ho (hkept hf)
  have hq : s.rom.envsOk (s.rom.quantize vc).env := Rom.quantize_envsOk hok
  cases h with
  | selects c k hk => exact Rom.envsOk_put hok (Rom.envOk_select hk _)
  | plays p semi a es hp he => exact Rom.each_startSelected hok he
  | fetches => exact hq
  | waits => exact hq
  | sustains n es he =>
    obtain ⟨-, -, -, -, -, e⟩ := s.rom.sustained_frame n es (s.rom.quantize vc)
    rw [Voice.tickOver_env, e]
    exact Rom.each_stepSelected hq he
  | settles f => obtain ⟨sh, ws, e, -⟩ := vc.settle_frame f; rw [e]; exact hok
  | inits stream len => exact s.rom.envsOk_unset
  | _ => exact hok

/-- Every step keeps the selected envelopes of the unfinished voices on validated sequences: the sequences change only
while every voice is finished. -/
theorem step_envsOk {s t : State} (ho : s.all fun vc => vc.finished = false → s.rom.envsOk vc.env)
    (h : step s = .next t) : t.all fun vc => vc.finished = false → t.rom.envsOk vc.env := by
  obtain ⟨-, -, hrom | ⟨-, hfin, hvoices, -⟩⟩ := step_rest h
  · rw [hrom]
    exact step_all h ho fun _ _ _ hs ht hstep => (hstep.record hs ht).envsOk
  · intro vc hm hf
    rw [hvoices] at hm
    rw [hfin vc hm] at hf
    cases hf

/-- Settles O56. -/
theorem selectedEnvelopesStayValid : Obligations.SelectedEnvelopesStayValid := fun _ _ ho h => step_envsOk ho h

end Sys2Proof.Machine
end

section
/-! SUPPORT. The laws of the whole block that a step keeps: the ranges of the sequence memory, the engine's place and the
pending writes; settles O57. -/

namespace Sys2Proof.Machine

/-! ### The read-only memories -/

/-- Loaded sequences lie in the ranges of 00_scope.md R11. -/
theorem Rom.ofSeqs_ok (ft : Vector Word 12) (am : Vector Byte 16) {seqs : List (List Byte)}
    (h : seqsInRange seqs = true) : (Rom.ofSeqs ft am seqs).ok := by
  simp only [seqsInRange, Bool.and_eq_true, decide_eq_true_eq, List.all_eq_true] at h
  obtain ⟨hcount, hlen⟩ := h
  refine ⟨seqMemOf_wf 0 seqs fun q hq => ?_, by simpa [Rom.ofSeqs] using hcount, fun n hn => ?_⟩
  · have := hlen q hq
    omega
  · obtain ⟨q, hq, rfl⟩ := List.mem_map.mp hn
    have := hlen q hq
    rw [BitVec.toNat_ofNat]
    omega

/-- A step keeps the sequence memory in its ranges. -/
theorem step_romOk {s t : State} (h : step s = .next t) (ho : s.rom.ok) : t.rom.ok := by
  obtain ⟨-, -, e | ⟨-, -, -, -, ft, am, seqs, hr, e⟩⟩ := step_rest h <;> rw [e]
  · exact ho
  · exact Rom.ofSeqs_ok ft am hr

/-! ### The engine's place -/

/-- The voice of a decode pass is not finished and its note counter is 0. -/
theorem State.engineOk_pass {s : State} {p : Pass} {vc : Voice} (h : s.engineOk) (hp : InPass s p vc) :
    vc.finished = false ∧ vc.nlenC = 0 := by
  obtain ⟨he, hv⟩ := hp
  unfold State.engineOk at h
  rw [he] at h
  obtain ⟨-, -, w, hw, hfin, hn⟩ := h
  rw [hv] at hw
  cases hw
  exact ⟨hfin, hn⟩

/-- While a decode pass goes on, its voice's flags, note counter and pending writes do not change. -/
theorem VoiceStep.pass_goesOn {s t : State} {p q : Pass} {vc vc' : Voice} (hp : InPass s p vc)
    (h : VoiceStep s p.voice vc vc' t) (hq : t.engine = .pass q) (hv : t.voices[p.voice]? = some vc') :
    vc'.finished = vc.finished ∧ vc'.nlenC = vc.nlenC ∧ vc'.pending = vc.pending := by
  obtain ⟨he, hs⟩ := id hp
  cases h with
  | same h => subst h; exact ⟨rfl, rfl, rfl⟩
  | raises p' k he' hp' hf h => subst h; cases hq
  | runs p' i he' hp' hf h =>
    rcases exec_voice hp h hv with
      ⟨-, _, _, _, _, _, _, _, _, _, _, _, _, _, _, rfl⟩ | ⟨-, c, k, -, rfl⟩ | ⟨e, -⟩ | ⟨e, -⟩ | ⟨e, -⟩ | ⟨e, -⟩
    · exact ⟨rfl, rfl, rfl⟩
    · exact ⟨rfl, rfl, rfl⟩
    all_goals rw [e] at hq; cases hq
  | ticks _ he' | fetches _ he' | oldest _ _ he' | settles _ _ he' | samples _ he' | inits _ _ _ he' =>
    rw [he] at he'; cases he'

/-- A step keeps the engine's place. -/
theorem step_engineOk {s t : State} (h : step s = .next t) (ho : s.engineOk) : t.engineOk := by
  have hlen := (step_rest h).2.1
  unfold State.engineOk at ho
  rcases step_engine h with ⟨p, he, ht⟩ | ⟨v, todo, he, ht⟩ | ⟨he, ht⟩ <;> rw [he] at ho
  · obtain ⟨hnodup, hlt, vc, hv, hfin, hn⟩ := ho
    obtain ⟨vc', hv', hstep⟩ := step_voice hv h
    have hrunning : ∀ q, t.engine = .pass q → vc'.finished = false ∧ vc'.nlenC = 0 := fun q hq => by
      obtain ⟨e1, e2, -⟩ := hstep.pass_goesOn ⟨he, hv⟩ hq hv'
      exact ⟨e1.trans hfin, e2.trans hn⟩
    rcases ht with e | e | e <;> simp only [State.engineOk, e, hlen]
    · exact ⟨(List.nodup_cons.mp hnodup).2, hlt⟩
    · exact ⟨hnodup, hlt, vc', hv', hrunning _ e⟩
    · exact ⟨hnodup, hlt, vc', hv', hrunning _ e⟩
  · obtain ⟨hnodup, hlt⟩ := ho
    rw [List.forall_mem_cons] at hlt
    rw [step_tick he] at h
    rcases startTick_next h with ⟨-, rfl⟩ | ⟨vc, hv, ⟨vc', -, rfl⟩ | ⟨vc', hf, rfl⟩⟩
    · exact ⟨(List.nodup_cons.mp hnodup).2, hlt.2⟩
    · exact ⟨(List.nodup_cons.mp hnodup).2, fun u hu => hlen.symm ▸ hlt.2 u hu⟩
    · refine ⟨hnodup, fun u hu => hlen.symm ▸ hlt.2 u hu, vc', State.setVoice_self s v vc' vc hv, ?_⟩
      rcases Rom.tickFront_cases hf with ⟨-, e⟩ | ⟨hfin, -, e⟩ | ⟨-, -, -, e⟩ | ⟨-, -, -, _, _, -, -, e⟩ <;> cases e
      exact ⟨by simpa using hfin, rfl⟩
  · rcases ht with e | ⟨e, -, -⟩ <;> simp only [State.engineOk, e, hlen]
    · exact ⟨List.nodup_nil, nofun⟩
    · exact ⟨List.nodup_range, fun u hu => List.mem_range.mp hu⟩

/-! ### The pending writes -/

/-- Fewer writes lie within the writes of one tick. -/
theorem writesOk_sublist {ws vs : List OscWrite} (h : ws.Sublist vs) (ho : writesOk vs) : writesOk ws := by
  have hle : ∀ f, (ws.map OscWrite.field).count f ≤ (vs.map OscWrite.field).count f :=
    fun f => (h.map OscWrite.field).count_le f
  obtain ⟨hfreq, hamp, hpw, hgate⟩ := ho
  exact ⟨(hle _).trans hfreq, (hle _).trans hamp, (hle _).trans hpw, (hle _).trans hgate⟩

/-- The writes of a tick before its last ones: none, or the closing of the gate by quantization. -/
def earlyWrites (ws : List OscWrite) : Prop := ws = [] ∨ ws = [.gate false]

/-- Early writes, a gate write and a Publish are writes of one tick. -/
theorem earlyWrites.gate_publish_ok {ws : List OscWrite} (h : earlyWrites ws) (b : Bool) (x y : Word) (z : Byte) :
    writesOk (ws ++ [OscWrite.gate b] ++ [OscWrite.freq x, OscWrite.amp z, OscWrite.pw y]) := by
  rcases h with rfl | rfl <;> simp [writesOk, OscWrite.field]

/-- Early writes and a Publish are writes of one tick. -/
theorem earlyWrites.publish_ok {ws : List OscWrite} (h : earlyWrites ws) (x y : Word) (z : Byte) :
    writesOk (ws ++ [OscWrite.freq x, OscWrite.amp z, OscWrite.pw y]) :=
  writesOk_sublist (List.Sublist.append_right (List.sublist_append_left ws _) _) (h.gate_publish_ok false x y z)

/-- Early writes and a gate write are writes of one tick. -/
theorem earlyWrites.gate_ok {ws : List OscWrite} (h : earlyWrites ws) (b : Bool) : writesOk (ws ++ [OscWrite.gate b]) :=
  writesOk_sublist (List.sublist_append_left _ _) (h.gate_publish_ok b 0 0 0)

/-- Early writes are writes of one tick. -/
theorem earlyWrites.ok {ws : List OscWrite} (h : earlyWrites ws) : writesOk ws :=
  writesOk_sublist (List.sublist_append_left _ _) (h.gate_ok false)

/-- Quantization makes early writes only. -/
theorem Rom.quantize_pending {r : Rom} {vc : Voice} (h : vc.pending = []) : earlyWrites (r.quantize vc).pending := by
  rcases r.quantize_cases vc with ⟨q, e⟩ | e | ⟨-, e⟩ <;> rw [e]
  · exact .inl h
  · exact .inr (by simp [h])
  · exact .inr (by simp [h])

/-- A decode pass starts with early writes pending. -/
theorem Rom.tickFront_fetches_pending {r : Rom} {vc vc' : Voice} (h : r.tickFront vc = .ok (.fetches vc'))
    (hp : vc.pending = []) : earlyWrites vc'.pending := by
  rcases Rom.tickFront_cases h with ⟨-, e⟩ | ⟨-, -, e⟩ | ⟨-, -, -, e⟩ | ⟨-, -, -, _, _, -, -, e⟩ <;> cases e
  exact Rom.quantize_pending hp

/-- A sustain tick adds at most a Publish. -/
theorem Rom.sustained_pending {r : Rom} {vc : Voice} (n : Word) (es : Envs) (h : earlyWrites vc.pending) :
    writesOk (r.sustained n es vc).pending := by
  obtain ⟨acc, rem, e⟩ := vc.swept_frame n es
  rcases r.sustained_cases n es vc with ⟨-, hs⟩ | ⟨-, hs⟩ <;> rw [hs, e]
  · rw [Rom.publish_pending]
    exact h.publish_ok _ _ _
  · exact h.ok

/-- A tick that ends without a decode pass leaves writes of one tick. -/
theorem Rom.tickFront_over_pending {r : Rom} {vc vc' : Voice} (h : r.tickFront vc = .ok (.over vc'))
    (hp : vc.pending = []) : writesOk vc'.pending := by
  have hq : earlyWrites (r.quantize vc).pending := Rom.quantize_pending hp
  rcases Rom.tickFront_cases h with ⟨-, e⟩ | ⟨-, -, e⟩ | ⟨-, -, -, e⟩ | ⟨-, -, -, es, w, -, rfl, e⟩ <;> cases e
  · exact earlyWrites.ok (.inl hp)
  · exact hq.ok
  · exact Rom.sustained_pending _ es hq

/-- An instruction leaves writes of one tick. -/
theorem exec_pending {i : Instr} {s t : State} {p : Pass} {vc vc' : Voice} (hp : InPass s p vc) (h : exec i s = .next t)
    (hv : t.voices[p.voice]? = some vc') (he : earlyWrites vc.pending) : writesOk vc'.pending := by
  rcases exec_voice hp h hv with
    ⟨-, _, _, _, _, _, _, _, _, _, _, _, _, _, _, rfl⟩ | ⟨-, c, k, hk, rfl⟩ | ⟨-, k, rfl⟩ | ⟨-, rfl⟩ | ⟨-, _, _, rfl⟩ |
    ⟨-, semi, a, es, -, rfl⟩
  · exact he.ok
  · exact he.ok
  · exact he.gate_ok false
  · exact he.gate_ok false
  · exact he.gate_ok false
  · simp only [Rom.publish_pending]
    exact he.gate_publish_ok true _ _ _

/-- A voice after a step was there before it, and the step did one thing to it. -/
theorem step_voice_back {s t : State} {v : Nat} {vc' : Voice} (h : step s = .next t) (hv : t.voices[v]? = some vc') :
    ∃ vc, s.voices[v]? = some vc ∧ VoiceStep s v vc vc' t := by
  have hlt := (List.getElem?_eq_some_iff.mp hv).1
  rw [(step_rest h).2.1] at hlt
  have hs := List.getElem?_eq_getElem hlt
  obtain ⟨w, hw, hstep⟩ := step_voice hs h
  rw [hv] at hw
  cases hw
  exact ⟨_, hs, hstep⟩

/-- A voice whose tick is still to come after a step was still to come before it, or the TickEvent begins and no write is
pending. -/
theorem step_todo {s t : State} {v : Nat} (h : step s = .next t) (hv : v ∈ t.engine.todo) :
    v ∈ s.engine.todo ∨ ∀ vc ∈ s.voices, vc.pending = [] := by
  rcases step_engine h with ⟨p, he, e | e | e⟩ | ⟨u, todo, he, e | ⟨-, e⟩⟩ | ⟨he, e | ⟨-, -, hnone⟩⟩
  case inr.inr.inr => exact .inr hnone
  all_goals rw [e] at hv; rw [he]; left
  · exact hv
  · exact hv
  · exact hv
  · exact List.mem_cons_of_mem u hv
  · exact List.mem_cons_of_mem u hv
  · exact hv

/-- A step leaves alone the record of a voice whose tick is still to come. -/
theorem VoiceStep.todo_same {s t : State} {v : Nat} {vc vc' : Voice} (ho : s.engineOk) (hs : s.voices[v]? = some vc)
    (h : VoiceStep s v vc vc' t) (hv : v ∈ t.engine.todo) : vc' = vc := by
  unfold State.engineOk at ho
  cases h with
  | same h => exact h
  | raises p k he hp hf h =>
    subst hp h
    rw [he] at ho
    exact absurd hv (List.nodup_cons.mp ho.1).1
  | runs p i he hp hf h =>
    subst hp
    rw [he] at ho
    obtain ⟨p', w, new, h1, h2, -, e, -⟩ := exec_frame h
    obtain ⟨rfl, rfl⟩ := InPass.unique ⟨he, hs⟩ h1 h2
    have htodo : t.engine.todo = p'.todo := by rcases e with e | e | e <;> rw [e] <;> rfl
    rw [htodo] at hv
    exact absurd hv (List.nodup_cons.mp ho.1).1
  | ticks todo he hf h | fetches todo he hf h =>
    subst h
    rw [he] at ho
    exact absurd hv (List.nodup_cons.mp ho.1).1
  | oldest _ _ he _ _ h | settles _ _ he _ _ h | samples _ he _ _ h | inits _ _ _ he _ _ _ _ h =>
    subst h
    simp [he, Engine.todo] at hv

/-- A step leaves writes of one tick. -/
theorem VoiceStep.pending_writesOk {s t : State} {v : Nat} {vc vc' : Voice} (ho : s.pendingOk) (hs : s.voices[v]? = some vc)
    (hv : t.voices[v]? = some vc') (h : VoiceStep s v vc vc' t) : writesOk vc'.pending := by
  obtain ⟨hkept, htodo, hpass⟩ := ho v vc hs
  cases h with
  | same h => exact h ▸ hkept
  | raises p k he hp hf h =>
    have hearly : earlyWrites vc.pending := hpass p he hp
    subst hp h
    obtain rfl := InPass.set_get ⟨he, hs⟩ hv
    exact hearly.gate_ok false
  | runs p i he hp hf h =>
    have hearly : earlyWrites vc.pending := hpass p he hp
    subst hp
    exact exec_pending ⟨he, hs⟩ h hv hearly
  | ticks todo he hf h => exact Rom.tickFront_over_pending hf (htodo (by simp [he, Engine.todo]))
  | fetches todo he hf h =>
    have hearly := Rom.tickFront_fetches_pending hf (htodo (by simp [he, Engine.todo]))
    exact hearly.ok
  | oldest w rest he hp h =>
    subst h
    rw [hp] at hkept
    exact writesOk_sublist (List.sublist_cons_self w rest) hkept
  | settles f rest he hi h =>
    subst h
    obtain ⟨sh, ws, e, hsub⟩ := vc.settle_frame f
    rw [e]
    exact writesOk_sublist hsub hkept
  | samples rest he hi h => subst h; exact hkept
  | inits stream len rest he hi hl hp h =>
    subst h
    exact earlyWrites.ok (.inl rfl)

/-- The voice of a decode pass has early writes pending. -/
theorem VoiceStep.pass_early {s t : State} {q : Pass} {vc vc' : Voice} (h : step s = .next t) (ho : s.pendingOk)
    (hs : s.voices[q.voice]? = some vc) (hv : t.voices[q.voice]? = some vc') (hstep : VoiceStep s q.voice vc vc' t)
    (hq : t.engine = .pass q) : earlyWrites vc'.pending := by
  obtain ⟨-, htodo, hpass⟩ := ho q.voice vc hs
  rcases step_engine h with ⟨p, he, e⟩ | ⟨v, todo, he, e⟩ | ⟨-, e | ⟨e, -⟩⟩
  · have hvoice : p.voice = q.voice := by
      rcases e with e | e | e <;> rw [hq] at e <;> cases e <;> rfl
    rw [← hvoice] at hs hv hstep
    rw [(hstep.pass_goesOn ⟨he, hs⟩ hq hv).2.2]
    exact hpass p he hvoice
  · have hvoice : v = q.voice := by
      rcases e with e | ⟨-, e⟩ <;> rw [hq] at e <;> cases e
      rfl
    have hnone := htodo (by simp [he, Engine.todo, hvoice])
    cases hstep with
    | same h => exact .inl (h ▸ hnone)
    | ticks _ _ _ h => subst h; cases hq
    | fetches _ _ hf _ => exact Rom.tickFront_fetches_pending hf hnone
    | raises _ _ he' | runs _ _ he' | oldest _ _ he' | settles _ _ he' | samples _ he' | inits _ _ _ he' =>
      rw [he] at he'; cases he'
  all_goals rw [hq] at e; cases e

/-- A step keeps the law of the pending writes. -/
theorem step_pendingOk {s t : State} (h : step s = .next t) (he : s.engineOk) (ho : s.pendingOk) : t.pendingOk := by
  intro v vc' hv
  obtain ⟨vc, hs, hstep⟩ := step_voice_back h hv
  refine ⟨hstep.pending_writesOk ho hs hv, fun htodo => ?_, fun q hq hvoice => ?_⟩
  · rw [hstep.todo_same he hs htodo]
    rcases step_todo h htodo with hbefore | hnone
    · exact (ho v vc hs).2.1 hbefore
    · exact hnone vc (List.mem_of_getElem? hs)
  · subst hvoice
    exact hstep.pass_early h ho hs hv hq

/-! ### The invariant -/

/-- Settles O57: each part of the invariant is kept by a lemma of its own. -/
theorem invariantIsKept : Obligations.InvariantIsKept := by
  intro s t ⟨hrom, hoffsets, hsweep, hflags, hosc, hpw, hstream, henvs, hengine, hpending⟩ h
  refine ⟨step_romOk h hrom, step_offsetsOk h hoffsets, ?_, ?_, ?_, ?_, ?_, step_envsOk henvs h,
    step_engineOk h hengine, step_pendingOk h hengine hpending⟩
  · exact step_all h hsweep fun _ _ _ hs ht hstep => (hstep.record hs ht).sweepOk
  · exact step_all h hflags fun _ _ _ hs ht hstep =>
      (hstep.record hs ht).flagsOk fun _ hp => (State.engineOk_pass hengine hp).1
  · exact step_all h hosc fun _ _ _ hs ht hstep => (hstep.record hs ht).oscOk
  · exact step_all h hpw fun _ _ _ hs ht hstep => (hstep.record hs ht).pwOk
  · exact step_all h hstream fun _ _ _ hs ht hstep => (hstep.record hs ht).streamOk

end Sys2Proof.Machine
end

section
/-! SUPPORT. Which instruction writes which part of a voice's record; settles O21. -/

namespace Sys2Proof.Machine

/-! ### Envelope operations and the selection -/

/-- Starting an envelope changes neither whether it is selected nor its sequence. -/
theorem Rom.startSelected_selection {r : Rom} {e e' : Env} (h : r.startSelected e = .ok e') :
    e'.sel = e.sel ∧ e'.idx = e.idx := by
  unfold Rom.startSelected at h
  split at h
  · exact Rom.envTurns_selection (e := e.restart) h
  · cases h; exact ⟨rfl, rfl⟩

/-- A NOTE changes no envelope's selection (41_note_and_end.md R183). -/
theorem Envs.each_startSelected_selection {r : Rom} {es es' : Envs} (h : es.each r.startSelected = .ok es')
    (c : EnvClass) : (es'.get c).sel = (es.get c).sel ∧ (es'.get c).idx = (es.get c).idx :=
  Rom.startSelected_selection (Envs.each_get h c)

/-! ### The writers of each register -/

/-- Where `vc'` differs from `vc` in a persistent register, in the track loop point, in the loop frames, in `semi` or in the
selection or the release flag of an envelope, `i` is an instruction that 10_state.md names as its writer (R33, R34, R41,
R42, R45). -/
structure HasWriters (i : Instr) (vc vc' : Voice) : Prop where
  noteLen : vc'.noteLen ≠ vc.noteLen → (∃ u, i = .noteLen u) ∨ ∃ w, i = .noteLenW w
  quantLen : vc'.quantLen ≠ vc.quantLen → (∃ u, i = .quantLen u) ∨ ∃ w, i = .quantLenW w
  octave : vc'.octave ≠ vc.octave → (∃ u, i = .octave u) ∨ i = .octaveUp ∨ i = .octaveDown
  volume : vc'.volume ≠ vc.volume → (∃ u, i = .volume u) ∨ i = .volumeUp ∨ i = .volumeDown
  transpose : vc'.transpose ≠ vc.transpose → ∃ x, i = .transpose x
  detune : vc'.detune ≠ vc.detune → ∃ x, i = .detune x
  timbre : vc'.timbre ≠ vc.timbre → ∃ x, i = .timbre x
  sweep : vc'.sweepLen ≠ vc.sweepLen ∨ vc'.sweepStep ≠ vc.sweepStep → ∃ len step, i = .pitchSweep len step
  tlp : vc'.tlpSet ≠ vc.tlpSet ∨ vc'.tlp ≠ vc.tlp → i = .trackLoop
  frames : vc'.lsp ≠ vc.lsp ∨ vc'.ls ≠ vc.ls → (∃ u, i = .loopStart u) ∨ i = .loopEnd
  semi : vc'.semi ≠ vc.semi → ∃ n a, n < 13 ∧ noteOf n a = some i
  env : ∀ c : EnvClass,
    ((vc'.env.get c).sel ≠ (vc.env.get c).sel ∨ (vc'.env.get c).idx ≠ (vc.env.get c).idx → ∃ k, i = selectOp c k) ∧
    ((vc'.env.get c).rel ≠ (vc.env.get c).rel → (∃ k, i = selectOp c k) ∨ ∃ n a, n < 13 ∧ noteOf n a = some i)

/-- Raising an error writes none of these. -/
theorem HasWriters.of_raise (i : Instr) (vc : Voice) (k : ErrKind) (r : TickResult) :
    HasWriters i vc { vc.raise k with result := r } := by
  constructor <;> simp

/-- A register-setting opcode is the writer of the registers it changes. -/
theorem HasWriters.of_registerWrite {i : Instr} {f : Voice → Voice} (hf : registerWrite i = some f) (vc : Voice) :
    HasWriters i vc (f vc) := by
  cases i <;> cases hf <;> constructor <;> simp

/-- A NOTE writes `semi` and the release flags. -/
theorem HasWriters.of_note {i : Instr} {n : Nat} {a b : NoteArgs} (hn : n < 13) (hi : noteOf n a = some i) (r : Rom)
    (vc : Voice) (semi : Fin 12) {es : Envs} (he : vc.env.each r.startSelected = .ok es) (res : TickResult) :
    HasWriters i vc
      { r.publish { vc.startNote semi b with env := es, sweepRem := vc.sweepLen, sweepAcc := 0 } with result := res } := by
  have hnote : ∃ n a, n < 13 ∧ noteOf n a = some i := ⟨n, a, hn, hi⟩
  constructor
  case semi => exact fun _ => hnote
  case env =>
    intro c
    obtain ⟨hsel, hidx⟩ := Envs.each_startSelected_selection he c
    exact ⟨by simp [hsel, hidx], fun _ => .inr hnote⟩
  all_goals simp [Voice.startNote]

/-- An envelope selection writes the envelope of its class. -/
theorem HasWriters.of_select (c : EnvClass) (k : Byte) (vc : Voice) (cu : Word) :
    HasWriters (selectOp c k) vc { vc with env := vc.env.put c ((vc.env.get c).select k), cursor := cu } := by
  constructor
  case env =>
    intro d
    by_cases hd : d = c
    · subst hd
      exact ⟨fun _ => ⟨k, rfl⟩, fun _ => .inl ⟨k, rfl⟩⟩
    · simp [Envs.get_put_other _ _ _ _ hd]
  all_goals simp

/-- Every change an instruction makes to these parts of a record has its writer. -/
theorem exec_hasWriters {i : Instr} {s t : State} {p : Pass} {vc vc' : Voice} (hp : InPass s p vc)
    (h : exec i s = .next t) (hv : t.voices[p.voice]? = some vc') : HasWriters i vc vc' := by
  cases exec_executed hp h hv with
  | raises k => exact .of_raise i vc k _
  | plays hn hi semi es he => exact .of_note hn hi s.rom vc semi he _
  | selects c k => exact .of_select c k vc _
  | sets f hf => exact .of_registerWrite hf vc
  | restarts | ends | rests | marks | pushes | pops | branches => constructor <;> simp

/-- Settles O21. -/
theorem registersHaveTheirWriters : Obligations.RegistersHaveTheirWriters := by
  intro i s t p vc vc' hp h hv
  obtain ⟨noteLen, quantLen, octave, volume, transpose, detune, timbre, sweep, tlp, frames, semi, env⟩ :=
    exec_hasWriters hp h hv
  exact ⟨noteLen, quantLen, octave, volume, transpose, detune, timbre, sweep, tlp, frames, semi, env⟩

end Sys2Proof.Machine
end

section
/-! SUPPORT. A step of a decode pass reads and writes one voice: two states that agree in the running voice, the deployment
and the read-only memories behave alike; settles O39. -/

namespace Sys2Proof.Machine

/-- Two answers of a decode pass `p`, one from `s` and one from `s'`, are alike: the same fault, or the same record of the
pass's voice and the same engine place, with the rest of each state as it was. -/
inductive Alike (s s' : State) (p : Pass) :
    Host.Outcome State Fault Refusal → Host.Outcome State Fault Refusal → Prop
  | faults (f : Fault) : Alike s s' p (.fault f) (.fault f)
  | steps (new : Voice) (e : Engine) : Alike s s' p
      (.next { s with voices := s.voices.set p.voice new, engine := e })
      (.next { s' with voices := s'.voices.set p.voice new, engine := e })

/-- Ending the tick of the pass's voice. -/
theorem Alike.endTick {s s' : State} {p : Pass} (new : Voice) (error : Option ErrKind) :
    Alike s s' p (.next (s.endTick p new error)) (.next (s'.endTick p new error)) := .steps _ (.between p.todo)

/-- A changed record of the pass's voice, with the engine's place written out. -/
theorem InPass.setVoice_eq {s : State} {p : Pass} {vc : Voice} (hp : InPass s p vc) (new : Voice) :
    s.setVoice p.voice new = { s with voices := s.voices.set p.voice new, engine := .pass p } := by
  rw [← hp.1]
  rfl

section
variable {s s' : State} {p : Pass} {vc : Voice} (hp : InPass s p vc) (hp' : InPass s' p vc)
include hp hp'

/-- A meaning runs on the pass and the record, so it answers alike where it does so for those. -/
theorem Alike.onPass {f f' : Pass → Voice → Host.Outcome State Fault Refusal} (h : Alike s s' p (f p vc) (f' p vc)) :
    Alike s s' p (Machine.onPass s f) (Machine.onPass s' f') := by
  rw [onPass_inPass hp, onPass_inPass hp']
  exact h

/-- Changing the record of the pass's voice. -/
theorem Alike.setVoice (new : Voice) : Alike s s' p (.next (s.setVoice p.voice new)) (.next (s'.setVoice p.voice new)) := by
  rw [hp.setVoice_eq, hp'.setVoice_eq]
  exact .steps new (.pass p)

/-- An instruction answers alike. -/
theorem exec_alike (hrom : s.rom = s'.rom) (i : Instr) : Alike s s' p (exec i s) (exec i s') := by
  cases Shape.all i with
  | endStream =>
    refine .onPass hp hp' ?_
    dsimp only
    split
    · split
      · exact .endTick _ _
      · exact .steps _ _
    · exact .endTick _ _
  | note semi a hn =>
    obtain ⟨semi', -, he⟩ := exec_noteOf (by omega) hn
    rw [he, he]
    refine .onPass hp hp' ?_
    rw [← hrom]
    split
    · exact .faults _
    · exact .endTick _ _
  | rest a => exact .onPass hp hp' (.endTick _ _)
  | trackLoop => exact .onPass hp hp' (.setVoice hp hp' _)
  | loopStart u =>
    refine .onPass hp hp' ?_
    split
    · exact .setVoice hp hp' _
    · exact .endTick _ _
  | loopEnd =>
    refine .onPass hp hp' ?_
    dsimp only
    split
    · split
      · exact .setVoice hp hp' _
      · exact .setVoice hp hp' _
    · exact .endTick _ _
  | select c k =>
    rw [exec_selectOp, exec_selectOp]
    refine .onPass hp hp' ?_
    rw [← hrom]
    split
    · exact .setVoice hp hp' _
    · exact .endTick _ _
  | register f hf =>
    rw [exec_registerWrite hf, exec_registerWrite hf]
    exact .onPass hp hp' (.setVoice hp hp' _)

/-- A step of the decode pass answers alike. -/
theorem step_alike (hdeploy : s.deploy = s'.deploy) (hrom : s.rom = s'.rom) : Alike s s' p (step s) (step s') := by
  rw [step_pass hp.1, step_pass hp'.1]
  refine .onPass hp hp' ?_
  rw [← hdeploy]
  cases vc.fetch s.deploy.wideOrder with
  | absent => exact .faults _
  | raises k => exact .endTick _ _
  | instr i => exact exec_alike hp hp' hrom i

end

/-- Settles O39. -/
theorem voicesShareNoState : Obligations.VoicesShareNoState := by
  intro s s' p vc hp hp' hdeploy hrom
  have h := step_alike hp hp' hdeploy hrom
  generalize step s = o, step s' = o' at h
  cases h with
  | faults f => exact ⟨fun _ => Iff.rfl, nofun⟩
  | steps new e =>
    refine ⟨fun f => ⟨nofun, nofun⟩, fun t ht => ?_⟩
    cases ht
    exact ⟨_, new, rfl, rfl, rfl, rfl⟩

end Sys2Proof.Machine
end

section
/-! SUPPORT. The three read-only spaces of 20_memory.md: no instruction and no step but Init and load changes what a read of
them gives; and a run over pending writes ends alike in any order; settles O46 and O54. -/

namespace Sys2Proof.Machine

/-! ### The order in which pending writes become visible -/

/-- Applying the oldest pending write to a register leaves one fewer pending to it, if one was, and as many to every
other. -/
theorem Voice.settle_count (vc : Voice) (f g : OscField) :
    ((vc.settle f).pending.map OscWrite.field).count g =
      (vc.pending.map OscWrite.field).count g - if g = f then 1 else 0 := by
  unfold Voice.settle
  split
  · next hnone =>
    have habsent : (vc.pending.map OscWrite.field).count f = 0 :=
      List.count_eq_zero.mpr fun hmem => by
        obtain ⟨w, hw, hfield⟩ := List.mem_map.mp hmem
        exact takeFirst_none.mp hnone w hw hfield
    split
    · next hg => rw [hg, habsent]
    · rfl
  · next w rest htake => rw [takeFirst_count htake g, Nat.add_sub_cancel]

/-- Each time a register is named, one fewer write to it is left pending. -/
theorem Voice.settles_count (order : List OscField) (vc : Voice) (g : OscField) :
    ((order.foldl Voice.settle vc).pending.map OscWrite.field).count g =
      (vc.pending.map OscWrite.field).count g - order.count g := by
  induction order generalizing vc with
  | nil => rfl
  | cons f order ih =>
    rw [List.foldl_cons, ih, Voice.settle_count, List.count_cons, Nat.sub_sub, Nat.add_comm]
    simp only [beq_iff_eq, eq_comm (a := f)]

/-- Naming registers in any order keeps the visibility law and changes the visible registers and the pending writes
only. -/
theorem Voice.settles_oscOk (order : List OscField) {vc : Voice} (h : vc.oscOk) :
    (order.foldl Voice.settle vc).oscOk ∧
      ∃ sh ws, order.foldl Voice.settle vc = { vc with shown := sh, pending := ws } := by
  induction order generalizing vc with
  | nil => exact ⟨h, vc.shown, vc.pending, rfl⟩
  | cons f order ih =>
    obtain ⟨hok, sh, ws, e⟩ := Voice.settle_oscOk f h
    obtain ⟨hrest, sh', ws', e'⟩ := ih hok
    exact ⟨hrest, sh', ws', by rw [List.foldl_cons, e', e]⟩

/-- Where the visibility law holds and no write is pending, the sample domain reads what the tick domain wrote. -/
theorem Voice.oscOk.shown_eq {vc : Voice} (h : vc.oscOk) (hnone : vc.pending = []) : vc.shown = vc.registers := by
  unfold Voice.oscOk at h
  rwa [hnone] at h

/-- When each register is named as often as a write to it is pending, no write is left pending. -/
theorem Voice.settles_pending_nil {order : List OscField} {vc : Voice}
    (h : ∀ f : OscField, (vc.pending.map OscWrite.field).count f ≤ order.count f) :
    (order.foldl Voice.settle vc).pending = [] := by
  refine List.eq_nil_iff_forall_not_mem.mpr fun w hw => ?_
  have hpos := List.count_pos_iff.mpr (List.mem_map_of_mem (f := OscWrite.field) hw)
  rw [Voice.settles_count, Nat.sub_eq_zero_of_le (h w.field)] at hpos
  exact absurd hpos (Nat.lt_irrefl 0)

/-- Settles O46, by `run_settles` and the laws of the fold it leaves. -/
theorem anyWriteOrderEndsAlike : Obligations.AnyWriteOrderEndsAlike := by
  intro s v vc order rest he hi hv hosc
  obtain ⟨hok, sh, ws, e⟩ := Voice.settles_oscOk order hosc
  have hnil := Voice.settles_pending_nil (order := order) (vc := vc)
  have hrun := run_settles he hi hv
  rw [e] at hok hnil hrun
  exact ⟨sh, ws, hrun, hok.shown_eq, hnil⟩

/-! ### The read-only memories -/

/-- Applying a pending write while nothing is due leaves the read-only memories. -/
@[simp] theorem idle_rom (s : State) : (idle s).rom = s.rom := by
  unfold idle; split <;> rfl

/-- A TickEvent that begins or waits leaves the read-only memories. -/
@[simp] theorem serveTick_rom (s : State) (rest : List Input) : (serveTick s rest).rom = s.rom := by
  unfold serveTick; split <;> rfl

/-- Applying a pending write leaves the read-only memories. -/
@[simp] theorem serveSettle_rom (s : State) (rest : List Input) (v : Nat) (f : OscField) :
    (serveSettle s rest v f).rom = s.rom := by
  unfold serveSettle; split <;> rfl

/-- A sample leaves the read-only memories. -/
theorem serveSample_rom {s t : State} {rest : List Input} {v : Nat} (h : serveSample s rest v = .next t) :
    t.rom = s.rom := by
  unfold serveSample at h
  split at h <;> cases h
  rfl

/-- An Init, served or put off, leaves the read-only memories. -/
theorem serveInit_rom {s t : State} {rest : List Input} {v : Nat} {stream : List Byte} {len : Word}
    (h : serveInit s rest v stream len = .next t) : t.rom = s.rom := by
  unfold serveInit at h
  split at h
  · cases h
  · split at h
    · cases h
    · split at h <;> cases h <;> rfl

/-- Of the events from outside only a load can change the read-only memories (20_memory.md R93). -/
theorem serve_rom {s t : State} (h : serve s = .next t)
    (hload : ∀ ft am seqs, s.inputs.head? ≠ some (.load ft am seqs)) : t.rom = s.rom := by
  unfold serve at h
  split at h
  · cases h; exact idle_rom s
  · cases h; exact serveTick_rom s _
  · exact serveInit_rom h
  · exact serveSample_rom h
  · cases h; exact serveSettle_rom s _ _ _
  · next ft am seqs rest hi => exact absurd (by rw [hi]; rfl) (hload ft am seqs)

/-- A step that serves no load leaves the read-only memories (20_memory.md R81). -/
theorem step_rom {s t : State} (h : step s = .next t)
    (hload : s.engine = .between [] → ∀ ft am seqs, s.inputs.head? ≠ some (.load ft am seqs)) : t.rom = s.rom := by
  obtain ⟨-, -, e | ⟨he, -⟩⟩ := step_rest h
  · exact e
  · rw [step_serve he] at h
    exact serve_rom h (hload he)

/-! ### The streams -/

/-- `t` has the voices of `s`, each with its stream. -/
def State.SameStreams (s t : State) : Prop :=
  t.voices.length = s.voices.length ∧
    ∀ (v : Nat) (vc : Voice), s.voices[v]? = some vc → ∃ vc' : Voice, t.voices[v]? = some vc' ∧ vc'.stream = vc.stream

/-- With the same streams every read of a stream gives the same byte. -/
theorem State.SameStreams.streamByte_eq {s t : State} (h : s.SameStreams t) (v a : Nat) :
    t.streamByte v a = s.streamByte v a := by
  obtain ⟨hlen, hstream⟩ := h
  unfold State.streamByte
  cases hv : s.voices[v]? with
  | none =>
    have hnone : t.voices[v]? = none := by
      rw [List.getElem?_eq_none_iff] at hv ⊢
      omega
    rw [hnone]
  | some vc =>
    obtain ⟨vc', hv', e⟩ := hstream v vc hv
    simp only [hv', e]

/-- An instruction changes no stream and leaves the read-only memories. -/
theorem exec_sameMemory {i : Instr} {s t : State} (h : exec i s = .next t) : s.SameStreams t ∧ t.rom = s.rom := by
  obtain ⟨p, old, new, -, hold, ht, -, hstream, -⟩ := exec_frame h
  rw [ht]
  refine ⟨⟨List.length_set, fun v vc hv => ?_⟩, rfl⟩
  obtain ⟨vc', hv', rfl | ⟨-, rfl, rfl⟩⟩ := set_voice_cases (new := new) hv hold
  · exact ⟨vc', hv', rfl⟩
  · exact ⟨vc', hv', hstream⟩

/-- Whatever a step does to a voice keeps its stream, but for an Init. -/
theorem VoiceStep.stream_eq {s t : State} {v : Nat} {vc vc' : Voice} (hs : s.voices[v]? = some vc)
    (ht : t.voices[v]? = some vc') (h : VoiceStep s v vc vc' t)
    (hinit : s.engine = .between [] → ∀ v stream len, s.inputs.head? ≠ some (.init v stream len)) :
    vc'.stream = vc.stream := by
  cases h with
  | same h => rw [h]
  | raises p k he hp hf h =>
    subst hp h
    obtain rfl := InPass.set_get ⟨he, hs⟩ ht
    rfl
  | runs p i he hp hf h =>
    obtain ⟨w, hw, e⟩ := (exec_sameMemory h).1.2 v vc hs
    rw [ht] at hw
    cases hw
    exact e
  | ticks todo he hf h =>
    obtain ⟨-, -, -, -, e, -⟩ := Rom.tickFront_frame hf (.inl rfl)
    exact e
  | fetches todo he hf h =>
    obtain ⟨-, -, -, -, e, -⟩ := Rom.tickFront_frame hf (.inr rfl)
    exact e
  | oldest w rest he hp h => rw [h]
  | settles f rest he hi h =>
    obtain ⟨sh, ws, e, -⟩ := vc.settle_frame f
    rw [h, e]
  | samples rest he hi h => rw [h]; rfl
  | inits stream len rest he hi => exact absurd (by rw [hi]; rfl) (hinit he v stream len)

/-- A step that serves no Init changes no stream (20_memory.md R81). -/
theorem step_sameStreams {s t : State} (h : step s = .next t)
    (hinit : s.engine = .between [] → ∀ v stream len, s.inputs.head? ≠ some (.init v stream len)) :
    s.SameStreams t := by
  refine ⟨(step_rest h).2.1, fun v vc hv => ?_⟩
  obtain ⟨vc', hv', hstep⟩ := step_voice hv h
  exact ⟨vc', hv', hstep.stream_eq hv hv' hinit⟩

/-- Settles O54. -/
theorem memoryIsNeverWritten : Obligations.MemoryIsNeverWritten := by
  intro i s t h
  have hsame : s.SameStreams t ∧ t.rom = s.rom := by
    rcases h with h | ⟨h, hserved⟩
    · exact exec_sameMemory h
    · exact ⟨step_sameStreams h fun he => (hserved he).1, step_rom h fun he => (hserved he).2⟩
  obtain ⟨hstreams, hrom⟩ := hsame
  exact ⟨hstreams.streamByte_eq, fun k j => by rw [hrom], fun a => by rw [hrom], hrom⟩

end Sys2Proof.Machine
end

section
/-! SUPPORT. Decoding undoes encoding and is undone by it, the first byte of an instruction fixes its length, and the
illegal first bytes are the listed ones; settles O1 to O5. -/

namespace Sys2Proof

/-! ### Which decoder a first byte goes to -/

/-- A byte below 0x80 other than 0x00 is decoded as a note byte (30_encoding.md R113). -/
theorem decode_note {b : Byte} (o : WideOrder) (bs : List Byte) (h0 : b ≠ 0) (hb : b.toNat < 0x80) :
    decode o (b :: bs) = decodeNote o b bs := by
  rw [decode, if_neg h0, if_pos hb]

/-- A byte from 0x80 up is not 0x00. -/
theorem ne_zero_of_control {b : Byte} (hb : ¬ b.toNat < 0x80) : b ≠ 0 := by
  rintro rfl
  exact hb (by decide)

/-- A byte from 0x80 up is decoded as a control opcode (30_encoding.md R114). -/
theorem decode_control {b : Byte} (o : WideOrder) (bs : List Byte) (hb : ¬ b.toNat < 0x80) :
    decode o (b :: bs) = decodeControl o b bs := by
  rw [decode, if_neg (ne_zero_of_control hb), if_neg hb]

/-! ### Note bytes -/

/-- The operands of a NOTE or REST are read back from the bytes after its note byte. -/
theorem takeNoteArgs_operandBytes {n : Nat} {a : NoteArgs} (o : WideOrder) (rest : List Byte) (h1 : 1 ≤ n) (h2 : n ≤ 13)
    (h : a.wf = true) :
    takeNoteArgs o (noteByte n a) (operandBytes o a.wide a.dur ++ operandBytes o a.wide a.quant ++ rest) =
      some (a, rest) := by
  obtain ⟨-, -, -, hw, hd, hq⟩ := noteByte_fields n a h1 h2
  obtain ⟨hdur, hquant⟩ := Bool.and_eq_true_iff.mp h
  simp only [takeNoteArgs, hw, hd, hq, List.append_assoc, takeOperand_operandBytes _ _ _ _ hdur,
    takeOperand_operandBytes _ _ _ _ hquant]

/-- The operands read after a note byte fit the width its W flag gives them. -/
theorem takeNoteArgs_wf {o : WideOrder} {b : Byte} {bs rest : List Byte} {a : NoteArgs}
    (h : takeNoteArgs o b bs = some (a, rest)) : a.wf = true := by
  unfold takeNoteArgs at h
  split at h
  · cases h
  · next d bs1 hd =>
    split at h
    · cases h
    · next q bs2 hq =>
      cases h
      obtain ⟨-, hdur, -⟩ := takeOperand_some hd
      obtain ⟨-, hquant, -⟩ := takeOperand_some hq
      exact Bool.and_eq_true_iff.mpr ⟨hdur, hquant⟩

/-- A note byte decodes to the NOTE or REST of its pitch-class field with the operands read after it. -/
theorem decodeNote_eq_ok_iff {o : WideOrder} {b : Byte} {bs rest : List Byte} {i : Instr} :
    decodeNote o b bs = .ok (i, rest) ↔
      ∃ a, takeNoteArgs o b bs = some (a, rest) ∧ noteOf (noteField b) a = some i := by
  constructor
  · intro h
    unfold decodeNote at h
    split at h
    · split at h
      · cases h
      · next a bs' ha =>
        split at h
        · cases h
        · next hi => cases h; exact ⟨a, ha, hi⟩
    · cases h
  · rintro ⟨a, ha, hi⟩
    obtain ⟨h1, h2, -⟩ := encode_noteOf o hi
    simp only [decodeNote, if_pos (And.intro h1 h2), ha, hi]

/-- A note byte is refused as unknown exactly when no NOTE or REST has its pitch-class field (30_encoding.md R119). -/
theorem decodeNote_unknown_iff {o : WideOrder} {b : Byte} {bs : List Byte} :
    decodeNote o b bs = .error (.unknownOpcode b) ↔ ¬(1 ≤ noteField b ∧ noteField b ≤ 13) := by
  unfold decodeNote
  split
  · next hn =>
    refine iff_of_false ?_ (not_not_intro hn)
    split
    · nofun
    · next a rest ha =>
      obtain ⟨i, hi⟩ := noteOf_isSome a hn.1 hn.2
      rw [hi]
      nofun
  · next hn => exact iff_of_true rfl hn

/-! ### Control opcodes -/

/-- A missing operand byte is not an unknown opcode (30_encoding.md R118). -/
theorem take1_ne_unknown (b c : Byte) (f : Byte → Instr) (bs : List Byte) :
    take1 b f bs ≠ .error (.unknownOpcode c) := by
  cases bs <;> nofun

/-- Two operand bytes not all there are not an unknown opcode (30_encoding.md R118). -/
theorem take2_ne_unknown (b c : Byte) (f : Byte → Byte → Instr) (bs : List Byte) :
    take2 b f bs ≠ .error (.unknownOpcode c) := by
  unfold take2
  split <;> nofun

/-- A byte from 0x80 up is refused as unknown exactly from 0x95 up (30_encoding.md R119). -/
theorem decodeControl_unknown_iff {o : WideOrder} {b : Byte} {bs : List Byte} (hb : ¬ b.toNat < 0x80) :
    decodeControl o b bs = .error (.unknownOpcode b) ↔ 0x95 ≤ b.toNat := by
  unfold decodeControl
  split
  case h_22 => exact iff_of_true rfl (by grind)
  case h_1 | h_3 | h_9 | h_10 | h_15 | h_16 => exact iff_of_false nofun (by omega)
  case h_5 | h_7 | h_17 => exact iff_of_false (take2_ne_unknown _ _ _ _) (by omega)
  all_goals exact iff_of_false (take1_ne_unknown _ _ _ _) (by omega)

/-! ### Decoding undoes encoding -/

/-- The bytes of a well-formed NOTE or REST decode to it. -/
theorem decode_encode_noteOf {n : Nat} {a : NoteArgs} {i : Instr} (o : WideOrder) (rest : List Byte)
    (h : noteOf n a = some i) (hwf : i.wf = true) : decode o (encode o i ++ rest) = .ok (i, rest) := by
  obtain ⟨h1, h2, hbytes, hargs, -⟩ := encode_noteOf o h
  obtain ⟨h0, hb, hn, -⟩ := noteByte_fields n a h1 h2
  rw [hbytes, noteBytes, List.cons_append, decode_note o _ h0 hb]
  exact decodeNote_eq_ok_iff.mpr ⟨a, takeNoteArgs_operandBytes o rest h1 h2 (hargs ▸ hwf), hn.symm ▸ h⟩

/-- A two-byte operand is read back from its bytes. -/
theorem take2_wideBytes (b : Byte) (f : Word → Instr) (o : WideOrder) (w : Word) (rest : List Byte) :
    take2 b (fun x y => f (assemble o x y)) (wideBytes o w ++ rest) = .ok (f w, rest) := by
  obtain ⟨b0, b1, hbytes, hw⟩ := assemble_of_wideBytes o w
  rw [hbytes, ← hw]
  rfl

/-- An instruction is a NOTE or REST, or it is well-formed and its bytes decode to it. -/
theorem noteOf_or_decode_encode (i : Instr) :
    (∃ n a, noteOf n a = some i) ∨
      i.wf = true ∧ ∀ (o : WideOrder) (rest : List Byte), decode o (encode o i ++ rest) = .ok (i, rest) := by
  cases i with
  | noteC a => exact .inl ⟨1, a, rfl⟩
  | noteCS a => exact .inl ⟨2, a, rfl⟩
  | noteD a => exact .inl ⟨3, a, rfl⟩
  | noteDS a => exact .inl ⟨4, a, rfl⟩
  | noteE a => exact .inl ⟨5, a, rfl⟩
  | noteF a => exact .inl ⟨6, a, rfl⟩
  | noteFS a => exact .inl ⟨7, a, rfl⟩
  | noteG a => exact .inl ⟨8, a, rfl⟩
  | noteGS a => exact .inl ⟨9, a, rfl⟩
  | noteA a => exact .inl ⟨10, a, rfl⟩
  | noteAS a => exact .inl ⟨11, a, rfl⟩
  | noteB a => exact .inl ⟨12, a, rfl⟩
  | rest a => exact .inl ⟨13, a, rfl⟩
  | noteLenW w => exact .inr ⟨rfl, fun o => take2_wideBytes 0x84 .noteLenW o w⟩
  | quantLenW w => exact .inr ⟨rfl, fun o => take2_wideBytes 0x86 .quantLenW o w⟩
  | _ => exact .inr ⟨rfl, fun _ _ => rfl⟩

/-- Settles O1. -/
theorem decodeInvertsEncode : Obligations.DecodeInvertsEncode := by
  intro o i rest hwf
  rcases noteOf_or_decode_encode i with ⟨n, a, hi⟩ | ⟨-, hdecode⟩
  · exact decode_encode_noteOf o rest hi hwf
  · exact hdecode o rest

/-! ### What decodes is well-formed -/

/-- A NOTE or REST that decodes has operands of the width its W flag gives them (30_encoding.md R115). -/
theorem decode_noteOf_wf {n : Nat} {a : NoteArgs} {i : Instr} {o : WideOrder} {bs rest : List Byte}
    (hi : noteOf n a = some i) (h : decode o bs = .ok (i, rest)) : i.wf = true := by
  obtain ⟨h1, h2, hbytes, -⟩ := encode_noteOf o hi
  obtain ⟨h0, hb, -⟩ := noteByte_fields n a h1 h2
  rw [decode_ok h, hbytes, noteBytes, List.cons_append, decode_note o _ h0 hb] at h
  obtain ⟨a', htake, hi'⟩ := decodeNote_eq_ok_iff.mp h
  obtain ⟨-, -, -, hwf, -⟩ := encode_noteOf o hi'
  rw [hwf]
  exact takeNoteArgs_wf htake

/-- Settles O2. -/
theorem encodeInvertsDecode : Obligations.EncodeInvertsDecode := by
  intro o bs i rest h
  refine ⟨?_, decode_ok h⟩
  rcases noteOf_or_decode_encode i with ⟨n, a, hi⟩ | ⟨hwf, -⟩
  · exact decode_noteOf_wf hi h
  · exact hwf

/-! ### The length an instruction's first byte gives -/

/-- Whatever decodes has the length its first byte gives (30_encoding.md R112). -/
theorem decode_length {o : WideOrder} {b : Byte} {bs rest : List Byte} {i : Instr}
    (h : decode o (b :: bs) = .ok (i, rest)) :
    (b :: bs).length = i.length + rest.length ∧ instrLength b = some i.length := by
  obtain ⟨hlen, c, tail, hbytes, hfirst⟩ := Laws.EncodedLength.all i o
  have hb := decode_ok h
  refine ⟨by rw [hb, List.length_append, hlen], ?_⟩
  rw [hbytes, List.cons_append, List.cons.injEq] at hb
  obtain ⟨rfl, -⟩ := hb
  exact hfirst

/-- A byte among listed numbers gives the length that each of them gives. -/
theorem instrLength_of_mem {ns : List Nat} {k : Nat} {b : Byte} (h : ∀ n ∈ ns, instrLength (BitVec.ofNat 8 n) = some k)
    (hb : b.toNat ∈ ns) : instrLength b = some k := by
  simpa using h b.toNat hb

/-- A note byte gives a length exactly when a NOTE or REST has its pitch-class field (30_encoding.md R113). -/
theorem instrLength_note_eq_none_iff {b : Byte} (h0 : b ≠ 0) (hb : b.toNat < 0x80) :
    instrLength b = none ↔ ¬(1 ≤ noteField b ∧ noteField b ≤ 13) := by
  by_cases hn : 1 ≤ noteField b ∧ noteField b ≤ 13
  · rw [instrLength_note h0 hb hn]
    exact iff_of_false nofun (not_not_intro hn)
  · rw [instrLength, if_neg h0, if_pos hb, if_neg hn]
    exact iff_of_true rfl hn

/-- The length a note byte gives is that of its flags (30_encoding.md R112). -/
theorem instrLength_note_some {b : Byte} {n : Nat} (h : instrLength b = some n) (h0 : b ≠ 0) (hb : b.toNat < 0x80) :
    n = 1 + flagLength (flagW b) (flagD b) + flagLength (flagW b) (flagQ b) := by
  have hn : 1 ≤ noteField b ∧ noteField b ≤ 13 := by
    by_contra hn
    rw [(instrLength_note_eq_none_iff h0 hb).mpr hn] at h
    cases h
  rw [instrLength_note h0 hb hn] at h
  exact (Option.some.inj h).symm

/-- A byte from 0x80 up gives no length exactly from 0x95 up (30_encoding.md R119). -/
theorem instrLength_control_eq_none_iff {b : Byte} (hb : ¬ b.toNat < 0x80) : instrLength b = none ↔ 0x95 ≤ b.toNat := by
  rw [instrLength, if_neg (ne_zero_of_control hb), if_neg hb]
  split
  case h_22 => exact iff_of_true rfl (by grind)
  all_goals exact iff_of_false nofun (by omega)

/-! ### The illegal first bytes -/

/-- The listed first bytes: a note byte with low nibble 0, 14 or 15, or a byte from 0x95 up (30_encoding.md R119). -/
def IllegalFirst (b : Byte) : Prop := (b.toNat < 0x80 ∧ b ≠ 0 ∧ b.toNat % 16 ∈ [0, 14, 15]) ∨ 0x95 ≤ b.toNat

/-- 0x00 is legal. -/
theorem not_illegalFirst_zero : ¬ IllegalFirst 0 := by
  unfold IllegalFirst; decide

/-- A note byte is illegal exactly when no NOTE or REST has its pitch-class field. -/
theorem illegalFirst_note {b : Byte} (h0 : b ≠ 0) (hb : b.toNat < 0x80) :
    IllegalFirst b ↔ ¬(1 ≤ noteField b ∧ noteField b ≤ 13) := by
  simp only [IllegalFirst, noteField, h0, hb, ne_eq, not_false_eq_true, true_and, List.mem_cons, List.not_mem_nil,
    or_false]
  omega

/-- A byte from 0x80 up is illegal exactly from 0x95 up. -/
theorem illegalFirst_control {b : Byte} (hb : ¬ b.toNat < 0x80) : IllegalFirst b ↔ 0x95 ≤ b.toNat := by
  simp only [IllegalFirst, hb, false_and, false_or]

/-- Decoding refuses a first byte as unknown exactly when it is illegal. -/
theorem decode_unknown_iff (o : WideOrder) (b : Byte) (bs : List Byte) :
    decode o (b :: bs) = .error (.unknownOpcode b) ↔ IllegalFirst b := by
  by_cases h0 : b = 0
  · subst h0
    exact iff_of_false nofun not_illegalFirst_zero
  · by_cases hb : b.toNat < 0x80
    · rw [decode_note o bs h0 hb, decodeNote_unknown_iff, illegalFirst_note h0 hb]
    · rw [decode_control o bs hb, decodeControl_unknown_iff hb, illegalFirst_control hb]

/-- A first byte gives no length exactly when it is illegal. -/
theorem instrLength_eq_none_iff (b : Byte) : instrLength b = none ↔ IllegalFirst b := by
  by_cases h0 : b = 0
  · subst h0
    exact iff_of_false nofun not_illegalFirst_zero
  · by_cases hb : b.toNat < 0x80
    · rw [instrLength_note_eq_none_iff h0 hb, illegalFirst_note h0 hb]
    · rw [instrLength_control_eq_none_iff hb, illegalFirst_control hb]

/-- Of the illegal first bytes 23 are below 0x80. -/
theorem illegalNoteBytes_count :
    ((List.range 128).filter fun n => (instrLength (BitVec.ofNat 8 n)).isNone).length = 23 := by decide

/-- Of the illegal first bytes 107 are from 0x80 up. -/
theorem illegalControlBytes_count :
    ((List.range 128).filter fun n => (instrLength (BitVec.ofNat 8 (128 + n))).isNone).length = 107 := by decide

/-- There are 130 illegal first bytes (30_encoding.md R119). -/
theorem illegalBytes_count :
    ((List.range 256).filter fun n => (instrLength (BitVec.ofNat 8 n)).isNone).length = 130 := by
  rw [show 256 = 128 + 128 from rfl, List.range_add, List.filter_append, List.length_append, List.filter_map,
    List.length_map, Function.comp_def, illegalNoteBytes_count, illegalControlBytes_count]
/-- Settles O4. -/
theorem illegalFirstBytes : Obligations.IllegalFirstBytes :=
  ⟨fun o b bs => ⟨decode_unknown_iff o b bs, instrLength_eq_none_iff b⟩, illegalBytes_count⟩

/-- Settles O5. -/
theorem writtenOutWordsDecode : Obligations.WrittenOutWordsDecode :=
  ⟨⟨rfl, rfl, rfl, rfl, rfl, rfl, rfl⟩, ⟨rfl, rfl, rfl, rfl, rfl⟩, ⟨rfl, rfl, rfl, rfl, rfl, rfl⟩,
    ⟨rfl, rfl, rfl, rfl, rfl, rfl, rfl⟩⟩

end Sys2Proof

namespace Sys2Proof.Machine

/-! ### A W flag without an operand -/

/-- A NOTE without operands plays alike with and without the W flag. -/
theorem playNote_wide (semi : Fin 12) (s : State) :
    playNote semi ⟨true, none, none⟩ s = playNote semi ⟨false, none, none⟩ s := rfl

/-- A NOTE or REST without operands executes alike with and without the W flag (30_encoding.md R112). -/
theorem exec_wide {n : Nat} {i j : Instr} (hi : noteOf n ⟨true, none, none⟩ = some i)
    (hj : noteOf n ⟨false, none, none⟩ = some j) (s : State) : exec i s = exec j s := by
  obtain ⟨-, hle, -⟩ := encode_noteOf .le hi
  rcases Nat.lt_or_eq_of_le hle with hn | rfl
  · obtain ⟨semi, hsemi, hplay⟩ := exec_noteOf (by omega) hi
    obtain ⟨semi', hsemi', hplay'⟩ := exec_noteOf (by omega) hj
    obtain rfl : semi = semi' := Fin.ext (by omega)
    rw [hplay, hplay', playNote_wide]
  · cases hi
    cases hj
    rfl

/-- Settles O3. -/
theorem firstByteFixesLength : Obligations.FirstByteFixesLength := by
  refine ⟨fun o b bs i rest h => ?_, fun n i j s hi hj => exec_wide hi hj s⟩
  obtain ⟨htotal, hlen⟩ := decode_length h
  have agrees : ∀ {n : Nat}, instrLength b = some n → i.length = n := fun hn => Option.some.inj (hlen.symm.trans hn)
  refine ⟨i.length, htotal, hlen, fun hb => ?_, fun hb => ?_, fun hb => ?_,
    fun hb h0 => instrLength_note_some hlen h0 hb⟩
  all_goals exact agrees (instrLength_of_mem (by decide) hb)

end Sys2Proof.Machine
end

section
/-! SUPPORT. What a voice's fetch answers, from the bytes at its cursor; settles O6 and O7. -/

namespace Sys2Proof.Machine

/-- A whole instruction at the cursor, within the declared length, is fetched (40_interpreter_tick.md R155). -/
theorem Voice.fetch_eq_instr {o : WideOrder} {vc : Voice} {m : Memory} {i : Instr} (hm : vc.stream = some m)
    (hwf : i.wf = true) (hlen : vc.cursor.toNat + (encode o i).length ≤ vc.len.toNat)
    (hbytes : ∀ (j : Nat) (b : Byte), (encode o i)[j]? = some b → m.read (vc.cursor.toNat + j) = b) :
    vc.fetch o = .instr i := by
  obtain ⟨hcount, b, rest, he, hfirst⟩ := Laws.EncodedLength.all i o
  have hmany := m.readMany_eq vc.cursor.toNat _ hbytes
  have hdecode := decodeInvertsEncode o i [] hwf
  rw [List.append_nil] at hdecode
  rw [hcount] at hlen hmany
  have hread : m.read vc.cursor.toNat = b := hbytes 0 b (by rw [he]; rfl)
  have hpos := (instrLength_bounds hfirst).1
  simp only [Voice.fetch, hm, hread, hfirst, hmany, hdecode, if_neg (show ¬ vc.len.toNat ≤ vc.cursor.toNat by omega),
    if_neg (show ¬ vc.len.toNat < vc.cursor.toNat + i.length by omega)]

/-- Check 1: no byte is left (60_exceptions.md R324). -/
theorem Voice.fetch_atEnd {vc : Voice} {m : Memory} (o : WideOrder) (hm : vc.stream = some m)
    (h : vc.len.toNat ≤ vc.cursor.toNat) : vc.fetch o = .raises .streamBoundsExceeded := by
  simp only [Voice.fetch, hm, if_pos h]

/-- Check 2: the first byte is illegal (60_exceptions.md R324). -/
theorem Voice.fetch_illegal {vc : Voice} {m : Memory} (o : WideOrder) (hm : vc.stream = some m)
    (h : vc.cursor.toNat < vc.len.toNat) (hb : instrLength (m.read vc.cursor.toNat) = none) :
    vc.fetch o = .raises .unknownOpcode := by
  simp only [Voice.fetch, hm, if_neg (Nat.not_le_of_lt h), hb]

/-- Check 3: the instruction would run past the declared length (60_exceptions.md R324). -/
theorem Voice.fetch_tooLong {vc : Voice} {m : Memory} {n : Nat} (o : WideOrder) (hm : vc.stream = some m)
    (h : vc.cursor.toNat < vc.len.toNat) (hb : instrLength (m.read vc.cursor.toNat) = some n)
    (hn : vc.len.toNat < vc.cursor.toNat + n) : vc.fetch o = .raises .streamBoundsExceeded := by
  simp only [Voice.fetch, hm, if_neg (Nat.not_le_of_lt h), hb, if_pos hn]

/-- A step of a decode pass that fetches an instruction is its execution. -/
theorem step_of_instr {s : State} {p : Pass} {vc : Voice} {i : Instr} (hp : InPass s p vc)
    (hf : vc.fetch s.deploy.wideOrder = .instr i) : step s = exec i s := by
  rw [step_pass hp.1, passStep, onPass_inPass hp, hf]

/-- A step of a decode pass whose fetch fails ends the voice's tick with what an error writes. -/
theorem step_of_raises {s : State} {p : Pass} {vc : Voice} {k : ErrKind} (hp : InPass s p vc)
    (hf : vc.fetch s.deploy.wideOrder = .raises k) : step s = .next (s.ticked p (vc.stopped k)) := by
  rw [step_pass hp.1, passStep, onPass_inPass hp, hf]
  rfl

/-- Settles O6. -/
theorem stepRunsDecodedInstruction : Obligations.StepRunsDecodedInstruction := by
  intro s p vc m i hp hm hwf hlen hbytes
  exact step_of_instr hp (Voice.fetch_eq_instr hm hwf hlen hbytes)

/-- Settles O7. -/
theorem fetchChecksInOrder : Obligations.FetchChecksInOrder := by
  intro s p vc m hp hm
  refine ⟨fun h => ?_, fun h hb => ?_, fun h n hb hn => ?_⟩
  · exact step_of_raises hp (Voice.fetch_atEnd _ hm h)
  · exact step_of_raises hp (Voice.fetch_illegal _ hm h hb)
  · exact step_of_raises hp (Voice.fetch_tooLong _ hm h hb hn)

end Sys2Proof.Machine
end

section
/-! SUPPORT. Steps 1 to 3 of a voice's tick and the start of a TickEvent; settles O22, O32, O33, O34 and O36. -/

namespace Sys2Proof.Machine

/-! ### Control opcodes -/

/-- Settles O22: an instruction after which the pass goes on writes registers, the cursor and the frames, or selects an
envelope. -/
theorem controlOpcodesAreSilent : Obligations.ControlOpcodesAreSilent := by
  intro i s t p q vc vc' _ hp h hq hv
  rcases exec_voice hp h hv with
    ⟨-, _, _, _, _, _, _, _, _, _, _, _, _, _, _, rfl⟩ | ⟨-, c, k, -, rfl⟩ | ⟨e, -⟩ | ⟨e, -⟩ | ⟨e, -⟩ | ⟨e, -⟩
  · exact ⟨rfl, rfl, rfl⟩
  · exact ⟨rfl, rfl, rfl⟩
  all_goals rw [hq] at e; cases e

/-! ### Quantization -/

/-- A counter above 0 is decremented without wrapping. -/
theorem toNat_pred {q : Word} (h : 1 ≤ q.toNat) : (q - 1).toNat = q.toNat - 1 := by bv_omega

/-- The release event reaches each class's envelope. -/
theorem Rom.releaseAll_get (r : Rom) (es : Envs) (c : EnvClass) :
    (r.releaseAll es).get c = r.releaseSelected (es.get c) := by cases c <;> rfl

/-- With the counter at 0 quantization does nothing (40_interpreter_tick.md R152). -/
theorem Rom.quantize_zero {vc : Voice} (r : Rom) (h : vc.qlenC.toNat = 0) : r.quantize vc = vc := by
  rw [Rom.quantize, if_pos h]

/-- With the counter above 1 quantization counts down (40_interpreter_tick.md R152). -/
theorem Rom.quantize_counts {vc : Voice} (r : Rom) (h : 2 ≤ vc.qlenC.toNat) :
    r.quantize vc = { vc with qlenC := vc.qlenC - 1 } := by
  rw [Rom.quantize, if_neg (by omega), if_neg (by omega)]

/-- With the counter at 1 quantization closes the gate and releases the envelopes of a playing voice
(40_interpreter_tick.md R152). -/
theorem Rom.quantize_closes {vc : Voice} (r : Rom) (h : vc.qlenC.toNat = 1) :
    r.quantize vc =
      { vc with
        qlenC := 0, gate := false, pending := vc.pending ++ [.gate false],
        env := if vc.playing then r.releaseAll vc.env else vc.env } := by
  rw [Rom.quantize, if_neg (by omega), if_pos h]
  cases vc.playing <;> simp [Voice.writeGate]

/-- Settles O33. -/
theorem quantizationCountdown : Obligations.QuantizationCountdown := by
  intro r vc
  refine ⟨r.quantize_zero, fun h => ⟨_, toNat_pred (by omega), r.quantize_counts h⟩,
    fun h => ⟨_, fun c => ?_, r.quantize_closes h⟩⟩
  cases vc.playing
  · simp
  · simp [Rom.releaseAll_get, Rom.releaseSelected]

/-! ### Sustain ticks and the start of a decode pass -/

/-- Stepping the selected instances of sound envelopes answers. -/
theorem Rom.each_stepSelected_ok {r : Rom} {es : Envs} (h : r.envsOk es) : ∃ es', es.each r.stepSelected = .ok es' := by
  refine Envs.each_ok fun c => ?_
  unfold Rom.stepSelected
  split
  · next hs =>
    obtain ⟨hv, hp⟩ := (Rom.envsOk_iff.mp h c).1 hs
    obtain ⟨e', he, -⟩ := Rom.envStep_ok hv hp
    exact ⟨e', he⟩
  · exact ⟨_, rfl⟩

/-- Stepping the selected instances steps each selected one and leaves the others. -/
theorem Rom.each_stepSelected_get {r : Rom} {es es' : Envs} (h : es.each r.stepSelected = .ok es') (c : EnvClass) :
    if (es.get c).sel then r.envStep (es.get c) = .ok (es'.get c) else es'.get c = es.get c := by
  have hc := Envs.each_get h c
  unfold Rom.stepSelected at hc
  split at hc
  · next hs => rwa [if_pos hs]
  · next hs => rw [if_neg hs, Except.ok.inj hc]

/-- A sustain tick of a voice whose envelopes are sound while it plays answers. -/
theorem Rom.sustain_ok {r : Rom} {vc : Voice} (h : vc.playing = true → r.envsOk vc.env) : ∃ w, r.sustain vc = .ok w := by
  unfold Rom.sustain
  split
  · next hp =>
    obtain ⟨es, hes⟩ := Rom.each_stepSelected_ok (h hp)
    exact ⟨_, by rw [hes]⟩
  · exact ⟨vc, rfl⟩

/-- Steps 1 to 3 of a tick answer, where a sustain tick of a playing voice finds sound envelopes. -/
theorem Rom.tickFront_ok {r : Rom} {vc : Voice}
    (h : 2 ≤ (r.quantize vc).nlenC.toNat → (r.quantize vc).playing = true → r.envsOk (r.quantize vc).env) :
    ∃ f, r.tickFront vc = .ok f := by
  unfold Rom.tickFront
  split
  · exact ⟨_, rfl⟩
  · dsimp only
    split
    · exact ⟨_, rfl⟩
    · next h0 =>
      split
      · exact ⟨_, rfl⟩
      · next h1 =>
        rw [toNat_pred (by omega)] at h1
        obtain ⟨w, hw⟩ := Rom.sustain_ok (r := r)
          (vc := { r.quantize vc with nlenC := (r.quantize vc).nlenC - 1 }) (h (by omega))
        exact ⟨_, by rw [hw]⟩

/-- A tick that is over leaves its record, and the engine goes to the next voice. -/
theorem startTick_over {s : State} {v : Nat} {vc vc' : Voice} (todo : List Nat) (hv : s.voices[v]? = some vc)
    (h : s.rom.tickFront vc = .ok (.over vc')) :
    startTick s v todo = .next { s.setVoice v vc' with engine := .between todo } := by
  simp only [startTick, hv, h]

/-- A tick that comes to step 4 starts a decode pass (40_interpreter_tick.md R154). -/
theorem startTick_fetches {s : State} {v : Nat} {vc vc' : Voice} (todo : List Nat) (hv : s.voices[v]? = some vc)
    (h : s.rom.tickFront vc = .ok (.fetches vc')) :
    startTick s v todo =
      .next { s.setVoice v vc' with engine := .pass { voice := v, restarted := false, todo := todo } } := by
  simp only [startTick, hv, h]

/-- The result of a tick of a voice that is not finished is active. -/
theorem Voice.tickOver_of_active {vc : Voice} (h : vc.finished = false) :
    vc.tickOver = { vc with result := { active := true, error := none } } := by
  simp only [Voice.tickOver, h, Bool.not_false]

/-- Settles O32. -/
theorem finishedVoiceIdles : Obligations.FinishedVoiceIdles := by
  intro s v todo vc he hv hfin
  have hfront : s.rom.tickFront vc = .ok (.over vc.tickOver) := by rw [Rom.tickFront, if_pos hfin]
  rw [step_tick he, startTick_over todo hv hfront, Voice.tickOver, hfin]
  rfl

section
variable {s : State} {v : Nat} {todo : List Nat} {vc : Voice} (he : s.engine = .between (v :: todo))
  (hv : s.voices[v]? = some vc) (hfin : vc.finished = false)
include he hv hfin

/-- After quantization a note counter of at most 1 starts a decode pass (40_interpreter_tick.md R153, R154). -/
theorem step_starts_pass (hn : (s.rom.quantize vc).nlenC.toNat ≤ 1) :
    step s = .next
      { s.setVoice v { s.rom.quantize vc with nlenC := 0 } with
        engine := .pass { voice := v, restarted := false, todo := todo } } := by
  obtain ⟨f, hf⟩ := Rom.tickFront_ok (r := s.rom) (vc := vc) (by omega)
  rw [step_tick he]
  rcases Rom.tickFront_cases hf with ⟨hc, -⟩ | ⟨-, -, rfl⟩ | ⟨-, hc, -⟩ | ⟨-, hc, -⟩
  · rw [hfin] at hc; cases hc
  · exact startTick_fetches todo hv hf
  · omega
  · omega

/-- A sustain tick of a voice that is not playing counts the note down (40_interpreter_tick.md R153). -/
theorem step_waits (hn : 2 ≤ (s.rom.quantize vc).nlenC.toNat) (hplay : (s.rom.quantize vc).playing = false) :
    step s = .next
      { s.setVoice v
          { s.rom.quantize vc with
            nlenC := (s.rom.quantize vc).nlenC - 1, result := { active := true, error := none } } with
        engine := .between todo } := by
  obtain ⟨f, hf⟩ := Rom.tickFront_ok (r := s.rom) (vc := vc) fun _ hc => by rw [hplay] at hc; cases hc
  rw [step_tick he]
  rcases Rom.tickFront_cases hf with ⟨hc, -⟩ | ⟨-, hc, -⟩ | ⟨-, -, -, rfl⟩ | ⟨-, -, hc, -⟩
  · rw [hfin] at hc; cases hc
  · omega
  · rw [startTick_over todo hv hf, Voice.tickOver_of_active (by simpa using hfin)]
  · rw [hplay] at hc; cases hc

/-- A sustain tick of a playing voice steps its envelopes and its sweep and publishes while the gate is on
(40_interpreter_tick.md R153). -/
theorem step_sustains (hn : 2 ≤ (s.rom.quantize vc).nlenC.toNat) (hplay : (s.rom.quantize vc).playing = true)
    (henv : s.rom.envsOk (s.rom.quantize vc).env) :
    ∃ es, (s.rom.quantize vc).env.each s.rom.stepSelected = .ok es ∧
      step s = .next
        { s.setVoice v
            { s.rom.sustained ((s.rom.quantize vc).nlenC - 1) es (s.rom.quantize vc) with
              result := { active := true, error := none } } with
          engine := .between todo } := by
  obtain ⟨f, hf⟩ := Rom.tickFront_ok (r := s.rom) (vc := vc) fun _ _ => henv
  rw [step_tick he]
  rcases Rom.tickFront_cases hf with ⟨hc, -⟩ | ⟨-, hc, -⟩ | ⟨-, -, hc, -⟩ | ⟨-, -, -, es, w, hes, rfl, rfl⟩
  · rw [hfin] at hc; cases hc
  · omega
  · rw [hplay] at hc; cases hc
  · obtain ⟨-, hactive, -⟩ := s.rom.sustained_frame ((s.rom.quantize vc).nlenC - 1) es (s.rom.quantize vc)
    rw [Rom.quantize_finished, hfin] at hactive
    refine ⟨es, hes, ?_⟩
    rw [← Voice.tickOver_of_active hactive]
    exact startTick_over todo hv hf

end

/-- A sustain tick publishes exactly if the gate is on before it. -/
theorem Rom.sustained_eq (r : Rom) (n : Word) (es : Envs) (vc : Voice) :
    r.sustained n es vc = if vc.gate then r.publish (vc.swept n es) else vc.swept n es := by
  rcases r.sustained_cases n es vc with ⟨hg, h⟩ | ⟨hg, h⟩ <;> rw [h, hg] <;> rfl

/-- Settles O34. -/
theorem tickSustainsOrDecodes : Obligations.TickSustainsOrDecodes := by
  intro s v todo vc q he hv hfin hq
  subst hq
  refine ⟨step_starts_pass he hv hfin, fun hn hplay => ⟨_, toNat_pred (by omega), step_waits he hv hfin hn hplay⟩,
    fun hn hplay henv => ?_⟩
  obtain ⟨es, hes, hstep⟩ := step_sustains he hv hfin hn hplay henv
  rw [Rom.sustained_eq] at hstep
  exact ⟨_, es, _, toNat_pred (by omega), Rom.each_stepSelected_get hes, rfl, hstep⟩

/-! ### The start of a TickEvent -/

/-- Settles O36, by what `settleSome` finds. -/
theorem tickEventWaitsThenRunsEveryVoice : Obligations.TickEventWaitsThenRunsEveryVoice := by
  intro s rest he hi
  have hserve : step s = .next (serveTick s rest) := by rw [step_serve he, serve, hi]
  rw [hserve, serveTick]
  refine ⟨fun hnone => by rw [settleSome_none.mpr hnone], fun ⟨x, hx, hpend⟩ => ?_⟩
  cases hs : settleSome s.voices with
  | none => exact absurd (settleSome_none.mp hs x hx) hpend
  | some vs =>
    obtain ⟨v, vc, w, ws, hv, hw, rfl⟩ := settleSome_some hs
    exact ⟨v, vc, w, ws, hv, hw, rfl⟩

end Sys2Proof.Machine
end

section
/-! SUPPORT. NoteFreq and Publish as integers; settles O41 and O42. -/

namespace Sys2Proof.Machine

/-- NoteFreq of a note number by its octave and pitch class (40_interpreter_tick.md R162). -/
theorem Rom.noteFreq_eq (r : Rom) (o : Int) (semi : Fin 12) :
    r.noteFreq (12 * o + (semi.val : Int)) =
      if o ≤ 7 then r.freqTable[semi].toNat / 2 ^ (7 - o).toNat
      else min (r.freqTable[semi].toNat * 2 ^ (o - 7).toNat) 65535 := by
  have hclass : (12 * o + (semi.val : Int)) % 12 = semi.val := by omega
  have hoctave : (12 * o + (semi.val : Int)) / 12 = o := by omega
  simp only [Rom.noteFreq, hclass, hoctave, Int.toNat_natCast, Nat.shiftRight_eq_div_pow, Nat.shiftLeft_eq]
  rfl

/-- Settles O41. -/
theorem noteFreqByOctave : Obligations.NoteFreqByOctave := by
  intro r o semi
  refine ⟨fun h => ?_, fun h => ?_⟩
  · rw [r.noteFreq_eq, if_pos h]
  · rw [r.noteFreq_eq, if_neg (by omega)]

/-- The amplitude Publish writes is the table's entry for the effective volume. -/
theorem Rom.ampTable_effVolume (r : Rom) (vc : Voice) : r.ampTable[vc.effVolume.toNat]? = some (r.pubAmp vc) :=
  Vector.getElem?_eq_getElem _

/-- Publish is three register writes and nothing else (40_interpreter_tick.md R160). -/
theorem Rom.publish_eq (r : Rom) (vc : Voice) :
    r.publish vc =
      { vc with
        freq := r.pubFreq vc, amp := r.pubAmp vc, pw := vc.pubPw,
        pending := vc.pending ++ [.freq (r.pubFreq vc), .amp (r.pubAmp vc), .pw vc.pubPw] } := by
  simp [Rom.publish, Voice.writeFreq, Voice.writeAmp, Voice.writePw]

/-- Settles O42: the integers are those that NoteFreq, the effective volume and the pulse width are computed from. -/
theorem publishFormula : Obligations.PublishFormula := fun r vc =>
  ⟨_, _, _, r.pubFreq vc, vc.pubPw, r.pubAmp vc, rfl, rfl, rfl, toNat_ofInt_clamp _, r.ampTable_effVolume vc,
    toInt_ofInt_clamp _, r.publish_eq vc⟩

end Sys2Proof.Machine
end

section
/-! SUPPORT. A whole tick of one voice reads and writes that voice's record only, so the ticks of two voices commute;
settles O40. -/

namespace Sys2Proof.Machine

/-! ### The steps of a tick -/

/-- The steps from `s` lead to `t`, the first state in which no tick runs. -/
inductive UntilIdle : State → State → Prop
  | idle {s : State} (h : s.engine = .between []) : UntilIdle s s
  | step {s t u : State} (hrunning : s.engine ≠ .between []) (h : step s = .next t) (rest : UntilIdle t u) : UntilIdle s u

/-- Where the steps lead no tick runs. -/
theorem UntilIdle.engine {s t : State} (h : UntilIdle s t) : t.engine = .between [] := by
  induction h with
  | idle h => exact h
  | step _ _ _ ih => exact ih

/-- A run to a next state begins with a step to one. -/
theorem run_succ_next {s t : State} {n : Nat} (h : run (n + 1) s = .next t) :
    ∃ u, step s = .next u ∧ run n u = .next t := by
  cases hs : step s with
  | next u => exact ⟨u, rfl, (run_succ n hs).symm.trans h⟩
  | fault f | refused x =>
    have hcore : Sys2Proof.core.step s = _ := hs
    change Host.Core.run Sys2Proof.core (n + 1) s = _ at h
    simp only [Host.Core.run, hcore] at h
    cases h

/-- A run up to the first state in which no tick runs is steps that lead there. -/
theorem UntilIdle.of_run {n : Nat} {s t : State} (h : run n s = .next t) (he : t.engine = .between [])
    (hfirst : ∀ m, m < n → ∀ u, run m s = .next u → u.engine ≠ .between []) : UntilIdle s t := by
  induction n generalizing s with
  | zero => cases h; exact .idle he
  | succ n ih =>
    obtain ⟨u, hs, hrun⟩ := run_succ_next h
    refine .step (hfirst 0 (Nat.succ_pos n) s rfl) hs (ih hrun fun m hm w hw => ?_)
    exact hfirst (m + 1) (Nat.succ_lt_succ hm) w ((run_succ m hs).trans hw)

/-- Steps that lead to the first state in which no tick runs are a run up to it. -/
theorem UntilIdle.run {s t : State} (h : UntilIdle s t) :
    ∃ n, run n s = .next t ∧ ∀ m, m < n → ∀ u, Machine.run m s = .next u → u.engine ≠ .between [] := by
  induction h with
  | idle h => exact ⟨0, rfl, nofun⟩
  | @step s w t hrunning hs _ ih =>
    obtain ⟨n, hrun, hfirst⟩ := ih
    refine ⟨n + 1, (run_succ n hs).trans hrun, fun m hm u hu => ?_⟩
    cases m with
    | zero => cases hu; exact hrunning
    | succ m => exact hfirst m (Nat.lt_of_succ_lt_succ hm) u ((run_succ m hs).symm.trans hu)

/-- The whole tick of a voice is the steps from its start to the first state in which no tick runs. -/
theorem State.runsTick_iff {s t : State} {v : Nat} : s.runsTick v t ↔ UntilIdle (s.tickOf v) t := by
  constructor
  · rintro ⟨n, hrun, he, hfirst⟩
    exact .of_run hrun he hfirst
  · intro h
    obtain ⟨n, hrun, hfirst⟩ := h.run
    exact ⟨n, hrun, h.engine, hfirst⟩

/-! ### A tick reads and writes one record -/

/-- The tick of voice `v` is the only one of its TickEvent and is about to start or in its decode pass. -/
def Engine.ticks (v : Nat) (e : Engine) : Prop :=
  e = .between [v] ∨ ∃ restarted, e = .pass { voice := v, restarted := restarted, todo := [] }

/-- `t` is `s` with the record of voice `v` and the engine's place changed; and `R`, which leads from `s` to `t`, makes the
same change where the same voice `v` stands among other voices. -/
def ChangesOnly (v : Nat) (R : State → State → Prop) (s t : State) : Prop :=
  ∀ vs : List Voice, vs[v]? = s.voices[v]? → ∃ (new : Voice) (e : Engine),
    t = { s with voices := s.voices.set v new, engine := e } ∧
      R { s with voices := vs } { s with voices := vs.set v new, engine := e }

/-- Two lists with the same voice `v`, or both without one, stay as they are under one and the same replacement of it. -/
theorem exists_set_eq {vs ws : List Voice} {v : Nat} (h : vs[v]? = ws[v]?) (default : Voice) :
    ∃ new, vs.set v new = vs ∧ ws.set v new = ws := by
  cases hw : ws[v]? with
  | none =>
    rw [hw] at h
    exact ⟨default, List.set_eq_of_length_le (List.getElem?_eq_none_iff.mp h),
      List.set_eq_of_length_le (List.getElem?_eq_none_iff.mp hw)⟩
  | some vc =>
    rw [hw] at h
    obtain ⟨hv, rfl⟩ := List.getElem?_eq_some_iff.mp h
    obtain ⟨hv', e⟩ := List.getElem?_eq_some_iff.mp hw
    exact ⟨_, List.set_getElem_self hv, e ▸ List.set_getElem_self hv'⟩

/-- Two lists with the same voice `v`, or both without one, are alike in that voice after a replacement of it. -/
theorem getElem?_set_congr {vs ws : List Voice} {v : Nat} (h : vs[v]? = ws[v]?) (new : Voice) :
    (vs.set v new)[v]? = (ws.set v new)[v]? := by
  simp only [List.getElem?_set_self', h]

/-- The start of a voice's tick changes that voice only. -/
theorem startTick_changesOnly {s t : State} {v : Nat} (he : s.engine = .between [v]) (h : step s = .next t) :
    ChangesOnly v (fun a b => step a = .next b) s t := by
  intro vs hvs
  have hstart : step { s with voices := vs } = startTick { s with voices := vs } v [] := step_tick he
  rw [step_tick he] at h
  rcases startTick_next h with ⟨hv, rfl⟩ | ⟨vc, hv, ⟨vc', hf, rfl⟩ | ⟨vc', hf, rfl⟩⟩
  · have hnone := hvs.trans hv
    obtain ⟨new, hnew, hnew'⟩ := exists_set_eq hvs (Voice.powerOn s.deploy)
    exact ⟨new, .between [], by rw [hnew'], by simp only [hstart, startTick, hnone, hnew]⟩
  · exact ⟨vc', _, rfl, hstart.trans (startTick_over [] (hvs.trans hv) hf)⟩
  · exact ⟨vc', _, rfl, hstart.trans (startTick_fetches [] (hvs.trans hv) hf)⟩

/-- A step of a decode pass changes the pass's voice only. -/
theorem passStep_changesOnly {s t : State} {p : Pass} (he : s.engine = .pass p) (h : step s = .next t) :
    ChangesOnly p.voice (fun a b => step a = .next b) s t := by
  intro vs hvs
  have hpass := h
  rw [step_pass he] at hpass
  obtain ⟨p', vc, h1, hv, -⟩ := passStep_next hpass
  obtain rfl : p = p' := by rw [he] at h1; cases h1; rfl
  obtain ⟨-, hnext⟩ := voicesShareNoState s { s with voices := vs } p vc ⟨he, hv⟩ ⟨he, hvs.trans hv⟩ rfl rfl
  obtain ⟨t', new, hstep, -, ht, ht'⟩ := hnext t h
  exact ⟨new, _, ht, hstep.trans (congrArg Host.Outcome.next ht')⟩

/-- A step of a voice's tick changes that voice only, and the tick goes on or is over. -/
theorem Engine.ticks.step {s t : State} {v : Nat} (he : s.engine.ticks v) (h : Machine.step s = .next t) :
    ChangesOnly v (fun a b => Machine.step a = .next b) s t ∧ (t.engine = .between [] ∨ t.engine.ticks v) := by
  rcases he with he | ⟨restarted, he⟩
  · refine ⟨startTick_changesOnly he h, ?_⟩
    rcases step_engine h with ⟨p, e, -⟩ | ⟨u, todo, e, ht⟩ | ⟨e, -⟩ <;> rw [he] at e <;> cases e
    rcases ht with ht | ⟨-, ht⟩
    · exact .inl ht
    · exact .inr (.inr ⟨_, ht⟩)
  · refine ⟨passStep_changesOnly he h, ?_⟩
    rcases step_engine h with ⟨p, e, ht⟩ | ⟨u, todo, e, -⟩ | ⟨e, -⟩ <;> rw [he] at e <;> cases e
    rcases ht with ht | ht | ht
    · exact .inl ht
    · exact .inr (.inr ⟨_, ht⟩)
    · exact .inr (.inr ⟨_, ht⟩)

/-- A whole tick of a voice changes that voice only. -/
theorem UntilIdle.changesOnly {s t : State} {v : Nat} (h : UntilIdle s t)
    (he : s.engine = .between [] ∨ s.engine.ticks v) : ChangesOnly v UntilIdle s t := by
  induction h with
  | @idle s hidle =>
    intro vs hvs
    obtain ⟨new, hnew, hnew'⟩ := exists_set_eq hvs (Voice.powerOn s.deploy)
    exact ⟨new, s.engine, by rw [hnew'], by rw [hnew]; exact .idle hidle⟩
  | @step s w t hrunning hs _ ih =>
    intro vs hvs
    obtain ⟨hone, hgoes⟩ := (he.resolve_left hrunning).step hs
    obtain ⟨mid, e, rfl, hstep⟩ := hone vs hvs
    obtain ⟨new, e', rfl, hrest⟩ := ih hgoes (vs.set v mid) (getElem?_set_congr hvs mid)
    simp only [List.set_set] at hrest ⊢
    exact ⟨new, e', rfl, .step hrunning hstep hrest⟩

/-- The whole tick of a voice changes its record only, and makes the same change among other voices. -/
theorem State.runsTick.changesOnly {s t : State} {v : Nat} (he : s.engine = .between []) (h : s.runsTick v t)
    {vs : List Voice} (hvs : vs[v]? = s.voices[v]?) :
    ∃ new : Voice, t = { s with voices := s.voices.set v new } ∧
      State.runsTick { s with voices := vs } v { s with voices := vs.set v new } := by
  rw [State.runsTick_iff] at h
  obtain ⟨new, e, rfl, hrest⟩ := h.changesOnly (.inr (.inl rfl)) vs hvs
  obtain rfl : e = s.engine := h.engine.trans he.symm
  exact ⟨new, rfl, State.runsTick_iff.mpr hrest⟩

/-- Settles O40: each voice's tick makes the same change with the other voice's new record beside it. -/
theorem voiceOrderIsIrrelevant : Obligations.VoiceOrderIsIrrelevant := by
  intro s t u v w he hne hv hw
  obtain ⟨_, ht, -⟩ := hv.changesOnly he (vs := s.voices) rfl
  have hother : s.voices[w]? = t.voices[w]? := by rw [ht]; exact (List.getElem?_set_ne hne).symm
  obtain ⟨b, hu, hfirst⟩ := hw.changesOnly (by rw [ht]; exact he) hother
  obtain ⟨a, ht, hsecond⟩ := hv.changesOnly he (vs := s.voices.set w b) (List.getElem?_set_ne hne.symm)
  subst ht hu
  refine ⟨_, hfirst, ?_⟩
  rw [List.set_comm _ _ hne.symm] at hsecond
  exact hsecond

end Sys2Proof.Machine
end

section
/-! SUPPORT. A decode pass ends: where a voice stands in its loops moves forward with every instruction, in a
lexicographic order over the loop levels, and END restarts the stream at most once; settles O9. -/

namespace Sys2Proof.Machine

/-! ### Where a voice stands in its loops -/

/-- The offset a voice stands at on loop level `i`: on the levels of its open frames the frame's start, on the level inside
all of them the cursor. -/
def Voice.loopOffset (vc : Voice) (i : Nat) : Word :=
  if h : i < vc.lsp.val then (vc.ls[i]'(Nat.lt_of_lt_of_le h (Nat.le_of_lt_succ vc.lsp.isLt))).start else vc.cursor

/-- The executions that the frame open on loop level `i` has left, 0 on a level without one. -/
def Voice.loopRem (vc : Voice) (i : Nat) : Nat :=
  if h : i < vc.lsp.val then (vc.ls[i]'(Nat.lt_of_lt_of_le h (Nat.le_of_lt_succ vc.lsp.isLt))).rem.toNat else 0

/-- Inside all open frames a voice stands at its cursor. -/
theorem Voice.loopOffset_cursor (vc : Voice) {i : Nat} (h : vc.lsp.val ≤ i) : vc.loopOffset i = vc.cursor :=
  dif_neg (Nat.not_lt_of_le h)

/-- On the level of an open frame a voice stands at the frame's start. -/
theorem Voice.loopOffset_frame (vc : Voice) {i : Nat} (hi : i < 4) (h : i < vc.lsp.val) :
    vc.loopOffset i = vc.ls[i].start := dif_pos h

/-- The executions an open frame has left. -/
theorem Voice.loopRem_frame (vc : Voice) {i : Nat} (hi : i < 4) (h : i < vc.lsp.val) :
    vc.loopRem i = vc.ls[i].rem.toNat := dif_pos h

/-- Two records stand alike on the loop levels below `d`. -/
def Voice.AlikeBelow (d : Nat) (vc vc' : Voice) : Prop :=
  ∀ i, i < d → vc'.loopOffset i = vc.loopOffset i ∧ vc'.loopRem i = vc.loopRem i

/-- Records with the same frames below `d` stand alike there. -/
theorem Voice.AlikeBelow.of_frames {d : Nat} {vc vc' : Voice} (hd : d ≤ vc.lsp.val) (hd' : d ≤ vc'.lsp.val)
    (h : ∀ (i : Nat) (hi : i < 4), i < d → vc'.ls[i] = vc.ls[i]) : vc.AlikeBelow d vc' := by
  intro i hid
  have hi : i < 4 := by have := vc.lsp.isLt; omega
  rw [Voice.loopOffset_frame _ hi (by omega), Voice.loopOffset_frame _ hi (by omega), Voice.loopRem_frame _ hi (by omega),
    Voice.loopRem_frame _ hi (by omega), h i hi hid]
  exact ⟨rfl, rfl⟩

/-- How an instruction after which the pass goes on moves a voice in its loops. -/
inductive LoopMove (vc vc' : Voice) : Prop
  /-- The cursor advances, at the same level, into a new frame or out of one; the levels below `d` are left alone, and from
  `d` up the voice stands at the new cursor. -/
  | onward (d : Nat) (hd : d ≤ vc.lsp.val) (hd' : d ≤ vc'.lsp.val) (hc : vc.cursor.toNat < vc'.cursor.toNat)
      (same : vc.AlikeBelow d vc') (hin : ∀ j, d ≤ j → j ≤ vc'.lsp.val → vc'.loopOffset j = vc'.cursor)
  /-- LOOP_END goes back to the start of the innermost frame, which has fewer executions left -/
  | back (j : Nat) (hj : vc.lsp.val = j + 1) (hd : vc'.lsp = vc.lsp) (hc : vc'.cursor = vc.loopOffset j)
      (same : vc.AlikeBelow j vc') (hstart : vc'.loopOffset j = vc.loopOffset j) (hrem : vc'.loopRem j < vc.loopRem j)

/-! ### Instructions move a voice in its loops -/

/-- An advance of the cursor that stays within the declared length goes forward. -/
theorem Voice.lt_after {vc : Voice} {n : Nat} (hn : 0 < n) (hlen : vc.cursor.toNat + n ≤ vc.len.toNat) :
    vc.cursor.toNat < (vc.after n).toNat := by
  rw [Voice.after_toNat hlen]
  omega

/-- An instruction that advances the cursor and leaves the frames. -/
theorem LoopMove.of_after {vc vc' : Voice} {n : Nat} (hn : 0 < n) (hlen : vc.cursor.toNat + n ≤ vc.len.toNat)
    (hc : vc'.cursor = vc.after n) (hlsp : vc'.lsp = vc.lsp) (hls : vc'.ls = vc.ls) : LoopMove vc vc' := by
  have hle : vc.lsp.val ≤ vc'.lsp.val := by rw [hlsp]
  refine .onward vc.lsp.val (le_refl _) hle ?_ (.of_frames (le_refl _) hle fun i hi _ => ?_) fun j hj _ => ?_
  · rw [hc]
    exact Voice.lt_after hn hlen
  · simp only [hls]
  · exact vc'.loopOffset_cursor (hlsp ▸ hj)

/-- A register-setting opcode leaves the loop stack pointer. -/
theorem registerWrite_lsp {i : Instr} {f : Voice → Voice} (hf : registerWrite i = some f) (vc : Voice) :
    (f vc).lsp = vc.lsp := by
  cases i <;> cases hf <;> rfl

/-- LOOP_START moves a voice into a new frame, which starts at the new cursor. -/
theorem LoopMove.of_push {vc : Voice} (u : Byte) (hl : vc.lsp.val < 4) (hlen : vc.cursor.toNat + 2 ≤ vc.len.toNat) :
    LoopMove vc
      { vc with
        ls := vc.ls.set vc.lsp.val { start := vc.after 2, rem := u }, lsp := ⟨vc.lsp.val + 1, by omega⟩,
        cursor := vc.after 2 } := by
  refine .onward vc.lsp.val (le_refl _) (Nat.le_succ _) (Voice.lt_after Nat.two_pos hlen)
    (.of_frames (le_refl _) (Nat.le_succ _) fun i hi hid => ?_) fun j hj hj' => ?_
  · simp [Nat.ne_of_gt hid]
  · rcases Nat.eq_or_lt_of_le hj with rfl | hj
    · rw [Voice.loopOffset_frame _ hl (Nat.lt_succ_self _)]
      simp
    · exact Voice.loopOffset_cursor _ hj

/-- LOOP_END that falls through moves a voice out of its innermost frame. -/
theorem LoopMove.of_pop {vc : Voice} {j : Nat} (hj : j < 4) (hl : vc.lsp.val = j + 1)
    (hlen : vc.cursor.toNat + 1 ≤ vc.len.toNat) :
    LoopMove vc { vc with lsp := ⟨j, by omega⟩, cursor := vc.after 1 } := by
  have hle : j ≤ vc.lsp.val := by omega
  exact .onward j hle (le_refl _) (Voice.lt_after Nat.one_pos hlen) (.of_frames hle (le_refl _) fun _ _ _ => rfl)
    fun i hi _ => Voice.loopOffset_cursor _ hi

/-- LOOP_END that branches goes back to the innermost frame's start with one execution fewer left. -/
theorem LoopMove.of_branch {vc : Voice} {j : Nat} (hj : j < 4) (hl : vc.lsp.val = j + 1)
    (hr : 1 < vc.ls[j].rem.toNat) :
    LoopMove vc
      { vc with
        ls := vc.ls.set j { start := vc.ls[j].start, rem := vc.ls[j].rem - 1 }, cursor := vc.ls[j].start } := by
  have hjl : j < vc.lsp.val := by omega
  have hstart := vc.loopOffset_frame hj hjl
  refine .back j hl rfl hstart.symm (.of_frames hjl.le hjl.le fun i hi hij => ?_) ?_ ?_
  · simp [Nat.ne_of_gt hij]
  · rw [hstart, Voice.loopOffset_frame _ hj (by exact hjl)]
    simp
  · rw [vc.loopRem_frame hj hjl, Voice.loopRem_frame _ hj (by exact hjl)]
    simp only [Vector.getElem_set_self]
    bv_omega

/-- LOOP_END, where the pass goes on, moves its voice out of the innermost frame or back to that frame's start. -/
theorem LoopMove.of_loopEnd {s t : State} {p : Pass} {vc vc' : Voice} (hp : InPass s p vc) (h : execLoopEnd s = .next t)
    (ht : t.engine = .pass p) (hv : t.voices[p.voice]? = some vc') (hlen : vc.cursor.toNat + 1 ≤ vc.len.toNat) :
    LoopMove vc vc' := by
  obtain ⟨p', w, h1, h2, h3⟩ := execLoopEnd_next h
  obtain ⟨rfl, rfl⟩ := hp.unique h1 h2
  rcases h3 with ⟨j, hj, hl, ⟨-, rfl⟩ | ⟨hr, rfl⟩⟩ | ⟨-, rfl⟩
  · obtain rfl := hp.set_get hv
    exact .of_pop hj hl hlen
  · obtain rfl := hp.set_get hv
    exact .of_branch hj hl hr
  · cases ht

/-- END, where the pass goes on, restarts the stream. -/
theorem execEnd_restarts {s t : State} {p : Pass} {vc : Voice} (hp : InPass s p vc) (h : execEnd s = .next t) :
    t.engine ≠ .pass p := by
  obtain ⟨p', w, h1, h2, h3⟩ := execEnd_next h
  obtain ⟨rfl, rfl⟩ := hp.unique h1 h2
  intro ht
  rcases h3 with ⟨-, -, rfl⟩ | ⟨-, hr, rfl⟩ | ⟨-, rfl⟩
  · cases ht
  · rw [← Engine.pass.inj ht] at hr
    cases hr
  · cases ht

/-- An instruction after which the pass goes on as it was moves its voice in its loops. -/
theorem exec_loopMove {i : Instr} {s t : State} {p : Pass} {vc vc' : Voice} (hp : InPass s p vc) (h : exec i s = .next t)
    (ht : t.engine = .pass p) (hv : t.voices[p.voice]? = some vc') (hi : 0 < i.length)
    (hlen : vc.cursor.toNat + i.length ≤ vc.len.toNat) : LoopMove vc vc' := by
  cases exec_executed hp h hv with
  | raises k e => rw [e] at ht; cases ht
  | restarts | ends => exact absurd ht (execEnd_restarts hp h)
  | plays hn hnote semi es he =>
    rw [noteOf_length hnote] at hi hlen
    refine .of_after hi hlen ?_ ?_ ?_ <;> simp [Voice.startNote]
  | rests a => exact .of_after hi hlen rfl rfl rfl
  | marks => exact .of_after hi hlen rfl rfl rfl
  | pushes u hl => exact .of_push u hl hlen
  | pops | branches => exact .of_loopEnd hp h ht hv hlen
  | selects c k => exact .of_after hi hlen (by rw [selectOp_length]) rfl rfl
  | sets f hf =>
    obtain ⟨hcursor, -, hls⟩ := registerWrite_offsets hf vc
    exact .of_after hi hlen hcursor (registerWrite_lsp hf vc) hls

/-! ### Every move goes forward -/

/-- From level `k` up the frames were opened in this run through the stream, each inside the one before it, and the cursor
stands inside them all. -/
def Voice.OpenedFrom (k : Nat) (vc : Voice) : Prop :=
  k ≤ vc.lsp.val ∧
    ∀ i j, k ≤ i → i ≤ j → j ≤ vc.lsp.val → (vc.loopOffset i).toNat ≤ (vc.loopOffset j).toNat

/-- At the start of a run through the stream none of the open frames was opened in it. -/
theorem Voice.openedFrom_lsp (vc : Voice) : vc.OpenedFrom vc.lsp.val := by
  refine ⟨le_refl _, fun i j hi hij hj => ?_⟩
  obtain rfl : i = j := by omega
  exact le_refl _

/-- What is left of the stream on loop level `i`. A frame below level `k`, opened before this run through the stream, can
start anywhere, and counts as if more than all of the stream were still to come. -/
def Voice.loopLeft (k : Nat) (vc : Voice) (i : Nat) : Nat :=
  if i < k then 65536 else 65535 - (vc.loopOffset i).toNat

/-- What is left on each loop level, of the stream and then of the frame's executions; outer levels weigh more. -/
def Voice.loopRank (k : Nat) (vc : Voice) : Πₗ _ : Fin 5, ℕ ×ₗ ℕ :=
  toLex fun i => if i.val ≤ vc.lsp.val then toLex (vc.loopLeft k i.val, vc.loopRem i.val) else toLex (0, 0)

/-- The rank of an open level. -/
theorem Voice.loopRank_apply {k : Nat} {vc : Voice} {i : Fin 5} (h : i.val ≤ vc.lsp.val) :
    vc.loopRank k i = toLex (vc.loopLeft k i.val, vc.loopRem i.val) := by
  rw [Voice.loopRank, Pi.toLex_apply, if_pos h]

/-- The rank falls where on one level less is left and on the levels below it the voice stands as before. -/
theorem Voice.loopRank_lt {k k' d : Nat} {vc vc' : Voice} (hd : d ≤ vc.lsp.val) (hd' : d ≤ vc'.lsp.val)
    (hk : ∀ i, i < d → (i < k' ↔ i < k)) (same : vc.AlikeBelow d vc')
    (h : vc'.loopLeft k' d < vc.loopLeft k d ∨ vc'.loopLeft k' d = vc.loopLeft k d ∧ vc'.loopRem d < vc.loopRem d) :
    vc'.loopRank k' < vc.loopRank k := by
  refine ⟨⟨d, Nat.lt_of_le_of_lt hd vc.lsp.isLt⟩, fun i hi => ?_, ?_⟩
  · have hid : i.val < d := hi
    obtain ⟨hoffset, hrem⟩ := same i.val hid
    rw [vc.loopRank_apply (hid.le.trans hd), vc'.loopRank_apply (hid.le.trans hd')]
    simp only [Voice.loopLeft, hoffset, hrem, hk i.val hid]
  · rw [vc.loopRank_apply hd, vc'.loopRank_apply hd']
    exact Prod.Lex.toLex_lt_toLex.mpr h

/-- Every move keeps the frames opened in this run in their order and lowers the rank. -/
theorem LoopMove.forward {k : Nat} {vc vc' : Voice} (h : LoopMove vc vc') (ho : vc.OpenedFrom k) :
    ∃ k', vc'.OpenedFrom k' ∧ vc'.loopRank k' < vc.loopRank k := by
  obtain ⟨hk, hordered⟩ := ho
  cases h with
  | onward d hd hd' hc same hin =>
    have inside : ∀ i, k ≤ i → i ≤ vc.lsp.val → (vc.loopOffset i).toNat ≤ vc.cursor.toNat := fun i hi hl => by
      have := hordered i vc.lsp.val hi hl (le_refl _)
      rwa [vc.loopOffset_cursor (le_refl _)] at this
    refine ⟨min k d, ⟨by omega, fun i j hi hij hj => ?_⟩, Voice.loopRank_lt hd hd' (by omega) same (.inl ?_)⟩
    · by_cases hid : i < d
      · rw [(same i hid).1]
        by_cases hjd : j < d
        · rw [(same j hjd).1]
          exact hordered i j (by omega) hij (by omega)
        · rw [hin j (by omega) hj]
          exact (inside i (by omega) (by omega)).trans hc.le
      · rw [hin i (by omega) (by omega), hin j (by omega) hj]
    · have hlt := vc'.cursor.isLt
      rw [Voice.loopLeft, if_neg (by omega), hin d (le_refl _) hd', Voice.loopLeft]
      split
      · omega
      · have := inside d (by omega) hd
        omega
  | back j hj hd hc same hstart hrem =>
    have hlsp : vc'.lsp.val = j + 1 := hd ▸ hj
    have kept : ∀ i, i ≤ j → vc'.loopOffset i = vc.loopOffset i := fun i hi => by
      rcases Nat.eq_or_lt_of_le hi with rfl | hi
      · exact hstart
      · exact (same i hi).1
    refine ⟨k, ⟨by omega, fun i l hi hil hl => ?_⟩,
      Voice.loopRank_lt (by omega) (by omega) (fun _ _ => Iff.rfl) same (.inr ⟨?_, hrem⟩)⟩
    · by_cases hlj : l ≤ j
      · rw [kept i (hil.trans hlj), kept l hlj]
        exact hordered i l hi hil (by omega)
      · rw [vc'.loopOffset_cursor (i := l) (by omega), hc]
        by_cases hij : i ≤ j
        · rw [kept i hij]
          exact hordered i j hi hij (by omega)
        · rw [vc'.loopOffset_cursor (by omega), hc]
    · rw [Voice.loopLeft, Voice.loopLeft, hstart]

/-! ### A decode pass ends -/

/-- Restarting and stepping the selected instances of sound envelopes answers. -/
theorem Rom.each_startSelected_ok {r : Rom} {es : Envs} (h : r.envsOk es) :
    ∃ es', es.each r.startSelected = .ok es' := by
  refine Envs.each_ok fun c => ?_
  unfold Rom.startSelected
  split
  · next hs =>
    obtain ⟨hv, -⟩ := (Rom.envsOk_iff.mp h c).1 hs
    obtain ⟨e', he, -⟩ := Rom.envStep_ok (e := (es.get c).restart) hv (Nat.zero_le _)
    exact ⟨e', he⟩
  · exact ⟨_, rfl⟩

/-- In a decode pass of a voice with sound envelopes every instruction answers a next state. -/
theorem exec_ok {s : State} {p : Pass} {vc : Voice} (hp : InPass s p vc) (henv : s.rom.envsOk vc.env) (i : Instr) :
    ∃ t, exec i s = .next t := by
  cases Shape.all i with
  | endStream =>
    rw [show exec .endStream s = execEnd s from rfl, execEnd, onPass_inPass hp]
    split
    · split <;> exact ⟨_, rfl⟩
    · exact ⟨_, rfl⟩
  | note semi a hn =>
    obtain ⟨semi', -, he⟩ := exec_noteOf (by omega) hn
    obtain ⟨es, hes⟩ := Rom.each_startSelected_ok henv
    rw [he, playNote, onPass_inPass hp, hes]
    exact ⟨_, rfl⟩
  | rest a => exact ⟨_, onPass_inPass hp _⟩
  | trackLoop => exact ⟨_, controlOp_eq hp.1 hp.2 _⟩
  | loopStart u =>
    rw [show exec (.loopStart u) s = execLoopStart u s from rfl, execLoopStart, onPass_inPass hp]
    split <;> exact ⟨_, rfl⟩
  | loopEnd =>
    rw [show exec .loopEnd s = execLoopEnd s from rfl, execLoopEnd, onPass_inPass hp]
    dsimp only
    split
    · split <;> exact ⟨_, rfl⟩
    · exact ⟨_, rfl⟩
  | select c k =>
    rw [exec_selectOp, selectEnv, onPass_inPass hp]
    split <;> exact ⟨_, rfl⟩
  | register f hf =>
    rw [exec_registerWrite hf]
    exact ⟨_, controlOp_eq hp.1 hp.2 f⟩

/-- A voice with a stream fetches an instruction or an error. -/
theorem Voice.fetch_ne_absent {vc : Voice} (o : WideOrder) (h : vc.stream ≠ none) : vc.fetch o ≠ .absent := by
  unfold Voice.fetch
  split
  · next hm => exact absurd hm h
  · repeat' split
    all_goals nofun

/-- The invariant gives a decode pass its voice. -/
theorem State.inv.inPass {s : State} {p : Pass} (hinv : s.inv) (he : s.engine = .pass p) : ∃ vc, InPass s p vc := by
  obtain ⟨-, -, -, -, -, -, -, -, hengine, -⟩ := hinv
  rw [State.engineOk, he] at hengine
  obtain ⟨-, -, vc, hv, -⟩ := hengine
  exact ⟨vc, he, hv⟩

/-- A step of a decode pass of a state that meets the invariant raises an error or executes an instruction that lies within
the declared length, with no fault and no refusal. -/
theorem step_pass_of_inv {s : State} {p : Pass} {vc : Voice} (hinv : s.inv) (hp : InPass s p vc) :
    (∃ k, step s = .next (s.ticked p (vc.stopped k))) ∨
      ∃ i t, step s = .next t ∧ exec i s = .next t ∧ 0 < i.length ∧ vc.cursor.toNat + i.length ≤ vc.len.toNat := by
  obtain ⟨-, -, -, -, -, -, hstream, henvs, hengine, -⟩ := hinv
  have hmem := List.mem_of_getElem? hp.2
  have hfin := (State.engineOk_pass hengine hp).1
  cases hf : vc.fetch s.deploy.wideOrder with
  | absent => exact absurd hf (Voice.fetch_ne_absent _ ((hstream vc hmem).1 hfin))
  | raises k => exact .inl ⟨k, step_of_raises hp hf⟩
  | instr i =>
    obtain ⟨t, ht⟩ := exec_ok hp (henvs vc hmem hfin) i
    obtain ⟨m, rest, -, -, hfirst, hlen⟩ := Voice.fetch_instr hf
    exact .inr ⟨i, t, (step_of_instr hp hf).trans ht, ht, (instrLength_bounds hfirst).1, hlen⟩

/-- What is left of a decode pass: a restart, then what is left in the loops of its voice. -/
def passRank (k : Nat) (p : Pass) (vc : Voice) : ℕ ×ₗ (Πₗ _ : Fin 5, ℕ ×ₗ ℕ) :=
  toLex (if p.restarted then 0 else 1, vc.loopRank k)

/-- A step of a decode pass ends the pass or leaves less of it. -/
theorem step_passRank {s : State} {p : Pass} {vc : Voice} {k : Nat} (hinv : s.inv) (hp : InPass s p vc)
    (ho : vc.OpenedFrom k) :
    ∃ t, step s = .next t ∧ (t.engine = .between p.todo ∨
      ∃ q vc' k', InPass t q vc' ∧ q.todo = p.todo ∧ vc'.OpenedFrom k' ∧ passRank k' q vc' < passRank k p vc) := by
  rcases step_pass_of_inv hinv hp with ⟨e, hs⟩ | ⟨i, t, hs, hx, hi, hlen⟩
  · exact ⟨_, hs, .inl rfl⟩
  · refine ⟨t, hs, ?_⟩
    obtain ⟨vc', hv, -⟩ := step_voice hp.2 hs
    have goesOn : t.engine = .pass p → ∃ q vc' k', InPass t q vc' ∧ q.todo = p.todo ∧ vc'.OpenedFrom k' ∧
        passRank k' q vc' < passRank k p vc := fun ht => by
      obtain ⟨k', ho', hlt⟩ := (exec_loopMove hp hx ht hv hi hlen).forward ho
      exact ⟨p, vc', k', ⟨ht, hv⟩, rfl, ho', Prod.Lex.toLex_lt_toLex.mpr (.inr ⟨rfl, hlt⟩)⟩
    obtain ⟨p', w, new, h1, h2, -, ht, -⟩ := exec_frame hx
    obtain ⟨rfl, rfl⟩ := hp.unique h1 h2
    rcases ht with ht | ht | ht
    · exact .inl ht
    · exact .inr (goesOn ht)
    · cases hr : p'.restarted with
      | true =>
        have hsame : { p' with restarted := true } = p' := by rw [← hr]
        exact .inr (goesOn (hsame ▸ ht))
      | false =>
        refine .inr ⟨_, vc', vc'.lsp.val, ⟨ht, hv⟩, rfl, vc'.openedFrom_lsp, Prod.Lex.toLex_lt_toLex.mpr (.inl ?_)⟩
        simp [hr]

/-- A decode pass ends, by induction on what is left of it. -/
theorem pass_ends {s : State} {p : Pass} {vc : Voice} {k : Nat} (hinv : s.inv) (hp : InPass s p vc)
    (ho : vc.OpenedFrom k) : ∃ (n : Nat) (t : State), run n s = .next t ∧ t.engine = .between p.todo := by
  generalize hrank : passRank k p vc = rank
  induction rank using WellFoundedLT.induction generalizing s p vc k with
  | ind rank ih =>
    subst hrank
    obtain ⟨t, hs, hend | ⟨q, vc', k', hq, htodo, ho', hlt⟩⟩ := step_passRank hinv hp ho
    · exact ⟨1, t, run_succ 0 hs, hend⟩
    · obtain ⟨n, u, hrun, hu⟩ := ih _ hlt (invariantIsKept s t hinv hs) hq ho' rfl
      exact ⟨n + 1, u, (run_succ n hs).trans hrun, htodo ▸ hu⟩

/-- Settles O9: none of the frames open at the start counts as opened in this run through the stream. -/
theorem everyDecodePassEnds : Obligations.EveryDecodePassEnds := by
  intro s p hinv he
  obtain ⟨vc, hp⟩ := hinv.inPass he
  exact pass_ends hinv hp vc.openedFrom_lsp

end Sys2Proof.Machine
end

section
/-! SUPPORT. END, the NOTE opcodes and REST, and the ticks that a note lasts; settles O10, O11, O12 and O35. -/

namespace Sys2Proof.Machine

/-! ### END -/

/-- END in a decode pass finishes, restarts or raises EmptyTrackLoop (41_note_and_end.md R180). -/
theorem execEnd_inPass {s : State} {p : Pass} {vc : Voice} (hp : InPass s p vc) :
    exec .endStream s =
      if vc.tlpSet then
        if p.restarted then .next (s.ticked p (vc.stopped .emptyTrackLoop))
        else .next { s.continues p { vc with cursor := vc.tlp } with engine := .pass { p with restarted := true } }
      else .next (s.ticked p vc.finish.tickOver) := by
  rw [show exec .endStream s = execEnd s from rfl, execEnd, onPass_inPass hp]
  rfl

/-- Settles O10. -/
theorem endFinishesOrRestarts : Obligations.EndFinishesOrRestarts := by
  intro s p vc o rest hp
  rw [execEnd_inPass hp]
  refine ⟨rfl, fun hloop => ?_, fun hloop hfirst => ?_, fun hloop hagain => ?_⟩
  · rw [if_neg (Bool.eq_false_iff.mp hloop)]; rfl
  · rw [if_pos hloop, if_neg (Bool.eq_false_iff.mp hfirst)]
  · rw [if_pos hloop, if_pos hagain]

/-! ### The first byte of a NOTE or REST -/

/-- A note byte as a number: its field and its three flags (30_encoding.md R111). -/
theorem noteByte_toNat {n : Nat} (a : NoteArgs) (hn : n ≤ 13) :
    (noteByte n a).toNat =
      n + (if a.dur.isSome then 16 else 0) + (if a.quant.isSome then 32 else 0) + (if a.wide then 64 else 0) := by
  rw [noteByte, BitVec.toNat_ofNat]
  refine Nat.mod_eq_of_lt ?_
  split_ifs <;> omega

/-- The first byte of a NOTE or REST, in either byte order (30_encoding.md R110, R111). -/
theorem encode_noteOf_head {n : Nat} {a : NoteArgs} {i : Instr} (hi : noteOf n a = some i) (o : WideOrder) :
    ∃ b : Byte, (encode o i)[0]? = some b ∧
      b.toNat =
        n + (if a.dur.isSome then 16 else 0) + (if a.quant.isSome then 32 else 0) + (if a.wide then 64 else 0) := by
  obtain ⟨-, hn, henc, -⟩ := encode_noteOf o hi
  exact ⟨noteByte n a, by rw [henc]; rfl, noteByte_toNat a hn⟩

/-! ### REST -/

/-- Settles O12. -/
theorem restSilences : Obligations.RestSilences := fun _ _ _ _ hp =>
  ⟨encode_noteOf_head (n := 13) rfl, onPass_inPass hp _⟩

/-! ### NOTE -/

/-- The record of a NOTE before its Publish: the counters and flags loaded, the envelopes at `es`, the sweep restarted
(41_note_and_end.md R183). -/
def Voice.noted (vc : Voice) (semi : Fin 12) (a : NoteArgs) (es : Envs) : Voice :=
  { vc.startNote semi a with env := es, sweepRem := vc.sweepLen, sweepAcc := 0 }

/-- A NOTE opcode ends the tick with the note's record published. -/
theorem exec_note {s : State} {p : Pass} {vc : Voice} {semi : Fin 12} {a : NoteArgs} {i : Instr} {es : Envs}
    (hp : InPass s p vc) (hi : noteOf (semi.val + 1) a = some i) (hes : vc.env.each s.rom.startSelected = .ok es) :
    exec i s = .next (s.ticked p (s.rom.publish (vc.noted semi a es)).tickOver) := by
  obtain ⟨semi', hsemi, hexec⟩ := exec_noteOf (by omega) hi
  obtain rfl : semi' = semi := Fin.ext (by omega)
  rw [hexec, playNote, onPass_inPass hp, hes]
  rfl

/-- Starting the selected instances restarts and steps each selected one and leaves the others. -/
theorem Rom.each_startSelected_get {r : Rom} {es es' : Envs} (h : es.each r.startSelected = .ok es') (c : EnvClass) :
    if (es.get c).sel then r.envStep (es.get c).restart = .ok (es'.get c) else es'.get c = es.get c := by
  have hc := Envs.each_get h c
  unfold Rom.startSelected at hc
  split at hc
  · next hs => rwa [if_pos hs]
  · next hs => rw [if_neg hs, Except.ok.inj hc]

/-- Settles O11: what Publish computes (O42) from the note's record, whose ramp is 0. -/
theorem noteStartsTheNote : Obligations.NoteStartsTheNote := by
  intro s p vc semi a i hp hi henv
  obtain ⟨es, hes⟩ := Rom.each_startSelected_ok henv
  obtain ⟨f, g, w, freq, pw, amp, hf, hg, hw, hfreq, hamp, hpw, hpub⟩ := publishFormula s.rom (vc.noted semi a es)
  refine ⟨encode_noteOf_head hi, es, f, g, w, freq, pw, amp, Rom.each_startSelected_get hes, ?_, hg, hw, hfreq, hamp,
    hpw, ?_⟩
  · have hramp : (vc.noted semi a es).sweepAcc.toInt = 0 := rfl
    rw [hramp, Int.add_zero] at hf
    exact hf
  · have hpending : (vc.noted semi a es).pending ++ [.freq freq, .amp amp, .pw pw] =
        vc.pending ++ [.gate true, .freq freq, .amp amp, .pw pw] := List.append_assoc ..
    rw [exec_note hp hi hes, hpub, hpending]
    rfl

/-! ### The ticks of a note -/

/-- A voice in a note, on sound envelopes: `n` ticks are left until the next decode pass, counting the one that starts
it, and the gate stays on for `q - 1` ticks more, being off once `q` is 0 (40_interpreter_tick.md R152 to R154). -/
structure Rom.InNote (r : Rom) (n q : Nat) (vc : Voice) : Prop where
  active : vc.finished = false
  playing : vc.playing = true
  envs : r.envsOk vc.env
  nlenC : vc.nlenC.toNat = n
  qlenC : vc.qlenC.toNat = q
  gate : vc.gate = decide (0 < q)

/-- A NOTE with a quantization above 0 puts the voice in a note of its length. -/
theorem Rom.inNote_noted {r : Rom} {vc : Voice} {es : Envs} (semi : Fin 12) (a : NoteArgs) (hfin : vc.finished = false)
    (henv : r.envsOk es) (hquant : 0 < (vc.noteQuant a).toNat) :
    r.InNote (vc.noteDuration a).toNat (vc.noteQuant a).toNat (r.publish (vc.noted semi a es)).tickOver where
  active := hfin
  playing := rfl
  envs := henv
  nlenC := rfl
  qlenC := rfl
  gate := (decide_eq_true hquant).symm

/-- Quantization leaves the note counter and counts the quantization down, the gate closing as it reaches 0. -/
theorem Rom.InNote.quantize {r : Rom} {n q : Nat} {vc : Voice} (h : r.InNote n q vc) :
    r.InNote n (q - 1) (r.quantize vc) := by
  refine ⟨by simpa using h.active, by simpa using h.playing, r.quantize_envsOk h.envs, ?_, ?_, ?_⟩
  · obtain ⟨_, _, _, _, e⟩ := r.quantize_frame vc
    rw [e]; exact h.nlenC
  all_goals obtain h0 | h1 | h2 : q = 0 ∨ q = 1 ∨ 2 ≤ q := by omega
  · rw [r.quantize_zero (by rw [h.qlenC, h0]), h.qlenC, h0]
  · rw [r.quantize_closes (by rw [h.qlenC, h1]), h1]; rfl
  · rw [r.quantize_counts (by rw [h.qlenC]; exact h2), toNat_pred (by rw [h.qlenC]; omega), h.qlenC]
  · rw [r.quantize_zero (by rw [h.qlenC, h0]), h.gate, h0]
  · rw [r.quantize_closes (by rw [h.qlenC, h1]), h1]; rfl
  · rw [r.quantize_counts (by rw [h.qlenC]; exact h2), h.gate, decide_eq_decide]; omega

/-- A sustain tick writes the note counter and leaves the quantization counter. -/
theorem Rom.sustained_counters (r : Rom) (n : Word) (es : Envs) (vc : Voice) :
    (r.sustained n es vc).nlenC = n ∧ (r.sustained n es vc).qlenC = vc.qlenC := by
  obtain ⟨acc, rem, e⟩ := vc.swept_frame n es
  rcases r.sustained_cases n es vc with ⟨-, h⟩ | ⟨-, h⟩ <;> rw [h, e] <;> simp

/-- The rest of a sustain tick counts the note down and leaves the quantization counter and the gate. -/
theorem Rom.InNote.sustained {r : Rom} {n q : Nat} {vc : Voice} {es : Envs} (h : r.InNote n q vc) (hn : 1 ≤ n)
    (henv : r.envsOk es) : r.InNote (n - 1) q (r.sustained (vc.nlenC - 1) es vc).tickOver := by
  obtain ⟨-, hfin, hplay, -, hgate, hes⟩ := r.sustained_frame (vc.nlenC - 1) es vc
  obtain ⟨hnlen, hqlen⟩ := r.sustained_counters (vc.nlenC - 1) es vc
  exact
    { active := hfin.trans h.active
      playing := hplay.trans h.playing
      envs := by rw [Voice.tickOver_env, hes]; exact henv
      nlenC := by rw [Voice.tickOver_nlenC, hnlen, toNat_pred (by rw [h.nlenC]; exact hn), h.nlenC]
      qlenC := by rw [Voice.tickOver_qlenC, hqlen, h.qlenC]
      gate := hgate.trans h.gate }

/-- Steps 1 to 3 of a tick in a note answer. -/
theorem Rom.InNote.tickFront_ok {r : Rom} {n q : Nat} {vc : Voice} (h : r.InNote n q vc) :
    ∃ f, r.tickFront vc = .ok f := Rom.tickFront_ok fun _ _ => h.quantize.envs

/-- With at least two ticks left a tick in a note is a sustain tick (40_interpreter_tick.md R153). -/
theorem Rom.InNote.sustains {r : Rom} {n q : Nat} {vc : Voice} (h : r.InNote n q vc) (hn : 2 ≤ n) :
    ∃ vc', r.tickFront vc = .ok (.over vc') ∧ r.InNote (n - 1) (q - 1) vc' := by
  obtain ⟨f, hf⟩ := h.tickFront_ok
  have hq := h.quantize
  rcases Rom.tickFront_cases hf with ⟨hc, -⟩ | ⟨-, hc, -⟩ | ⟨-, -, hc, -⟩ | ⟨-, -, -, es, w, hes, rfl, rfl⟩
  · rw [h.active] at hc; cases hc
  · rw [hq.nlenC] at hc; omega
  · rw [hq.playing] at hc; cases hc
  · exact ⟨_, hf, hq.sustained (by omega) (Rom.each_stepSelected hq.envs hes)⟩

/-- The last tick of a note starts a decode pass (40_interpreter_tick.md R154). -/
theorem Rom.InNote.fetches {r : Rom} {q : Nat} {vc : Voice} (h : r.InNote 1 q vc) :
    ∃ vc', r.tickFront vc = .ok (.fetches vc') := by
  obtain ⟨f, hf⟩ := h.tickFront_ok
  have hn := h.quantize.nlenC
  rcases Rom.tickFront_cases hf with ⟨hc, -⟩ | ⟨-, -, rfl⟩ | ⟨-, hc, -⟩ | ⟨-, hc, -⟩
  · rw [h.active] at hc; cases hc
  · exact ⟨_, hf⟩
  · omega
  · omega

/-- As many sustain ticks as leave a tick of the note count both counters down. -/
theorem Rom.InNote.sustainTicks {r : Rom} {n q k : Nat} {vc : Voice} (h : r.InNote n q vc) (hk : k < n) :
    ∃ vk, r.sustainTicks k vc = some vk ∧ r.InNote (n - k) (q - k) vk := by
  induction k generalizing n q vc with
  | zero => exact ⟨vc, rfl, h⟩
  | succ k ih =>
    obtain ⟨v1, htick, h1⟩ := h.sustains (by omega)
    obtain ⟨vk, hrun, hk⟩ := ih h1 (by omega)
    refine ⟨vk, by rw [Rom.sustainTicks, htick]; exact hrun, ?_⟩
    rwa [Nat.add_comm k, Nat.sub_add_eq, Nat.sub_add_eq]

/-- Settles O35: the counters of the note run down by one a tick, from its length and its quantization. -/
theorem quantizationLaw : Obligations.QuantizationLaw := by
  intro s p vc n a i N Q hp h1 h12 hi henv hfin hN hQ hQ0 _
  obtain ⟨es, hes⟩ := Rom.each_startSelected_ok henv
  obtain ⟨semi, rfl⟩ : ∃ semi : Fin 12, semi.val + 1 = n := ⟨⟨n - 1, by omega⟩, by simp; omega⟩
  have hnote : s.rom.InNote N Q (s.rom.publish (vc.noted semi a es)).tickOver := by
    subst hN hQ
    exact Rom.inNote_noted semi a hfin (Rom.each_startSelected henv hes) hQ0
  refine ⟨_, exec_note hp hi hes, fun k hk => ?_, ?_⟩
  · obtain ⟨vk, hrun, hvk⟩ := hnote.sustainTicks hk
    refine ⟨vk, hrun, ?_⟩
    rw [hvk.gate, decide_eq_decide]
    omega
  · obtain ⟨vl, hrun, hvl⟩ := hnote.sustainTicks (k := N - 1) (by omega)
    rw [show N - (N - 1) = 1 by omega] at hvl
    obtain ⟨vf, hfetch⟩ := hvl.fetches
    exact ⟨vl, vf, hrun, hfetch⟩

end Sys2Proof.Machine
end

section
/-! SUPPORT. TRACK_LOOP, LOOP_START and LOOP_END in a decode pass; settles O13, O14 and O15. -/

namespace Sys2Proof.Machine

/-! ### TRACK_LOOP -/

/-- Settles O13: TRACK_LOOP is a control opcode, whose effect on the record is its definition. -/
theorem trackLoopMarksNextInstruction : Obligations.TrackLoopMarksNextInstruction := fun _ _ _ _ _ hp =>
  ⟨rfl, controlOp_eq hp.1 hp.2 _⟩

/-! ### LOOP_START -/

/-- LOOP_START in a decode pass pushes a frame while one is free (42_flow_control.md R201). -/
theorem exec_loopStart_pushes {s : State} {p : Pass} {vc : Voice} (hp : InPass s p vc) (u : Byte) (hl : vc.lsp.val < 4) :
    exec (.loopStart u) s = .next (s.continues p
      { vc with
        ls := vc.ls.set vc.lsp.val { start := vc.after 2, rem := u }, lsp := ⟨vc.lsp.val + 1, by omega⟩,
        cursor := vc.after 2 }) := by
  rw [show exec (.loopStart u) s = execLoopStart u s from rfl, execLoopStart, onPass_inPass hp]
  exact dif_pos hl

/-- LOOP_START in a decode pass raises LoopStackOverflow with four frames open (42_flow_control.md R201). -/
theorem exec_loopStart_overflows {s : State} {p : Pass} {vc : Voice} (hp : InPass s p vc) (u : Byte)
    (hl : vc.lsp.val = 4) : exec (.loopStart u) s = .next (s.ticked p (vc.stopped .loopStackOverflow)) := by
  rw [show exec (.loopStart u) s = execLoopStart u s from rfl, execLoopStart, onPass_inPass hp]
  exact dif_neg (Nat.not_lt_of_le hl.ge)

/-- Settles O14: the new frame stands at the old loop stack pointer, the others are where they were. -/
theorem loopStartPushesFrame : Obligations.LoopStartPushesFrame := by
  intro s p vc u o rest hp
  refine ⟨rfl, fun hl => ⟨_, exec_loopStart_pushes hp u hl, rfl, rfl, fun j => ?_⟩, exec_loopStart_overflows hp u⟩
  simp only [Fin.getElem_fin, Vector.getElem_set, eq_comm (a := vc.lsp.val)]
  rfl

/-! ### LOOP_END -/

/-- LOOP_END in a decode pass pops a frame with at most one execution left and falls through (42_flow_control.md R202). -/
theorem exec_loopEnd_pops {s : State} {p : Pass} {vc : Voice} {j : Nat} (hp : InPass s p vc) (hj : j < 4)
    (hl : vc.lsp.val = j + 1) (hr : vc.ls[j].rem.toNat ≤ 1) :
    exec .loopEnd s = .next (s.continues p { vc with lsp := ⟨j, by omega⟩, cursor := vc.after 1 }) := by
  obtain rfl : j = vc.lsp.val - 1 := by omega
  rw [show exec .loopEnd s = execLoopEnd s from rfl, execLoopEnd, onPass_inPass hp, dif_pos (by omega)]
  exact if_pos hr

/-- LOOP_END in a decode pass branches to the start of a frame with executions left, which has one fewer from then on
(42_flow_control.md R202). -/
theorem exec_loopEnd_branches {s : State} {p : Pass} {vc : Voice} {j : Nat} (hp : InPass s p vc) (hj : j < 4)
    (hl : vc.lsp.val = j + 1) (hr : 1 < vc.ls[j].rem.toNat) :
    exec .loopEnd s = .next (s.continues p
      { vc with
        ls := vc.ls.set j { start := vc.ls[j].start, rem := vc.ls[j].rem - 1 }, cursor := vc.ls[j].start }) := by
  obtain rfl : j = vc.lsp.val - 1 := by omega
  rw [show exec .loopEnd s = execLoopEnd s from rfl, execLoopEnd, onPass_inPass hp, dif_pos (by omega)]
  exact if_neg (Nat.not_le_of_lt hr)

/-- LOOP_END in a decode pass raises LoopStackUnderflow with no frame open (42_flow_control.md R202). -/
theorem exec_loopEnd_underflows {s : State} {p : Pass} {vc : Voice} (hp : InPass s p vc) (hl : vc.lsp.val = 0) :
    exec .loopEnd s = .next (s.ticked p (vc.stopped .loopStackUnderflow)) := by
  rw [show exec .loopEnd s = execLoopEnd s from rfl, execLoopEnd, onPass_inPass hp]
  exact dif_neg (by omega)

/-- Settles O15: a branch back rewrites the innermost frame alone, and `rem` is above 0, so it does not wrap. -/
theorem loopEndBranchesOrPops : Obligations.LoopEndBranchesOrPops := by
  intro s p vc o rest hp
  refine ⟨rfl, fun t hl => ⟨fun hlast => ?_, fun hmore => ?_⟩, exec_loopEnd_underflows hp⟩
  · exact ⟨_, exec_loopEnd_pops hp t.isLt hl hlast, rfl, rfl⟩
  · have hrem : (vc.ls[t].rem - 1).toNat = vc.ls[t].rem.toNat - 1 := by bv_omega
    refine ⟨_, exec_loopEnd_branches hp t.isLt hl hmore, rfl, ?_, ?_, fun j hj => ?_⟩
    · simp
    · simpa using hrem
    · exact Vector.getElem_set_ne t.isLt j.isLt (Fin.val_ne_of_ne hj.symm)

end Sys2Proof.Machine
end

section
/-! SUPPORT. The register-setting opcodes 0x83 to 0x8f in a decode pass; settles O16 to O20. -/

namespace Sys2Proof.Machine

/-- A register-setting opcode in a decode pass updates the record of the pass's voice, and nothing else. -/
theorem exec_registerWrite_inPass {s : State} {p : Pass} {vc vc' : Voice} {i : Instr} (hp : InPass s p vc)
    (hw : (registerWrite i).map (· vc) = some vc') : exec i s = .next (s.continues p vc') := by
  obtain ⟨f, hf, rfl⟩ := Option.map_eq_some_iff.mp hw
  rw [exec_registerWrite hf]
  exact controlOp_eq hp.1 hp.2 f

/-! ### Lengths -/

theorem zext16_toNat (u : Byte) : (zext16 u).toNat = u.toNat := by
  rw [zext16, BitVec.toNat_setWidth, Nat.mod_eq_of_lt (by omega)]

/-- Settles O16: the operand byte is zero-extended into the register. -/
theorem lengthsSetTheirRegister : Obligations.LengthsSetTheirRegister := fun _ _ _ u _ _ hp =>
  ⟨zext16 u, zext16_toNat u, rfl, rfl, exec_registerWrite_inPass hp rfl, exec_registerWrite_inPass hp rfl⟩

/-- The number of two appended bytes, the more significant first. -/
theorem append_bytes_toNat (hi lo : Byte) : (hi ++ lo : Word).toNat = 256 * hi.toNat + lo.toNat := by
  rw [BitVec.toNat_append, ← Nat.shiftLeft_add_eq_or_of_lt lo.isLt, Nat.shiftLeft_eq, Nat.mul_comm]

/-- Settles O17: the operand is assembled by the byte order, then stored as it is. -/
theorem wideLengthsFollowByteOrder : Obligations.WideLengthsFollowByteOrder := by
  intro s p vc o b0 b1 rest hp
  refine ⟨assemble o b0 b1, ?_, rfl, rfl, exec_registerWrite_inPass hp rfl, exec_registerWrite_inPass hp rfl⟩
  cases o with
  | le => exact (append_bytes_toNat b1 b0).trans (Nat.add_comm _ _)
  | be => exact append_bytes_toNat b0 b1

/-! ### Octave and volume -/

theorem satOctave_toNat (n : Nat) : (satOctave n).toNat = min n 7 := by
  rw [satOctave, BitVec.toNat_ofNat, Nat.mod_eq_of_lt (by omega)]

theorem satVolume_toNat (n : Nat) : (satVolume n).toNat = min n 15 := by
  rw [satVolume, BitVec.toNat_ofNat, Nat.mod_eq_of_lt (by omega)]

/-- One octave down stops at 0, since the difference is taken over the naturals. -/
theorem satOctave_pred (x : BitVec 3) : ((satOctave (x.toNat - 1)).toNat : Int) = max ((x.toNat : Int) - 1) 0 := by
  rw [satOctave_toNat]
  omega

/-- One volume step down stops at 0, since the difference is taken over the naturals. -/
theorem satVolume_pred (x : BitVec 4) : ((satVolume (x.toNat - 1)).toNat : Int) = max ((x.toNat : Int) - 1) 0 := by
  rw [satVolume_toNat]
  omega

/-- Settles O18: each of the three writes the saturated number. -/
theorem octaveSaturates : Obligations.OctaveSaturates := fun _ _ vc _ _ _ hp =>
  ⟨rfl, rfl, rfl,
    ⟨_, satOctave_toNat _, exec_registerWrite_inPass hp rfl⟩,
    ⟨_, satOctave_toNat _, exec_registerWrite_inPass hp rfl⟩,
    ⟨_, satOctave_pred vc.octave, exec_registerWrite_inPass hp rfl⟩⟩

/-- Settles O20: each of the three writes the saturated number. -/
theorem volumeSaturates : Obligations.VolumeSaturates := fun _ _ vc _ _ _ hp =>
  ⟨rfl, rfl, rfl,
    ⟨_, satVolume_toNat _, exec_registerWrite_inPass hp rfl⟩,
    ⟨_, satVolume_toNat _, exec_registerWrite_inPass hp rfl⟩,
    ⟨_, satVolume_pred vc.volume, exec_registerWrite_inPass hp rfl⟩⟩

/-! ### Transpose, detune and timbre -/

/-- Settles O19: a signed operand is held as its byte, which is stored as it is. -/
theorem modifiersAreReplaced : Obligations.ModifiersAreReplaced := fun _ _ _ b _ _ hp =>
  ⟨b, rfl, rfl, rfl, rfl, exec_registerWrite_inPass hp rfl, exec_registerWrite_inPass hp rfl,
    exec_registerWrite_inPass hp rfl⟩

end Sys2Proof.Machine
end

section
/-! SUPPORT. PITCH_SWEEP, the ramp of SweepStep, and the envelope selections (44_sweep_envelope_select.md); settles O23 to
O25. -/

namespace Sys2Proof.Machine

/-! ### PITCH_SWEEP and the ramp -/

/-- Settles O23: PITCH_SWEEP is a register-setting opcode, whose update names the two settings and the cursor. -/
theorem pitchSweepSetsTheSweep : Obligations.PitchSweepSetsTheSweep := fun _ _ _ _ _ _ _ hp =>
  ⟨rfl, exec_registerWrite_inPass hp rfl⟩

/-- A ramp that starts at 0 is in its bounds, whatever its length. -/
theorem Voice.sweepOk_of_start {vc : Voice} (h : vc.sweepAcc = 0) : vc.sweepOk := by
  have hrem := vc.sweepRem.isLt
  have hacc : vc.sweepAcc.toInt = 0 := by rw [h]; rfl
  unfold Voice.sweepOk
  omega

/-- A step of a ramp in its bounds adds to the accumulator without wrapping. -/
theorem Voice.sweepOk.add_step {vc : Voice} (h : vc.sweepOk) :
    (vc.sweepAcc + vc.sweepStep.signExtend 16).toInt = vc.sweepAcc.toInt + vc.sweepStep.toInt := by
  obtain ⟨hlo, hhi⟩ := h
  have hrem := vc.sweepRem.isLt
  have hstepLo := vc.sweepStep.le_toInt
  have hstepHi := vc.sweepStep.toInt_lt
  rw [BitVec.toInt_add, BitVec.toInt_signExtend_of_le (by omega)]
  exact Int.bmod_eq_of_le (by omega) (by omega)

/-- SweepStep counts the steps left down to 0 and no further, and what has been accumulated together with what the steps
left will add does not change. -/
theorem Voice.sweepTick_ramp {vc : Voice} (h : vc.sweepOk) :
    ∃ (acc : Word) (rem : Byte), vc.sweepTick = { vc with sweepAcc := acc, sweepRem := rem } ∧
      rem.toNat = vc.sweepRem.toNat - 1 ∧
      acc.toInt + rem.toNat * vc.sweepStep.toInt = vc.sweepAcc.toInt + vc.sweepRem.toNat * vc.sweepStep.toInt := by
  by_cases hr : 0 < vc.sweepRem.toNat
  · have hrem : (vc.sweepRem - 1).toNat = vc.sweepRem.toNat - 1 := by bv_omega
    refine ⟨_, _, if_pos hr, hrem, ?_⟩
    rw [h.add_step, hrem, Nat.cast_sub hr]
    ring
  · exact ⟨vc.sweepAcc, vc.sweepRem, if_neg hr, by omega, rfl⟩

/-- `k` calls of SweepStep count the steps left down by `k`, to 0 at the least, and keep the sum that each of them
keeps. -/
theorem Voice.sweepTick_iterate {vc : Voice} (k : Nat) (h : vc.sweepOk) :
    ∃ (acc : Word) (rem : Byte), Voice.sweepTick^[k] vc = { vc with sweepAcc := acc, sweepRem := rem } ∧
      rem.toNat = vc.sweepRem.toNat - k ∧
      acc.toInt + rem.toNat * vc.sweepStep.toInt = vc.sweepAcc.toInt + vc.sweepRem.toNat * vc.sweepStep.toInt := by
  induction k generalizing vc with
  | zero => exact ⟨vc.sweepAcc, vc.sweepRem, rfl, rfl, rfl⟩
  | succ k ih =>
    obtain ⟨acc, rem, htick, hrem, hsum⟩ := Voice.sweepTick_ramp h
    obtain ⟨acc', rem', hticks, hrem', hsum'⟩ := ih (htick ▸ Voice.sweepTick_sweepOk h)
    refine ⟨acc', rem', ?_, ?_, hsum'.trans hsum⟩
    · rw [Function.iterate_succ_apply, htick, hticks]
    · rw [hrem', hrem, Nat.sub_sub, Nat.add_comm]

/-- Settles O24: at the start the steps left are all of `sweep_len`, so what `k` calls have accumulated is the share of
those no longer left. -/
theorem sweepRampIsLinear : Obligations.SweepRampIsLinear := by
  intro vc k hlen hacc
  obtain ⟨acc, rem, hticks, hrem, hsum⟩ := Voice.sweepTick_iterate k (Voice.sweepOk_of_start hacc)
  rw [hlen] at hrem hsum
  refine ⟨acc, rem, hticks, ?_, hrem⟩
  have hstart : vc.sweepAcc.toInt = 0 := by rw [hacc]; rfl
  have hmin : ((min k vc.sweepLen.toNat : Nat) : Int) = vc.sweepLen.toNat - rem.toNat := by omega
  rw [hmin, sub_mul]
  omega

/-! ### Envelope selections -/

/-- A selection of a valid sequence in a decode pass selects and restarts the envelope of its class
(44_sweep_envelope_select.md R252 to R255). -/
theorem exec_selectOp_valid {s : State} {p : Pass} {vc : Voice} {k : Byte} (hp : InPass s p vc)
    (hk : s.rom.seqValid k = true) (c : EnvClass) :
    exec (selectOp c k) s = .next (s.continues p
      { vc with
        env := vc.env.put c { sel := true, idx := k, pos := 0, rel := false, val := 0 }, cursor := vc.cursor + 2 }) := by
  rw [exec_selectOp, selectEnv, onPass_inPass hp]
  exact if_pos hk

/-- A selection of an invalid sequence in a decode pass raises InvalidEnvelopeIndex
(44_sweep_envelope_select.md R252 to R255). -/
theorem exec_selectOp_invalid {s : State} {p : Pass} {vc : Voice} {k : Byte} (hp : InPass s p vc)
    (hk : s.rom.seqValid k = false) (c : EnvClass) :
    exec (selectOp c k) s = .next (s.ticked p (vc.stopped .invalidEnvelopeIndex)) := by
  rw [exec_selectOp, selectEnv, onPass_inPass hp]
  exact if_neg (Bool.eq_false_iff.mp hk)

/-- Settles O25: the four opcodes are the selections of the four classes. -/
theorem envelopeSelection : Obligations.EnvelopeSelection := by
  intro s p vc k o rest hp
  refine ⟨rfl, rfl, rfl, rfl, fun hk => ?_, fun hk => ?_⟩
  · exact ⟨exec_selectOp_valid hp hk .vol, exec_selectOp_valid hp hk .note, exec_selectOp_valid hp hk .timb,
      exec_selectOp_valid hp hk .pitch⟩
  · exact List.forall_mem_map (f := (selectOp · k)) (l := [.vol, .note, .timb, .pitch]).mpr
      fun c _ => exec_selectOp_invalid hp hk c

end Sys2Proof.Machine
end

section
/-! SUPPORT. The sequence stepper: validation by index, EnvStep by the byte it stands at, release, and the release law of
one sequence; settles O26 to O31. -/

namespace Sys2Proof.Machine

/-! ### Validation by index -/

/-- A byte stands at most once in a list exactly if it stands at no two different indices. -/
theorem count_le_one_iff_index (x : Byte) (l : List Byte) :
    l.count x ≤ 1 ↔ ∀ i j : Nat, l[i]? = some x → l[j]? = some x → i = j := by
  have hdup : l.count x ≤ 1 ↔ ¬ ∃ (n m : Fin l.length) (_ : n < m), x = l.get n ∧ x = l.get m := by
    rw [← List.duplicate_iff_exists_distinct_get, List.duplicate_iff_two_le_count]; omega
  rw [hdup]
  constructor
  · intro h
    have hordered : ∀ i j : Nat, l[i]? = some x → l[j]? = some x → ¬ i < j := fun i j hi hj hlt => by
      obtain ⟨hil, hi⟩ := List.getElem?_eq_some_iff.mp hi
      obtain ⟨hjl, hj⟩ := List.getElem?_eq_some_iff.mp hj
      exact h ⟨⟨i, hil⟩, ⟨j, hjl⟩, hlt, hi.symm, hj.symm⟩
    exact fun i j hi hj => Nat.le_antisymm (Nat.le_of_not_lt (hordered j i hj hi)) (Nat.le_of_not_lt (hordered i j hi hj))
  · rintro h ⟨n, m, hlt, hn, hm⟩
    exact absurd (h n m (List.getElem?_eq_some_iff.mpr ⟨n.isLt, hn.symm⟩)
      (List.getElem?_eq_some_iff.mpr ⟨m.isLt, hm.symm⟩)) (by omega)

/-- A data byte is none of the three markers (30_encoding.md R122). -/
theorem isData_iff {x : Byte} : isData x = true ↔ x ≠ Config.seqEnd ∧ x ≠ Config.seqLoop ∧ x ≠ Config.seqRel := by
  simp [isData, and_assoc]

/-- The first end marker stands at `EndIdx` and nowhere else. -/
theorem Rom.firstEnd_iff {r : Rom} {k : Byte} {e : Nat} :
    (r.seqRead k e = some Config.seqEnd ∧ ∀ i, i < e → r.seqRead k i ≠ some Config.seqEnd) ↔
      Config.seqEnd ∈ r.seqBytes k ∧ e = r.endIdx k := by
  constructor
  · rintro ⟨he, hfirst⟩
    have hmem := List.mem_of_getElem? he
    have hend : r.seqRead k (r.endIdx k) = some Config.seqEnd := (takeWhile_ne_index Config.seqEnd _).2 hmem
    refine ⟨hmem, Nat.le_antisymm (Nat.le_of_not_lt fun hlt => hfirst _ hlt hend) (Nat.le_of_not_lt fun hlt => ?_)⟩
    exact (r.seqRead_body k e hlt).2 he
  · rintro ⟨hmem, rfl⟩
    exact ⟨(takeWhile_ne_index Config.seqEnd _).2 hmem, fun i hi => (r.seqRead_body k i hi).2⟩

/-- The body holds a byte at an index exactly if the sequence does, before the first end marker. -/
theorem Rom.seqBody_getElem?_iff {r : Rom} {k x : Byte} {i : Nat} :
    (r.seqBody k)[i]? = some x ↔ i < r.endIdx k ∧ r.seqRead k i = some x := by
  constructor
  · intro h
    have hi : i < r.endIdx k := (List.getElem?_eq_some_iff.mp h).1
    exact ⟨hi, (r.seqRead_body k i hi).1.trans h⟩
  · rintro ⟨hi, h⟩
    exact (r.seqRead_body k i hi).1.symm.trans h

/-- `HasLoop` by index. -/
theorem Rom.hasLoop_iff {r : Rom} {k : Byte} :
    r.hasLoop k = true ↔ ∃ i, i < r.endIdx k ∧ r.seqRead k i = some Config.seqLoop := by
  simp only [Rom.hasLoop, List.contains_iff_mem, List.mem_iff_getElem?, Rom.seqBody_getElem?_iff]

/-- A byte stands at most once before the first end marker, by index. -/
theorem Rom.count_seqBody_le_one_iff {r : Rom} {k x : Byte} :
    (r.seqBody k).count x ≤ 1 ↔
      ∀ i j, i < r.endIdx k → j < r.endIdx k → r.seqRead k i = some x → r.seqRead k j = some x → i = j := by
  simp only [count_le_one_iff_index, Rom.seqBody_getElem?_iff]
  exact ⟨fun h i j hi hj hx hy => h i j ⟨hi, hx⟩ ⟨hj, hy⟩, fun h i j hx hy => h i j hx.1 hy.1 hx.2 hy.2⟩

/-- `LoopEnd` by index: what lies before it lies before the end marker and before every release marker. -/
theorem Rom.lt_loopEnd_iff {r : Rom} {k : Byte} {i : Nat} :
    i < r.loopEnd k ↔
      i < r.endIdx k ∧ ∀ j, j < r.endIdx k → r.seqRead k j = some Config.seqRel → i < j := by
  obtain ⟨hle, hnone⟩ := r.loopEnd_spec k
  constructor
  · intro hi
    exact ⟨by omega, fun j _ hj => Nat.lt_of_lt_of_le hi (Nat.le_of_not_lt fun hlt => hnone j hlt hj)⟩
  · rintro ⟨hi, hbefore⟩
    cases h : r.relIdx k with
    | none => simpa [Rom.loopEnd, h] using hi
    | some m =>
      obtain ⟨hm, hrel, -⟩ := Rom.relIdx_spec h
      simpa [Rom.loopEnd, h] using hbefore m hm hrel

/-- A data byte stands before `LoopEnd`, by index. -/
theorem Rom.any_isData_iff {r : Rom} {k : Byte} :
    ((r.seqBody k).take (r.loopEnd k)).any isData = true ↔
      ∃ i x, i < r.loopEnd k ∧ r.seqRead k i = some x ∧ isData x = true := by
  have hle := (r.loopEnd_spec k).1
  simp only [List.any_eq_true, List.mem_iff_getElem?, List.getElem?_take]
  constructor
  · rintro ⟨x, ⟨i, hi⟩, hx⟩
    split at hi
    · next hlt => exact ⟨i, x, hlt, (Rom.seqBody_getElem?_iff.mp hi).2, hx⟩
    · cases hi
  · rintro ⟨i, x, hi, hread, hx⟩
    exact ⟨x, ⟨i, by rw [if_pos hi]; exact Rom.seqBody_getElem?_iff.mpr ⟨by omega, hread⟩⟩, hx⟩

/-- `SeqValid` as the conjunction of its five conditions (45_sequence_stepper.md R274). -/
theorem Rom.seqValid_iff {r : Rom} {k : Byte} :
    r.seqValid k = true ↔
      k.toNat < r.seqLen.length ∧ Config.seqEnd ∈ r.seqBytes k ∧ (r.seqBody k).count Config.seqLoop ≤ 1 ∧
        (r.seqBody k).count Config.seqRel ≤ 1 ∧
        (r.hasLoop k = true → ((r.seqBody k).take (r.loopEnd k)).any isData = true) := by
  simp only [Rom.seqValid, Bool.and_eq_true, decide_eq_true_eq, List.contains_iff_mem, Bool.or_eq_true,
    Bool.not_eq_true', and_assoc, ← Bool.not_eq_true, imp_iff_not_or]

/-- Settles O26: the index of the end marker is `EndIdx`, and the conditions on the body are read off index by index. -/
theorem sequenceValidation : Obligations.SequenceValidation := by
  intro r k
  rw [Rom.seqValid_iff, Rom.count_seqBody_le_one_iff, Rom.count_seqBody_le_one_iff, Rom.hasLoop_iff, Rom.any_isData_iff]
  simp only [Rom.lt_loopEnd_iff, isData_iff]
  constructor
  · rintro ⟨hk, hmem, hloop, hrel, hdata⟩
    obtain ⟨hend, hfirst⟩ := Rom.firstEnd_iff.mpr ⟨hmem, rfl⟩
    refine ⟨hk, _, hend, hfirst, hloop, hrel, fun h => ?_⟩
    obtain ⟨i, x, ⟨hi, hbefore⟩, hx, h0, h1, h2⟩ := hdata h
    exact ⟨i, x, hi, hx, h0, h1, h2, hbefore⟩
  · rintro ⟨hk, e, hend, hfirst, hloop, hrel, hdata⟩
    obtain ⟨hmem, rfl⟩ := Rom.firstEnd_iff.mp ⟨hend, hfirst⟩
    refine ⟨hk, hmem, hloop, hrel, fun h => ?_⟩
    obtain ⟨i, x, hi, hx, h0, h1, h2, hbefore⟩ := hdata h
    exact ⟨i, x, ⟨hi, hbefore⟩, hx, h0, h1, h2⟩

/-! ### EnvStep by the byte it stands at -/

/-- At a data byte EnvStep yields it and passes it. -/
theorem Rom.envStep_data {r : Rom} {e : Env} {x : Byte} (hx : r.seqRead e.idx e.pos.toNat = some x)
    (hd : isData x = true) : r.envStep e = .ok { e with val := x, pos := e.pos + 1 } := by
  obtain ⟨h0, h1, h2⟩ := isData_iff.mp hd
  exact Rom.envStep_yields (by simp only [Rom.envScan, hx, if_neg h0, if_neg h1, if_neg h2])

/-- At the end marker a released envelope, or one without a loop marker, holds. -/
theorem Rom.envStep_holds {r : Rom} {e : Env} (hx : r.seqRead e.idx e.pos.toNat = some Config.seqEnd)
    (hr : e.rel = true ∨ r.hasLoop e.idx = false) : r.envStep e = .ok e := by
  have hstays : (!e.rel && r.hasLoop e.idx) = false := by rcases hr with h | h <;> simp [h]
  apply Rom.envStep_yields
  rw [Rom.envScan, hx]
  simp [hstays, Config.seqEnd, Config.seqLoop, Config.seqRel]

section
variable {r : Rom} {e : Env} (hv : r.seqValid e.idx = true)
include hv

/-- The place after a byte that is no end marker is at or before the end marker. -/
theorem Rom.pos_succ_le {x : Byte} (hp : e.pos.toNat ≤ r.endIdx e.idx)
    (hx : r.seqRead e.idx e.pos.toNat = some x) (hne : x ≠ Config.seqEnd) : (e.pos + 1).toNat ≤ r.endIdx e.idx := by
  obtain ⟨hend, hlt, -⟩ := Rom.seqValid_spec hv
  have hpos : e.pos.toNat ≠ r.endIdx e.idx := fun h => hne (Option.some.inj (hx.symm.trans (h ▸ hend)))
  rw [BitVec.toNat_add, show (1 : Byte).toNat = 1 from rfl]
  omega

/-- At a loop marker EnvStep skips it. -/
theorem Rom.envStep_skips_loop (hp : e.pos.toNat ≤ r.endIdx e.idx)
    (hx : r.seqRead e.idx e.pos.toNat = some Config.seqLoop) : r.envStep e = r.envStep { e with pos := e.pos + 1 } :=
  Rom.envStep_goesOn (by rw [Rom.envScan, hx]; rfl) hv (Rom.pos_succ_le hv hp hx (by decide))

/-- At a release marker or the end marker an unreleased envelope of a looping sequence goes back to byte 0. -/
theorem Rom.envStep_loops_back {x : Byte} (hx : r.seqRead e.idx e.pos.toNat = some x)
    (hm : x = Config.seqRel ∨ x = Config.seqEnd) (hr : e.rel = false) (hl : r.hasLoop e.idx = true) :
    r.envStep e = r.envStep { e with pos := 0 } := by
  have hback : (!e.rel && r.hasLoop e.idx) = true := by rw [hr, hl]; rfl
  refine Rom.envStep_goesOn ?_ hv (Nat.zero_le _)
  rcases hm with rfl | rfl <;> simp only [Rom.envScan, hx, hback] <;> rfl

/-- At a release marker an envelope that does not loop back passes it and counts as released. -/
theorem Rom.envStep_passes_release (hp : e.pos.toNat ≤ r.endIdx e.idx)
    (hx : r.seqRead e.idx e.pos.toNat = some Config.seqRel) (hr : e.rel = true ∨ r.hasLoop e.idx = false) :
    r.envStep e = r.envStep { e with rel := true, pos := e.pos + 1 } := by
  have hstays : (!e.rel && r.hasLoop e.idx) = false := by rcases hr with h | h <;> simp [h]
  refine Rom.envStep_goesOn ?_ hv (Rom.pos_succ_le hv hp hx (by decide))
  simp only [Rom.envScan, hx, hstays]
  rfl

end

/-- Settles O27. -/
theorem envStepByMarker : Obligations.EnvStepByMarker := by
  intro r e x hok hsel hx
  obtain ⟨hv, hp⟩ := hok.1 hsel
  refine ⟨?_, ?_, ?_, ?_, ?_, fun h0 h1 h2 => Rom.envStep_data hx (isData_iff.mpr ⟨h0, h1, h2⟩)⟩
  · rintro rfl
    exact Rom.envStep_skips_loop hv hp hx
  · rintro rfl
    exact Rom.envStep_loops_back hv hx (.inl rfl)
  · rintro rfl
    exact Rom.envStep_passes_release hv hp hx
  · rintro rfl
    exact Rom.envStep_loops_back hv hx (.inr rfl)
  · rintro rfl
    exact Rom.envStep_holds hx

/-! ### EnvStep ends, and holds at the end -/

/-- The end marker of a validated sequence is one of its bytes. -/
theorem Rom.endIdx_lt_seqLen {r : Rom} {k n : Byte} (hv : r.seqValid k = true) (hn : r.seqLen[k.toNat]? = some n) :
    r.endIdx k < n.toNat := by
  obtain ⟨hend, -⟩ := Rom.seqValid_spec hv
  rw [← Rom.seqBytes_length hn]
  exact (List.getElem?_eq_some_iff.mp hend).1

/-- Settles O28: a scan yields within `2 · EndIdx + 1` turns, and more turns change nothing. -/
theorem envStepEnds : Obligations.EnvStepEnds := by
  intro r e n hok hsel hn
  obtain ⟨hv, hp⟩ := hok.1 hsel
  have hend := Rom.endIdx_lt_seqLen hv hn
  have hbyte := n.isLt
  obtain ⟨e', hturns, hsel', hidx, -⟩ := Rom.envTurns_yields (2 * n.toNat) e hv hp (by omega)
  have hstep : r.envStep e = .ok e' := Rom.envTurns_mono hturns (by rw [envFuel]; omega)
  exact ⟨e', hturns, hstep, hsel'.trans hsel, hidx, Rom.envStep_envOk hok hsel hstep⟩

/-- A step that answers is followed by the other steps. -/
theorem Rom.envSteps_succ {r : Rom} {e e' : Env} (n : Nat) (h : r.envStep e = .ok e') :
    r.envSteps (n + 1) e = r.envSteps n e' := by rw [Rom.envSteps, h]

/-- Settles O29. -/
theorem envStepHoldsAtEnd : Obligations.EnvStepHoldsAtEnd := by
  intro r e n hend hr
  induction n with
  | zero => rfl
  | succ n ih => rw [Rom.envSteps_succ n (Rom.envStep_holds hend hr), ih]

/-! ### Release -/

/-- A validated sequence has no release marker but the one at `RelIdx`. -/
theorem Rom.relIdx_unique {r : Rom} {k : Byte} {i : Nat} (hv : r.seqValid k = true) (hi : i < r.endIdx k)
    (hread : r.seqRead k i = some Config.seqRel) : r.relIdx k = some i := by
  cases h : r.relIdx k with
  | none => exact absurd hread (Rom.relIdx_none h i hi)
  | some j =>
    obtain ⟨hj, hreadj, -⟩ := Rom.relIdx_spec h
    obtain ⟨-, -, -, hone, -⟩ := Rom.seqValid_iff.mp hv
    rw [Rom.count_seqBody_le_one_iff.mp hone j i hj hi hreadj hread]

/-- A released envelope is left alone. -/
theorem Rom.envRelease_released {r : Rom} {e : Env} (hr : e.rel = true) : r.envRelease e = e := by
  rw [Rom.envRelease, if_pos hr]

/-- An envelope at or before `RelIdx` is put right after it. -/
theorem Rom.envRelease_jumps {r : Rom} {e : Env} {i : Nat} (hr : e.rel = false) (hi : r.relIdx e.idx = some i)
    (hp : e.pos.toNat ≤ i) : r.envRelease e = { e with rel := true, pos := BitVec.ofNat 8 (i + 1) } := by
  rw [Rom.envRelease, hr, hi]
  exact if_pos hp

/-- An envelope past `RelIdx`, or on a sequence without a release marker, is released where it stands. -/
theorem Rom.envRelease_stays {r : Rom} {e : Env} (hr : e.rel = false)
    (hpast : ∀ i, r.relIdx e.idx = some i → i < e.pos.toNat) : r.envRelease e = { e with rel := true } := by
  rw [Rom.envRelease, hr]
  cases hi : r.relIdx e.idx with
  | none => rfl
  | some i => exact if_neg (Nat.not_le.mpr (hpast i hi))

/-- Settles O30. -/
theorem releaseJumpsToTail : Obligations.ReleaseJumpsToTail := by
  intro r e hv
  refine ⟨Rom.envRelease_released, fun hr i hi hread hp => ?_, fun hr hpast => Rom.envRelease_stays hr fun i hi => ?_⟩
  · obtain ⟨-, hlt, -⟩ := Rom.seqValid_spec hv
    refine ⟨BitVec.ofNat 8 (i + 1), ?_, Rom.envRelease_jumps hr (Rom.relIdx_unique hv hi hread) hp⟩
    rw [BitVec.toNat_ofNat]; omega
  · obtain ⟨hlt, hread, -⟩ := Rom.relIdx_spec hi
    exact hpast i hlt hread

/-! ### The release law -/

/-- The sequence of the release law, `[2, 4, LOOP, 6, 8, REL, 10, END]` (45_sequence_stepper.md R281). -/
def releaseLawBytes : List Byte := [0x02, 0x04, 0x81, 0x06, 0x08, 0x82, 0x0a, 0x80]

/-- The value of the `m`-th data byte of the unreleased loop, and the place after it. -/
def loopTone (m : Nat) : Byte × Byte :=
  if m % 4 = 0 then (2, 1) else if m % 4 = 1 then (4, 2) else if m % 4 = 2 then (6, 4) else (8, 5)

/-- An unreleased envelope that holds a value at a place. -/
def Env.unreleasedAt (e : Env) (t : Byte × Byte) : Env := { e with rel := false, val := t.1, pos := t.2 }

/-- The envelope `n` unreleased EnvSteps after a restart. -/
def Env.looped (e : Env) : Nat → Env
  | 0 => e.restart
  | m + 1 => e.unreleasedAt (loopTone m)

/-- The four data bytes of the loop come in turn. -/
theorem loopTone_cases (m : Nat) :
    (loopTone m = (2, 1) ∧ loopTone (m + 1) = (4, 2)) ∨ (loopTone m = (4, 2) ∧ loopTone (m + 1) = (6, 4)) ∨
      (loopTone m = (6, 4) ∧ loopTone (m + 1) = (8, 5)) ∨ (loopTone m = (8, 5) ∧ loopTone (m + 1) = (2, 1)) := by
  obtain h | h | h | h : m % 4 = 0 ∨ m % 4 = 1 ∨ m % 4 = 2 ∨ m % 4 = 3 := by omega
  all_goals simp [loopTone, Nat.add_mod, h]

/-- The places after the four data bytes of the loop are at or before the release marker. -/
theorem loopTone_before_release (m : Nat) : (loopTone m).2.toNat ≤ 5 := by
  rcases loopTone_cases m with ⟨h, -⟩ | ⟨h, -⟩ | ⟨h, -⟩ | ⟨h, -⟩ <;> rw [h] <;> decide

/-- An unreleased envelope stands at or before the release marker. -/
theorem Env.looped_before_release (e : Env) (n : Nat) : (e.looped n).rel = false ∧ (e.looped n).pos.toNat ≤ 5 := by
  cases n with
  | zero => exact ⟨rfl, Nat.zero_le 5⟩
  | succ m => exact ⟨rfl, loopTone_before_release m⟩

@[simp] theorem Env.looped_idx (e : Env) (n : Nat) : (e.looped n).idx = e.idx := by cases n <;> rfl

/-! The derived quantities of 45_sequence_stepper.md R273 on that sequence; their values need its bytes alone. -/

section
variable {r : Rom} {k : Byte} (h : r.seqBytes k = releaseLawBytes)
include h

theorem Rom.seqRead_releaseLaw (i : Nat) : r.seqRead k i = releaseLawBytes[i]? := by rw [Rom.seqRead, h]

theorem Rom.seqBody_releaseLaw : r.seqBody k = releaseLawBytes.take 7 := by rw [Rom.seqBody, h]; decide

theorem Rom.endIdx_releaseLaw : r.endIdx k = 7 := by rw [Rom.endIdx, Rom.seqBody_releaseLaw h]; rfl

theorem Rom.hasLoop_releaseLaw : r.hasLoop k = true := by rw [Rom.hasLoop, Rom.seqBody_releaseLaw h]; decide

theorem Rom.relIdx_releaseLaw : r.relIdx k = some 5 := by rw [Rom.relIdx, Rom.seqBody_releaseLaw h]; decide

theorem Rom.seqValid_releaseLaw : r.seqValid k = true := by
  have hk : k.toNat < r.seqLen.length := by
    by_contra hc
    rw [Rom.seqBytes, List.getElem?_eq_none (Nat.le_of_not_lt hc)] at h
    cases h
  rw [Rom.seqValid_iff, Rom.loopEnd, Rom.seqBody_releaseLaw h, Rom.relIdx_releaseLaw h, h]
  exact ⟨hk, by decide, by decide, by decide, fun _ => by rw [Option.getD_some]; decide⟩

end

section
variable {r : Rom} {e : Env} (h : r.seqBytes e.idx = releaseLawBytes)
include h

/-- From byte 0 the 2 is yielded. -/
theorem Rom.envStep_from_start (x : Byte) : r.envStep (e.unreleasedAt (x, 0)) = .ok (e.unreleasedAt (2, 1)) :=
  Rom.envStep_data (Rom.seqRead_releaseLaw h 0) rfl

/-- An unreleased EnvStep goes from one data byte of the loop to the next: over the loop marker after the 4, and back
to byte 0 at the release marker after the 8. -/
theorem Rom.envStep_looped (n : Nat) : r.envStep (e.looped n) = .ok (e.looped (n + 1)) := by
  have hv := Rom.seqValid_releaseLaw h
  cases n with
  | zero => exact Rom.envStep_from_start h 0
  | succ m =>
    rw [Env.looped, Env.looped]
    rcases loopTone_cases m with ⟨hm, hs⟩ | ⟨hm, hs⟩ | ⟨hm, hs⟩ | ⟨hm, hs⟩ <;> rw [hm, hs]
    · exact Rom.envStep_data (Rom.seqRead_releaseLaw h 1) rfl
    · have hplace : 2 ≤ r.endIdx e.idx := by rw [Rom.endIdx_releaseLaw h]; decide
      have hskip : r.envStep (e.unreleasedAt (4, 2)) = r.envStep (e.unreleasedAt (4, 3)) :=
        Rom.envStep_skips_loop hv hplace (Rom.seqRead_releaseLaw h 2)
      exact hskip.trans (Rom.envStep_data (Rom.seqRead_releaseLaw h 3) rfl)
    · exact Rom.envStep_data (Rom.seqRead_releaseLaw h 4) rfl
    · have hback : r.envStep (e.unreleasedAt (8, 5)) = r.envStep (e.unreleasedAt (8, 0)) :=
        Rom.envStep_loops_back hv (Rom.seqRead_releaseLaw h 5) (.inl rfl) rfl (Rom.hasLoop_releaseLaw h)
      exact hback.trans (Rom.envStep_from_start h 8)

/-- `n` unreleased EnvSteps. -/
theorem Rom.envSteps_looped (n m : Nat) : r.envSteps n (e.looped m) = .ok (e.looped (m + n)) := by
  induction n generalizing m with
  | zero => rfl
  | succ n ih => rw [Rom.envSteps_succ n (Rom.envStep_looped h m), ih, Nat.add_assoc, Nat.add_comm 1]

/-- From right after the release marker the 10 is yielded, and held at the end marker. -/
theorem Rom.envSteps_tail (k : Nat) :
    r.envSteps (k + 1) { e with rel := true, pos := 6 } = .ok { e with rel := true, val := 10, pos := 7 } := by
  have hten : r.envStep { e with rel := true, pos := 6 } = .ok { e with rel := true, val := 10, pos := 7 } :=
    Rom.envStep_data (Rom.seqRead_releaseLaw h 6) rfl
  rw [Rom.envSteps_succ k hten]
  exact envStepHoldsAtEnd r _ k (Rom.seqRead_releaseLaw h 7) (.inl rfl)

end

/-- Settles O31: unreleased, the envelope stands before the release marker, so a release puts it before the 10. -/
theorem releaseLaw : Obligations.ReleaseLaw := by
  intro r e h n
  obtain ⟨hrel, hp⟩ := e.looped_before_release n
  refine ⟨e.looped n, ?_, ?_, fun k => ?_⟩
  · have hsteps := Rom.envSteps_looped h n 0
    rwa [Nat.zero_add] at hsteps
  · rintro m rfl
    simp only [Env.looped, Env.unreleasedAt, loopTone]
    split_ifs <;> rfl
  · have hn : r.seqBytes (e.looped n).idx = releaseLawBytes := by rw [Env.looped_idx]; exact h
    rw [Rom.envRelease_jumps hrel (Rom.relIdx_releaseLaw hn) hp]
    exact ⟨_, Rom.envSteps_tail hn k, rfl⟩

end Sys2Proof.Machine
end

section
/-! SUPPORT. From the invariant no step faults, and a refusal answers a breach of a host duty; settles O59. -/

namespace Sys2Proof.Machine

/-! ### Decode passes and ticks -/

/-- The start of a tick answers a next state, for every voice number, where the voices that are not finished have sound
envelopes. -/
theorem startTick_ok {s : State} (henvs : s.all fun vc => vc.finished = false → s.rom.envsOk vc.env) (v : Nat)
    (todo : List Nat) : ∃ t, startTick s v todo = .next t := by
  cases hv : s.voices[v]? with
  | none => exact ⟨_, by rw [startTick, hv]⟩
  | some vc =>
    have hfront : ∃ f, s.rom.tickFront vc = .ok f := by
      cases hfin : vc.finished with
      | true => exact ⟨_, by rw [Rom.tickFront, if_pos hfin]⟩
      | false => exact Rom.tickFront_ok fun _ _ => Rom.quantize_envsOk (henvs vc (List.mem_of_getElem? hv) hfin)
    obtain ⟨f, hf⟩ := hfront
    rcases f with vc' | vc'
    · exact ⟨_, startTick_over todo hv hf⟩
    · exact ⟨_, startTick_fetches todo hv hf⟩

/-! ### Events from outside -/

/-- An Init answers a next state, or is refused because the voice is not there or the buffer is too short
(70_reset_and_hazards.md R373). -/
theorem serveInit_cases (s : State) (rest : List Input) (v : Nat) (stream : List Byte) (len : Word) :
    (∃ t, serveInit s rest v stream len = .next t) ∨
      ((s.voices.length ≤ v ∨ stream.length < len.toNat) ∧ ∃ x, serveInit s rest v stream len = .refused x) := by
  unfold serveInit
  split
  · next hv => exact .inr ⟨.inl (List.getElem?_eq_none_iff.mp hv), _, rfl⟩
  · split
    · next hshort => exact .inr ⟨.inr hshort, _, rfl⟩
    · split <;> exact .inl ⟨_, rfl⟩

/-- A SampleEvent answers a next state, or is refused because the voice is not there (70_reset_and_hazards.md R373). -/
theorem serveSample_cases (s : State) (rest : List Input) (v : Nat) :
    (∃ t, serveSample s rest v = .next t) ∨ (s.voices.length ≤ v ∧ ∃ x, serveSample s rest v = .refused x) := by
  unfold serveSample
  split
  · next hv => exact .inr ⟨List.getElem?_eq_none_iff.mp hv, _, rfl⟩
  · exact .inl ⟨_, rfl⟩

/-- Sequences are out of range where there are too many of them, or one is empty or too long (00_scope.md R11). -/
theorem seqsInRange_eq_false_iff {seqs : List (List Byte)} :
    seqsInRange seqs = false ↔ 256 < seqs.length ∨ ∃ q ∈ seqs, q.length = 0 ∨ 255 < q.length := by
  simp only [seqsInRange, Bool.and_eq_false_iff, decide_eq_false_iff_not, List.all_eq_false, Bool.and_eq_true,
    decide_eq_true_eq, not_and_or, Nat.not_le, Nat.lt_one_iff]

/-- A load answers a next state, or is refused because a voice is not finished or a parameter is out of range
(20_memory.md R93). -/
theorem serveLoad_cases (s : State) (rest : List Input) (ft : Vector Word 12) (am : Vector Byte 16)
    (seqs : List (List Byte)) :
    (∃ t, serveLoad s rest ft am seqs = .next t) ∨
      (((∃ vc ∈ s.voices, vc.finished = false) ∨ 256 < seqs.length ∨ ∃ q ∈ seqs, q.length = 0 ∨ 255 < q.length) ∧
        ∃ x, serveLoad s rest ft am seqs = .refused x) := by
  unfold serveLoad
  split
  · next huse => exact .inr ⟨.inl (by simpa using huse), _, rfl⟩
  · split
    · next hrange => exact .inr ⟨.inr (seqsInRange_eq_false_iff.mp (by simpa using hrange)), _, rfl⟩
    · exact .inl ⟨_, rfl⟩

/-- The next event breaks a duty of the host (70_reset_and_hazards.md R373, 20_memory.md R93; log 13). -/
def State.HostBreach (s : State) : Prop :=
  (∃ v stream len, s.inputs.head? = some (.init v stream len) ∧
      (s.voices.length ≤ v ∨ stream.length < len.toNat)) ∨
    (∃ v, s.inputs.head? = some (.sample v) ∧ s.voices.length ≤ v) ∨
    ∃ ft am seqs, s.inputs.head? = some (.load ft am seqs) ∧
      ((∃ vc ∈ s.voices, vc.finished = false) ∨ 256 < seqs.length ∨ ∃ q ∈ seqs, q.length = 0 ∨ 255 < q.length)

/-- The next event is served, or it breaks a duty of the host and is refused. -/
theorem serve_cases (s : State) : (∃ t, serve s = .next t) ∨ (s.HostBreach ∧ ∃ x, serve s = .refused x) := by
  unfold serve
  split
  · exact .inl ⟨_, rfl⟩
  · exact .inl ⟨_, rfl⟩
  · next v stream len rest hi =>
    exact (serveInit_cases s rest v stream len).imp id fun ⟨hbreach, hx⟩ =>
      ⟨.inl ⟨v, stream, len, by rw [hi]; rfl, hbreach⟩, hx⟩
  · next v rest hi =>
    exact (serveSample_cases s rest v).imp id fun ⟨hbreach, hx⟩ =>
      ⟨.inr (.inl ⟨v, by rw [hi]; rfl, hbreach⟩), hx⟩
  · exact .inl ⟨_, rfl⟩
  · next ft am seqs rest hi =>
    exact (serveLoad_cases s rest ft am seqs).imp id fun ⟨hbreach, hx⟩ =>
      ⟨.inr (.inr ⟨ft, am, seqs, by rw [hi]; rfl, hbreach⟩), hx⟩

/-- Settles O59, by what the engine does next: an instruction, the start of a tick, an event. -/
theorem nothingStopsTheBlock : Obligations.NothingStopsTheBlock := by
  intro s hinv
  cases he : s.engine with
  | pass p =>
    obtain ⟨vc, hp⟩ := hinv.inPass he
    left
    rcases step_pass_of_inv hinv hp with ⟨k, hs⟩ | ⟨i, t, hs, -⟩
    · exact ⟨_, hs⟩
    · exact ⟨t, hs⟩
  | between todo =>
    cases todo with
    | cons v todo =>
      obtain ⟨-, -, -, -, -, -, -, henvs, -⟩ := hinv
      rw [step_tick he]
      exact .inl (startTick_ok henvs v todo)
    | nil =>
      rw [step_serve he]
      exact (serve_cases s).imp id fun ⟨hbreach, hx⟩ => ⟨rfl, hbreach, hx⟩

end Sys2Proof.Machine
end

section
/-! SUPPORT. RenderSample: one sample, what each step does to the phase, and the phases of a run of samples
(46_oscillator.md); settles O43 to O45. -/

namespace Sys2Proof.Machine

/-! ### One sample -/

@[simp] theorem Voice.renderSample_shown (vc : Voice) : vc.renderSample.shown = vc.shown := rfl
@[simp] theorem Voice.renderSample_phase (vc : Voice) : vc.renderSample.phase = vc.phase + vc.shown.freq := rfl
@[simp] theorem Voice.renderSample_sample (vc : Voice) :
    vc.renderSample.sample = vc.shown.level vc.renderSample.phase := rfl

/-- A SampleEvent that is due is served in one step (46_oscillator.md R300). -/
theorem step_sample {s : State} {v : Nat} {vc : Voice} {rest : List Input} (he : s.engine = .between [])
    (hi : s.inputs = .sample v :: rest) (hv : s.voices[v]? = some vc) :
    step s = .next { s.setVoice v vc.renderSample with inputs := rest } := by
  simp only [step_serve he, serve, hi, serveSample, hv]

/-- An amplitude byte is the same number as a sample. -/
theorem toInt_setWidth_amp (a : Byte) : (a.setWidth 16 : Word).toInt = a.toNat := by
  have := a.isLt
  rw [BitVec.toInt_setWidth, Int.bmod_def]
  omega

/-- The sample as a number: the amplitude with a sign, or 0 (46_oscillator.md R300). -/
theorem Shown.level_toInt (o : Shown) (ph : Word) :
    (o.level ph).toInt =
      if o.gate then (if o.pw.toInt ≤ ph.toInt then (o.amp.toNat : Int) else -(o.amp.toNat : Int)) else 0 := by
  unfold Shown.level
  split_ifs
  · exact toInt_setWidth_amp o.amp
  · have := o.amp.isLt
    rw [BitVec.toInt_neg, toInt_setWidth_amp, Int.bmod_def]
    omega
  · rfl

/-- Settles O43. -/
theorem renderSampleFollowsTheWave : Obligations.RenderSampleFollowsTheWave := by
  intro s v vc rest he hi hv
  refine ⟨_, _, step_sample he hi hv, ?_, vc.shown.level_toInt _⟩
  rw [BitVec.toInt_add, BitVec.toInt_eq_toNat_bmod vc.shown.freq, Int.add_bmod_bmod]

/-! ### The phase in every step -/

/-- Whatever a step does to a voice keeps its phase, but for a sample of it or an Init of it. -/
theorem VoiceStep.phase_eq {s t : State} {v : Nat} {vc vc' : Voice} (hs : s.voices[v]? = some vc)
    (ht : t.voices[v]? = some vc') (h : VoiceStep s v vc vc' t)
    (hsample : ¬ (s.engine = .between [] ∧ s.inputs.head? = some (.sample v)))
    (hinit : ¬ ∃ stream len, s.engine = .between [] ∧ s.inputs.head? = some (.init v stream len)) :
    vc'.phase = vc.phase := by
  cases h with
  | same h => rw [h]
  | raises p k he hp hf h =>
    subst hp h
    obtain rfl := InPass.set_get ⟨he, hs⟩ ht
    rfl
  | runs p i he hp hf h =>
    subst hp
    obtain ⟨p', old, new, he', hold, e, -, -, -, hphase, -⟩ := exec_frame h
    cases he.symm.trans he'
    cases hs.symm.trans hold
    rw [e] at ht
    obtain rfl := InPass.set_get ⟨he, hs⟩ ht
    exact hphase
  | ticks todo he hf h =>
    obtain ⟨-, -, -, -, -, -, -, -, e⟩ := Rom.tickFront_frame hf (.inl rfl)
    exact e
  | fetches todo he hf h =>
    obtain ⟨-, -, -, -, -, -, -, -, e⟩ := Rom.tickFront_frame hf (.inr rfl)
    exact e
  | oldest w rest he hp h => rw [h]
  | settles f rest he hi h =>
    obtain ⟨sh, ws, e, -⟩ := vc.settle_frame f
    rw [h, e]
  | samples rest he hi => exact absurd ⟨he, by rw [hi]; rfl⟩ hsample
  | inits stream len rest he hi => exact absurd ⟨stream, len, he, by rw [hi]; rfl⟩ hinit

/-- Settles O44, by what the step serves: an Init of the voice, a sample of it, or neither. -/
theorem phaseAdvancesOnlyOnSamples : Obligations.PhaseAdvancesOnlyOnSamples := by
  intro s t v vc hv h
  by_cases hinit : ∃ stream len, s.engine = .between [] ∧ s.inputs.head? = some (.init v stream len)
  · exact .inl hinit
  right
  by_cases hsample : s.engine = .between [] ∧ s.inputs.head? = some (.sample v)
  · obtain ⟨rest, hi⟩ := List.head?_eq_some_iff.mp hsample.2
    rw [step_sample hsample.1 hi hv] at h
    cases h
    exact ⟨vc.renderSample, List.getElem?_set_self (List.getElem?_eq_some_iff.mp hv).1, by rw [if_pos hsample]; rfl⟩
  · obtain ⟨vc', hv', hstep⟩ := step_voice hv h
    exact ⟨vc', hv', by rw [if_neg hsample, hstep.phase_eq hv hv' hsample hinit]⟩

/-! ### The phases of a run of samples -/

/-- Samples leave the registers as they are seen. -/
@[simp] theorem Voice.renderSample_iterate_shown (vc : Voice) (n : Nat) :
    (Voice.renderSample^[n] vc).shown = vc.shown := by
  induction n with
  | zero => rfl
  | succ n ih => rw [Function.iterate_succ_apply', Voice.renderSample_shown, ih]

/-- Each sample moves the phase on round the 16-bit circle by the phase step (46_oscillator.md R302). -/
theorem Voice.renderSample_iterate_phase (vc : Voice) (n : Nat) :
    (Voice.renderSample^[n] vc).phase.toNat = (vc.phase.toNat + n * vc.shown.freq.toNat) % 65536 := by
  induction n with
  | zero => simpa using (Nat.mod_eq_of_lt vc.phase.isLt).symm
  | succ n ih =>
    rw [Function.iterate_succ_apply', Voice.renderSample_phase, BitVec.toNat_add, ih, Voice.renderSample_iterate_shown,
      Nat.mod_add_mod, Nat.add_assoc, Nat.succ_mul]

/-- The phase after `n + 1` samples, as a number. -/
def Voice.phaseAt (vc : Voice) (n : Nat) : Int := (Voice.renderSample^[n + 1] vc).phase.toInt

/-- With an odd phase step no phase comes twice in 65536 samples (46_oscillator.md R302). -/
theorem Voice.phaseAt_injOn {vc : Voice} (hodd : vc.shown.freq.toNat % 2 = 1) :
    Set.InjOn vc.phaseAt (Finset.range 65536) := by
  intro n hn m hm h
  have hphase : (vc.phase.toNat + (n + 1) * vc.shown.freq.toNat) % 65536 =
      (vc.phase.toNat + (m + 1) * vc.shown.freq.toNat) % 65536 := by
    rw [← Voice.renderSample_iterate_phase, ← Voice.renderSample_iterate_phase, BitVec.eq_of_toInt_eq h]
  have hcoprime : Nat.gcd 65536 vc.shown.freq.toNat = 1 :=
    Nat.Coprime.pow_left 16 (Nat.coprime_two_left.mpr (Nat.odd_iff.mpr hodd))
  have hindex : n ≡ m [MOD 65536] :=
    ((Nat.ModEq.add_left_cancel' _ hphase).cancel_right_of_coprime hcoprime).add_right_cancel' 1
  exact hindex.eq_of_lt_of_lt (Finset.mem_range.mp hn) (Finset.mem_range.mp hm)

/-- With an odd phase step the phase takes every value in 65536 samples (46_oscillator.md R302). -/
theorem Voice.image_phaseAt {vc : Voice} (hodd : vc.shown.freq.toNat % 2 = 1) :
    (Finset.range 65536).image vc.phaseAt = Finset.Ico (-32768) 32768 := by
  refine Finset.eq_of_subset_of_card_le (fun x hx => ?_) ?_
  · obtain ⟨n, -, rfl⟩ := Finset.mem_image.mp hx
    exact Finset.mem_Ico.mpr ⟨BitVec.le_toInt _, BitVec.toInt_lt⟩
  · rw [Finset.card_image_of_injOn (Voice.phaseAt_injOn hodd), Finset.card_range, Int.card_Ico]
    rfl

/-- With an odd phase step the phases at or above a threshold come once each in 65536 samples
(46_oscillator.md R302). -/
theorem Voice.card_phaseAt_ge {vc : Voice} (hodd : vc.shown.freq.toNat % 2 = 1) {c : Int} (hc : -32768 ≤ c) :
    ((Finset.range 65536).filter fun n => c ≤ vc.phaseAt n).card = (Finset.Ico c 32768).card := by
  rw [← Finset.Ico_filter_le_of_left_le hc, ← Voice.image_phaseAt hodd, Finset.filter_image,
    Finset.card_image_of_injOn]
  exact (Voice.phaseAt_injOn hodd).mono (Finset.coe_subset.mpr (Finset.filter_subset _ _))

/-- With the gate on, a sample is high exactly if its phase is at or above the threshold: the two levels differ where the
amplitude is not 0 (46_oscillator.md R300). -/
theorem Voice.renderSample_high_iff {vc : Voice} (hgate : vc.shown.gate = true) (hamp : vc.shown.amp ≠ 0) (n : Nat) :
    (Voice.renderSample^[n + 1] vc).sample = vc.shown.amp.setWidth 16 ↔ vc.shown.pw.toInt ≤ vc.phaseAt n := by
  have hpos : 0 < vc.shown.amp.toNat := Nat.pos_of_ne_zero fun h => hamp (BitVec.eq_of_toNat_eq h)
  rw [Voice.phaseAt, Function.iterate_succ_apply', Voice.renderSample_sample, Voice.renderSample_iterate_shown,
    ← BitVec.toInt_inj, Shown.level_toInt, toInt_setWidth_amp, if_pos hgate]
  split_ifs with hhigh
  · exact iff_of_true rfl hhigh
  · exact iff_of_false (by omega) hhigh

/-- Counting in the list of the first `N` numbers is counting in their set. -/
theorem length_filter_range (N : Nat) (P : Nat → Prop) [DecidablePred P] :
    ((List.range N).filter fun n => decide (P n)).length = ((Finset.range N).filter P).card := rfl

/-- Settles O45: the samples are high at the phases from `pw` on, each of which comes once. -/
theorem pulseDutyCycle : Obligations.PulseDutyCycle := by
  intro vc hgate hodd hamp
  rw [length_filter_range, Finset.filter_congr fun n _ => Voice.renderSample_high_iff hgate hamp n,
    Voice.card_phaseAt_ge hodd (BitVec.le_toInt vc.shown.pw), Int.card_Ico, Int.toNat_of_nonneg]
  exact Int.sub_nonneg.mpr BitVec.toInt_lt.le

end Sys2Proof.Machine
end

section
/-! SUPPORT. How the tick of a voice ends, with an error or without one, and what a finished voice can become; settles
O8, O37, O38 and O53. -/

namespace Sys2Proof.Machine

/-! ### The end of a tick -/

/-- The record a tick leaves when it is over, where its last step found the record `vc`: an error stopped the voice
(60_exceptions.md R322), or the tick reports none and leaves `err` alone (60_exceptions.md R330, R331). -/
inductive Voice.TickEnd (vc : Voice) : Voice → Prop
  | stopped (k : ErrKind) : TickEnd vc (vc.stopped k)
  | quiet {vc' : Voice} (herr : vc'.err = vc.err) (hresult : vc'.result = { active := !vc'.finished, error := none }) :
      TickEnd vc vc'

/-- A tick that reports an error left what that error writes. -/
theorem Voice.TickEnd.eq_stopped {vc vc' : Voice} {k : ErrKind} (h : vc.TickEnd vc') (hk : vc'.result.error = some k) :
    vc' = vc.stopped k := by
  cases h with
  | stopped k' => cases hk; rfl
  | quiet herr hresult => rw [hresult] at hk; cases hk

/-- A tick's result is active exactly if the voice is not finished (60_exceptions.md R330). -/
theorem Voice.TickEnd.active {vc vc' : Voice} (h : vc.TickEnd vc') : vc'.result.active = !vc'.finished := by
  cases h with
  | stopped k => rfl
  | quiet herr hresult => rw [hresult]

/-- The tick of a voice that had no error reports the error the voice then has (60_exceptions.md R331). -/
theorem Voice.TickEnd.error_eq_err {vc vc' : Voice} (h : vc.TickEnd vc') (hnone : vc.err = none) :
    vc'.result.error = vc'.err := by
  cases h with
  | stopped k => rfl
  | quiet herr hresult => rw [hresult, herr, hnone]

/-- An instruction that ends the tick changes nothing but its voice's record, and ends it with an error or without. -/
theorem exec_tickEnd {i : Instr} {s t : State} {p : Pass} {vc vc' : Voice} (hp : InPass s p vc) (h : exec i s = .next t)
    (hover : t.engine = .between p.todo) (hv : t.voices[p.voice]? = some vc') : t = s.ticked p vc' ∧ vc.TickEnd vc' := by
  constructor
  · obtain ⟨p', w, new, he, hs, ht, -⟩ := exec_frame h
    obtain ⟨rfl, rfl⟩ := hp.unique he hs
    rw [ht] at hv
    obtain rfl := hp.set_get hv
    rw [ht, hover]
    rfl
  · rcases exec_voice hp h hv with
      ⟨e | e, -⟩ | ⟨e, -⟩ | ⟨-, k, rfl⟩ | ⟨-, rfl⟩ | ⟨-, _, _, rfl⟩ | ⟨-, semi, a, es, -, rfl⟩
    · rw [hover] at e; cases e
    · rw [hover] at e; cases e
    · rw [hover] at e; cases e
    · exact .stopped k
    · exact .quiet rfl rfl
    · exact .quiet rfl rfl
    · exact .quiet rfl rfl

/-- A step of a decode pass that ends the tick does so as an instruction does, or with the fetch's error. -/
theorem step_pass_tickEnd {s t : State} {p : Pass} {vc vc' : Voice} (hp : InPass s p vc) (h : step s = .next t)
    (hover : t.engine = .between p.todo) (hv : t.voices[p.voice]? = some vc') : t = s.ticked p vc' ∧ vc.TickEnd vc' := by
  have hpass := h
  rw [step_pass hp.1] at hpass
  obtain ⟨p', w, he, hs, ⟨k, -, rfl⟩ | ⟨i, -, hx⟩⟩ := passStep_next hpass
  · obtain ⟨rfl, rfl⟩ := hp.unique he hs
    obtain rfl := hp.set_get hv
    exact ⟨rfl, .stopped k⟩
  · exact exec_tickEnd hp hx hover hv

/-- A tick that ends in its first three steps reports no error and leaves `err` alone (40_interpreter_tick.md R150). -/
theorem Rom.tickFront_quiet {r : Rom} {vc vc' : Voice} (h : r.tickFront vc = .ok (.over vc')) :
    vc'.err = vc.err ∧ vc'.result = { active := !vc'.finished, error := none } := by
  obtain ⟨-, -, -, -, -, herr, -⟩ := Rom.tickFront_frame h (.inl rfl)
  refine ⟨herr, ?_⟩
  rcases Rom.tickFront_cases h with ⟨-, e⟩ | ⟨-, -, e⟩ | ⟨-, -, -, e⟩ | ⟨-, -, -, es, w, -, -, e⟩ <;> cases e <;> rfl

/-- The start of a voice's tick that ends it is the first three steps of the tick. -/
theorem step_tickFront_over {s t : State} {v : Nat} {todo : List Nat} {vc vc' : Voice}
    (he : s.engine = .between (v :: todo)) (hs : s.voices[v]? = some vc) (h : step s = .next t)
    (hover : t.engine = .between todo) (hv : t.voices[v]? = some vc') : s.rom.tickFront vc = .ok (.over vc') := by
  rw [step_tick he] at h
  rcases startTick_next h with ⟨hnone, -⟩ | ⟨w, hw, hfront⟩
  · rw [hs] at hnone; cases hnone
  · obtain rfl : vc = w := Option.some.inj (hs.symm.trans hw)
    rcases hfront with ⟨new, hf, rfl⟩ | ⟨new, -, rfl⟩
    · obtain rfl : new = vc' := Option.some.inj ((State.setVoice_self s v new vc hs).symm.trans hv)
      exact hf
    · cases hover

/-- The tick of voice `v` is about to start or in its decode pass, and the ticks of `todo` follow it. -/
def Engine.atTick (v : Nat) (todo : List Nat) (e : Engine) : Prop :=
  e = .between (v :: todo) ∨ ∃ p : Pass, e = .pass p ∧ p.voice = v ∧ p.todo = todo

/-- However the tick of a voice ends, it ends with an error or without. -/
theorem step_tickEnd {s t : State} {v : Nat} {todo : List Nat} {vc vc' : Voice} (he : s.engine.atTick v todo)
    (hs : s.voices[v]? = some vc) (h : step s = .next t) (hover : t.engine = .between todo)
    (hv : t.voices[v]? = some vc') : vc.TickEnd vc' := by
  rcases he with he | ⟨p, he, rfl, rfl⟩
  · obtain ⟨herr, hresult⟩ := Rom.tickFront_quiet (step_tickFront_over he hs h hover hv)
    exact .quiet herr hresult
  · exact (step_pass_tickEnd ⟨he, hs⟩ h hover hv).2

/-- Settles O8: what ends the tick changes one record, and an error in its result is the one that was raised. -/
theorem errorsArePrecise : Obligations.ErrorsArePrecise := by
  intro i s t p vc vc' k hp h hover hv hk
  obtain ⟨ht, hend⟩ : t = s.ticked p vc' ∧ vc.TickEnd vc' := by
    rcases h with hx | hstep
    · exact exec_tickEnd hp hx hover hv
    · exact step_pass_tickEnd hp hstep hover hv
  rw [ht, hend.eq_stopped hk]

/-- Settles O37. -/
theorem tickResultIsNotFinished : Obligations.TickResultIsNotFinished := by
  intro s t v todo vc' he h hover hv
  obtain ⟨vc, hs, -⟩ := step_voice_back h hv
  exact (step_tickEnd he hs h hover hv).active

/-- Settles O38: both parts of the channel are read off the error of the tick result. -/
theorem errorChannelReportsTheTick : Obligations.ErrorChannelReportsTheTick := by
  refine ⟨rfl, fun s t v todo vc vc' hs h hover hv => ⟨fun he hnone => ?_, fun he => ?_⟩⟩
  · have herror := (step_tickEnd he hs h hover hv).error_eq_err hnone
    rw [Voice.errValid, Voice.errCode, herror]
    exact ⟨Option.isSome_iff_ne_none, rfl⟩
  · obtain ⟨herr, hresult⟩ := Rom.tickFront_quiet (step_tickFront_over he hs h hover hv)
    rw [Voice.errValid, Voice.errCode, hresult]
    exact ⟨rfl, rfl, herr⟩

/-! ### A finished voice -/

/-- A step leaves a finished voice finished, with its error, unless it is an Init of that voice
(60_exceptions.md R332). -/
theorem VoiceStep.finished_until_init {s t : State} {v : Nat} {vc vc' : Voice} (ho : s.engineOk)
    (hs : s.voices[v]? = some vc) (hfin : vc.finished = true) (h : VoiceStep s v vc vc' t) :
    (vc'.finished = true ∧ vc'.err = vc.err) ∨
      ∃ stream len rest, s.engine = .between [] ∧ s.inputs = .init v stream len :: rest ∧
        vc' = vc.init s.deploy stream len := by
  cases h with
  | same h => subst h; exact .inl ⟨hfin, rfl⟩
  | raises p k he hp | runs p i he hp =>
    subst hp
    have hrunning := (State.engineOk_pass ho ⟨he, hs⟩).1
    rw [hfin] at hrunning
    cases hrunning
  | ticks todo he hf =>
    obtain ⟨-, -, -, -, -, herr, -, hkept, -⟩ := Rom.tickFront_frame hf (.inl rfl)
    exact .inl ⟨hkept.trans hfin, herr⟩
  | fetches todo he hf =>
    obtain ⟨-, -, -, -, -, herr, -, hkept, -⟩ := Rom.tickFront_frame hf (.inr rfl)
    exact .inl ⟨hkept.trans hfin, herr⟩
  | oldest w rest he hp h => subst h; exact .inl ⟨hfin, rfl⟩
  | settles f rest he hi h =>
    obtain ⟨sh, ws, e, -⟩ := vc.settle_frame f
    rw [h, e]
    exact .inl ⟨hfin, rfl⟩
  | samples rest he hi h => subst h; exact .inl ⟨hfin, rfl⟩
  | inits stream len rest he hi hl hp h => exact .inr ⟨stream, len, rest, he, hi, h⟩

/-- An Init that is due and finds no write of its voice pending initialises the voice (70_reset_and_hazards.md R360). -/
theorem step_init {s t : State} {v : Nat} {vc : Voice} {stream : List Byte} {len : Word} {rest : List Input}
    (he : s.engine = .between []) (hi : s.inputs = .init v stream len :: rest) (hs : s.voices[v]? = some vc)
    (hp : vc.pending = []) (h : step s = .next t) :
    t = { s.setVoice v (vc.init s.deploy stream len) with inputs := rest } := by
  simp only [step_serve he, serve, hi, serveInit, hs, hp, List.isEmpty_nil, if_true] at h
  split at h <;> cases h
  rfl

/-- Settles O53. -/
theorem finishedUntilInit : Obligations.FinishedUntilInit := by
  intro s t v vc ho hs hfin h
  obtain ⟨vc', hv, hstep⟩ := step_voice hs h
  refine ⟨vc', hv, ?_, fun stream len he hi hp => ?_⟩
  · rcases hstep.finished_until_init ho hs hfin with hkept | ⟨stream, len, rest, he, hi, rfl⟩
    · exact .inl hkept
    · exact .inr ⟨rfl, rfl, he, stream, len, by rw [hi]; rfl⟩
  · obtain ⟨rest, hi⟩ := List.head?_eq_some_iff.mp hi
    obtain rfl := step_init he hi hs hp h
    obtain rfl := Option.some.inj ((State.setVoice_self s v _ vc hs).symm.trans hv)
    exact ⟨rfl, rfl⟩

end Sys2Proof.Machine
end

section
/-! SUPPORT. Init, power-on, what the host may load and what it must not do, and how pending writes become visible between
TickEvents (70_reset_and_hazards.md); settles O47 to O52, O58 and O60. -/

namespace Sys2Proof.Machine

/-! ### Pending writes become visible -/

/-- Applying the oldest write to a register leaves the other pending writes in their order. -/
theorem Voice.settle_split {vc : Voice} {f : OscField} {before after : List OscWrite} {w : OscWrite}
    (hp : vc.pending = before ++ w :: after) (hw : w.field = f) (hb : ∀ x ∈ before, x.field ≠ f) :
    vc.settle f = { vc with shown := vc.shown.apply w, pending := before ++ after } := by
  rw [Voice.settle, hp, takeFirst_split hw hb]

/-- Where no write to a register is pending, applying one changes nothing. -/
theorem Voice.settle_absent {vc : Voice} {f : OscField} (h : ∀ w ∈ vc.pending, w.field ≠ f) : vc.settle f = vc := by
  rw [Voice.settle, takeFirst_none.mpr h]

/-- Applying the oldest pending write of all leaves the later ones. -/
theorem Voice.settleOldest_cons {vc : Voice} {w : OscWrite} {ws : List OscWrite} (hp : vc.pending = w :: ws) :
    vc.settleOldest = { vc with shown := vc.shown.apply w, pending := ws } := by
  rw [Voice.settleOldest, hp]

/-- `settleSome` passes over the voices with no write pending to the first voice that has one. -/
theorem settleSome_first {vs : List Voice} {v : Nat} {vc : Voice} (hv : vs[v]? = some vc) (hp : vc.pending ≠ [])
    (hnone : ∀ (u : Nat) (x : Voice), u < v → vs[u]? = some x → x.pending = []) :
    settleSome vs = some (vs.set v vc.settleOldest) := by
  induction vs generalizing v with
  | nil => cases hv
  | cons x vs ih =>
    cases v with
    | zero =>
      obtain rfl : x = vc := Option.some.inj hv
      cases hx : x.pending with
      | nil => exact absurd hx hp
      | cons w ws => simp only [settleSome, hx, List.set_cons_zero]
    | succ v =>
      have hx : x.pending = [] := hnone 0 x v.succ_pos rfl
      have hrest : settleSome vs = some (vs.set v vc.settleOldest) :=
        ih hv fun u y hu hy => hnone (u + 1) y (Nat.succ_lt_succ hu) hy
      simp only [settleSome, hx, hrest, Option.map_some, List.set_cons_succ]

/-- An event that applies a write of a voice settles that voice and is then over (70_reset_and_hazards.md R370). -/
theorem step_settle {s : State} {v : Nat} {vc : Voice} {f : OscField} {rest : List Input} (he : s.engine = .between [])
    (hi : s.inputs = .settle v f :: rest) (hv : s.voices[v]? = some vc) :
    step s = .next { s.setVoice v (vc.settle f) with inputs := rest } := by
  simp only [step_serve he, serve, hi, serveSettle, hv]

/-- With no event due a step is the idle step (log 4, log 5). -/
theorem step_idle {s : State} (he : s.engine = .between []) (hi : s.inputs = []) : step s = .next (idle s) := by
  rw [step_serve he, serve, hi]

/-- An Init with a long enough buffer waits while a write of its voice is pending, and the oldest one is applied
(log 4). -/
theorem step_init_waits {s : State} {v : Nat} {vc : Voice} {stream : List Byte} {len : Word} {rest : List Input}
    (he : s.engine = .between []) (hi : s.inputs = .init v stream len :: rest) (hv : s.voices[v]? = some vc)
    (hlen : len.toNat ≤ stream.length) (hp : vc.pending ≠ []) : step s = .next (s.setVoice v vc.settleOldest) := by
  have hwaits : ¬ vc.pending.isEmpty = true := fun h => hp (List.isEmpty_iff.mp h)
  simp only [step_serve he, serve, hi, serveInit, hv, if_neg hlen.not_gt, if_neg hwaits]

/-- Settles O60, by the event that is due: the application of a write, none, or an Init. -/
theorem pendingWritesBecomeVisible : Obligations.PendingWritesBecomeVisible := by
  intro s v vc he hv
  refine ⟨fun f rest hi => ⟨fun habsent => ?_, fun before after w hp hw hb => ?_⟩, fun hi hnone => ?_,
    fun w ws hp => ⟨fun hi hnone => ?_, fun stream len rest hi hlen => ?_⟩⟩
  · rw [step_settle he hi hv, Voice.settle_absent habsent, State.setVoice_same s v vc hv]
  · rw [step_settle he hi hv, Voice.settle_split hp hw hb]
    rfl
  · rw [step_idle he hi, idle, settleSome_none.mpr hnone]
  · have hpending : vc.pending ≠ [] := by rw [hp]; exact List.cons_ne_nil w ws
    rw [step_idle he hi, idle, settleSome_first hv hpending hnone, Voice.settleOldest_cons hp]
  · have hpending : vc.pending ≠ [] := by rw [hp]; exact List.cons_ne_nil w ws
    rw [step_init_waits he hi hv hlen hpending, Voice.settleOldest_cons hp]
    rfl

/-! ### Torn publication -/

/-- With at most one write pending to each register, naming any choice of registers in the order of their writes makes
exactly the chosen writes visible. -/
theorem Voice.settles_chosen (choice : OscField → Bool) {vc : Voice} {kept ws : List OscWrite}
    (hp : vc.pending = kept ++ ws) (hdistinct : ((kept ++ ws).map OscWrite.field).Nodup) :
    ((ws.map OscWrite.field).filter choice).foldl Voice.settle vc =
      { vc with
        shown := (ws.filter fun w => choice w.field).foldl Shown.apply vc.shown
        pending := kept ++ ws.filter fun w => !choice w.field } := by
  induction ws generalizing vc kept with
  | nil =>
    rw [List.append_nil] at hp
    simp [← hp]
  | cons w ws ih =>
    cases hw : choice w.field with
    | true =>
      have hfirst : ∀ x ∈ kept, x.field ≠ w.field := by
        rw [List.map_append, List.nodup_append] at hdistinct
        intro x hx
        exact hdistinct.2.2 x.field (List.mem_map_of_mem hx) w.field (by simp)
      have hrest : ((kept ++ ws).map OscWrite.field).Nodup :=
        hdistinct.sublist (((List.sublist_cons_self w ws).append_left kept).map OscWrite.field)
      simp only [List.map_cons, List.filter_cons, hw, if_true, List.foldl_cons, Voice.settle_split hp rfl hfirst]
      rw [ih rfl hrest]
      simp
    | false =>
      have hmoved : kept ++ w :: ws = (kept ++ [w]) ++ ws := by simp
      rw [hmoved] at hp hdistinct
      simp only [List.map_cons, List.filter_cons, hw, Bool.false_eq_true, if_false]
      rw [ih hp hdistinct]
      simp

/-- The writes Publish leaves pending, in its order (40_interpreter_tick.md R160). -/
def Rom.publishWrites (r : Rom) (vc : Voice) : List OscWrite :=
  [.freq (r.pubFreq vc), .amp (r.pubAmp vc), .pw vc.pubPw]

/-- Publish writes each of its registers once. -/
theorem Rom.publishWrites_distinct (r : Rom) (vc : Voice) : ((r.publishWrites vc).map OscWrite.field).Nodup := by
  simp [Rom.publishWrites, OscWrite.field]

/-- Right after a Publish that found no write pending, its own writes are pending. -/
theorem Rom.publish_pending_alone {r : Rom} {vc : Voice} (hp : vc.pending = []) :
    (r.publish vc).pending = r.publishWrites vc := by
  rw [Rom.publish_pending, hp]
  rfl

/-- The registers a sample is to see with their new values. -/
def tornChoice (newFreq newAmp newPw : Bool) : OscField → Bool
  | .gate => false
  | .freq => newFreq
  | .amp => newAmp
  | .pw => newPw

/-- The mix of old and new that the chosen writes of a Publish make visible. -/
theorem Shown.apply_tornChoice (o : Shown) (r : Rom) (vc : Voice) (newFreq newAmp newPw : Bool) :
    ((r.publishWrites vc).filter fun w => tornChoice newFreq newAmp newPw w.field).foldl Shown.apply o =
      { gate := o.gate
        freq := if newFreq then r.pubFreq vc else o.freq
        amp := if newAmp then r.pubAmp vc else o.amp
        pw := if newPw then vc.pubPw else o.pw } := by
  cases newFreq <;> cases newAmp <;> cases newPw <;> rfl

/-- Settles O47: the events name, in the order of Publish, the registers that are to be new. -/
theorem everyTornMixIsReachable : Obligations.EveryTornMixIsReachable := by
  intro s v vc rest newFreq newAmp newPw hp he hv
  have hchosen := Voice.settles_chosen (tornChoice newFreq newAmp newPw) (kept := []) (ws := s.rom.publishWrites vc)
    (Rom.publish_pending_alone hp) (s.rom.publishWrites_distinct vc)
  refine ⟨((s.rom.publishWrites vc).map OscWrite.field).filter (tornChoice newFreq newAmp newPw), _, _,
    run_settles he rfl hv, rfl, List.getElem?_set_self (List.getElem?_eq_some_iff.mp hv).1, ?_⟩
  rw [hchosen, Rom.publish_shown, Rom.publish_freq, Rom.publish_amp, Rom.publish_pw]
  exact vc.shown.apply_tornChoice s.rom vc newFreq newAmp newPw

/-! ### Init -/

/-- An Init with a long enough buffer, of a voice with no write pending, is served in one step
(70_reset_and_hazards.md R360). -/
theorem step_init_served {s : State} {v : Nat} {vc : Voice} {stream : List Byte} {len : Word} {rest : List Input}
    (he : s.engine = .between []) (hi : s.inputs = .init v stream len :: rest) (hv : s.voices[v]? = some vc)
    (hlen : len.toNat ≤ stream.length) (hp : vc.pending = []) :
    step s = .next { s.setVoice v (vc.init s.deploy stream len) with inputs := rest } := by
  simp only [step_serve he, serve, hi, serveInit, hv, if_neg hlen.not_gt, hp, List.isEmpty_nil, if_true]

/-- A bound buffer reads as supplied. -/
theorem Memory.read_ofBytes_zero {bs : List Byte} {a : Nat} {b : Byte} (h : bs[a]? = some b) :
    (Memory.ofBytes 0 bs).read a = b := by
  have hread := Memory.read_ofBytes 0 a bs
  rwa [Nat.zero_add, h] at hread

/-- Settles O48. -/
theorem initWritesTheRecord : Obligations.InitWritesTheRecord := by
  intro s v vc stream len rest he hi hv hlen hp
  refine ⟨Memory.ofBytes 0 stream, vc.result, vc.sample, fun a b => Memory.read_ofBytes_zero,
    Memory.ofBytes_wf 0 stream, ?_⟩
  rw [step_init_served he hi hv hlen hp]
  rfl

/-! ### The host's loading of the read-only memories, and its duties -/

/-- Sequences in range are at most 256, of 1 to 255 bytes each (00_scope.md R11). -/
theorem seqsInRange_iff {seqs : List (List Byte)} :
    seqsInRange seqs = true ↔ seqs.length ≤ 256 ∧ ∀ q ∈ seqs, 1 ≤ q.length ∧ q.length ≤ 255 := by
  simp only [seqsInRange, Bool.and_eq_true, decide_eq_true_eq, List.all_eq_true]

/-- A load in range, with every voice finished, fills the read-only memories and changes nothing else
(70_reset_and_hazards.md R365 step 1). -/
theorem step_load {s : State} {ft : Vector Word 12} {am : Vector Byte 16} {seqs : List (List Byte)} {rest : List Input}
    (he : s.engine = .between []) (hi : s.inputs = .load ft am seqs :: rest)
    (hfin : ∀ vc ∈ s.voices, vc.finished = true) (hrange : seqsInRange seqs = true) :
    step s = .next { s with rom := Rom.ofSeqs ft am seqs, inputs := rest } := by
  have hall : s.voices.all Voice.finished = true := List.all_eq_true.mpr hfin
  simp only [step_serve he, serve, hi, serveLoad, hall, hrange, Bool.not_true, Bool.false_eq_true, if_false]

/-- Settles O50. -/
theorem loadFillsTheReadOnlyMemories : Obligations.LoadFillsTheReadOnlyMemories := by
  intro s ft am seqs rest he hi hfin hcount hlen
  have hrange : seqsInRange seqs = true := seqsInRange_iff.mpr ⟨hcount, hlen⟩
  exact ⟨Rom.ofSeqs ft am seqs, step_load he hi hfin hrange, Rom.ofSeqs_ok ft am hrange, rfl, rfl, List.length_map _,
    fun k q hq => Rom.seqBytes_ofSeqs ft am seqs k q (fun q hq => (hlen q hq).2) hq⟩

/-- Settles O49. -/
theorem hostDutiesAreRefused : Obligations.HostDutiesAreRefused := by
  intro s v stream len ft am seqs rest he
  rw [step_serve he]
  refine ⟨fun hi hv => ?_, fun hi hv hshort => ?_, fun hi hv => ?_, fun hi ⟨vc, hmem, hfin⟩ => ?_⟩
  · simp only [serve, hi, serveInit, List.getElem?_eq_none hv]
  · simp only [serve, hi, serveInit, List.getElem?_eq_getElem hv, if_pos hshort]
  · simp only [serve, hi, serveSample, List.getElem?_eq_none hv]
  · have huse : s.voices.all Voice.finished = false := List.all_eq_false.mpr ⟨vc, hmem, by simp [hfin]⟩
    simp only [serve, hi, serveLoad, huse, Bool.not_false, if_true]

/-! ### Power-on, and a voice before its Init -/

/-- Every voice of the block is at power-on what `Voice.powerOn` says. -/
theorem State.powerOn_voice {d : Deployment} {r : Rom} {nv v : Nat} {vc : Voice} :
    (State.powerOn d r nv).voices[v]? = some vc ↔ v < nv ∧ vc = Voice.powerOn d := by
  simp [State.powerOn, List.getElem?_replicate, eq_comm]

/-- What holds of `Voice.powerOn` holds of every voice of the block at power-on. -/
theorem State.powerOn_all {d : Deployment} {r : Rom} {nv : Nat} {P : Voice → Prop} (h : P (Voice.powerOn d)) :
    (State.powerOn d r nv).all P :=
  fun _ hvc => (List.mem_replicate.mp hvc).2 ▸ h

/-- Settles O51. -/
theorem powerOnState : Obligations.PowerOnState := by
  intro d r nv v hv
  have hvoice : (State.powerOn d r nv).voices[v]? = some (Voice.powerOn d) := State.powerOn_voice.mpr ⟨hv, rfl⟩
  exact ⟨Voice.powerOn d, hvoice, rfl, rfl, rfl, rfl, by rw [State.finishedQuery, hvoice]; rfl⟩

/-- At power-on a voice's offsets are all 0. -/
theorem Voice.powerOn_offsetsOk (d : Deployment) : (Voice.powerOn d).offsetsOk := by
  refine ⟨Nat.le_refl 0, Nat.le_refl 0, fun f hf => ?_⟩
  rw [Voice.powerOn, Vector.toList_replicate] at hf
  exact (List.mem_replicate.mp hf).2 ▸ Nat.le_refl 0

/-- At power-on no write is pending. -/
theorem State.powerOn_pendingOk (d : Deployment) (r : Rom) (nv : Nat) : (State.powerOn d r nv).pendingOk := by
  intro v vc hv
  obtain ⟨-, rfl⟩ := State.powerOn_voice.mp hv
  exact ⟨earlyWrites.ok (.inl rfl), fun _ => rfl, fun _ _ _ => .inl rfl⟩

/-- A block with a sound sequence memory meets the invariant at power-on. -/
theorem State.powerOn_inv (d : Deployment) {r : Rom} (nv : Nat) (h : r.ok) : (State.powerOn d r nv).inv := by
  refine ⟨h, State.powerOn_all (Voice.powerOn_offsetsOk d), State.powerOn_all ?_, State.powerOn_all ?_,
    State.powerOn_all rfl, State.powerOn_all rfl, State.powerOn_all ⟨nofun, nofun⟩, State.powerOn_all nofun,
    ⟨List.nodup_nil, nofun⟩, State.powerOn_pendingOk d r nv⟩
  · exact Voice.sweepOk_of_start rfl
  · exact ⟨fun _ => rfl, fun herr => absurd rfl herr, nofun⟩

/-- The read-only memories of the test configuration are sound. -/
theorem Rom.test_ok : Rom.test.ok := ⟨rfl, Nat.zero_le 256, nofun⟩

/-- Settles O58. -/
theorem invariantAtPowerOn : Obligations.InvariantAtPowerOn :=
  ⟨fun d _ nv h => State.powerOn_inv d nv h, State.powerOn_inv _ 1 Rom.test_ok⟩

/-- A sample of a voice whose gate is seen off is 0 (46_oscillator.md R300). -/
theorem Voice.renderSample_sample_gate_off {vc : Voice} (h : vc.shown.gate = false) : vc.renderSample.sample = 0 := by
  rw [Voice.renderSample_sample, Shown.level, h]
  rfl

/-- What a step does to a finished voice with no write pending: nothing, the tick of a finished voice, a sample, or an
Init. -/
theorem VoiceStep.finished_cases {s t : State} {v : Nat} {vc vc' : Voice} (ho : s.engineOk)
    (hs : s.voices[v]? = some vc) (hfin : vc.finished = true) (hnone : vc.pending = []) (h : VoiceStep s v vc vc' t) :
    (vc' = vc ∨ vc' = vc.tickOver ∨ vc' = vc.renderSample) ∨
      ∃ stream len, s.engine = .between [] ∧ s.inputs.head? = some (.init v stream len) := by
  have hfront : s.rom.tickFront vc = .ok (.over vc.tickOver) := by rw [Rom.tickFront, if_pos hfin]
  cases h with
  | same h => exact .inl (.inl h)
  | raises p k he hp | runs p i he hp =>
    subst hp
    exact absurd hfin (by rw [(State.engineOk_pass ho ⟨he, hs⟩).1]; exact Bool.false_ne_true)
  | ticks todo he hf =>
    rw [hfront] at hf
    cases hf
    exact .inl (.inr (.inl rfl))
  | fetches todo he hf =>
    rw [hfront] at hf
    cases hf
  | oldest w rest he hp h =>
    rw [hnone] at hp
    cases hp
  | settles f rest he hi h =>
    have habsent : ∀ w ∈ vc.pending, w.field ≠ f := by rw [hnone]; exact nofun
    exact .inl (.inl (h.trans (Voice.settle_absent habsent)))
  | samples rest he hi h => exact .inl (.inr (.inr h))
  | inits stream len rest he hi => exact .inr ⟨stream, len, he, by rw [hi]; rfl⟩

/-- Settles O52: a step that is no Init of the voice leaves all but its outputs and its phase alone. -/
theorem uninitialisedVoiceIsSilent : Obligations.UninitialisedVoiceIsSilent := by
  intro s t v vc ho hs hfin hgate hnone h
  obtain ⟨vc', hv, hstep⟩ := step_voice hs h
  have hsample : s.engine = .between [] ∧ s.inputs.head? = some (.sample v) → vc'.sample = 0 := fun ⟨he, hi⟩ => by
    obtain ⟨rest, hi⟩ := List.head?_eq_some_iff.mp hi
    rw [step_sample he hi hs] at h
    cases h
    obtain rfl := Option.some.inj ((State.setVoice_self s v _ vc hs).symm.trans hv)
    exact Voice.renderSample_sample_gate_off hgate
  rcases hstep.finished_cases ho hs hfin hnone with hkept | hinit
  · right
    refine ⟨vc', hv, ?_⟩
    rcases hkept with rfl | rfl | rfl <;> exact ⟨hfin, hgate, hnone, rfl, hsample⟩
  · exact .inl hinit

end Sys2Proof.Machine
end
